-- ==== Sys2Proof/Word.lean ====
section
/-! DEFINITION. The word types of the scanout block (spec/00_scope.md R11, spec/20_memory.md R82, R83). -/

namespace Sys2Proof

/-- A 32-bit unsigned word: every register and memory word unless its rule says otherwise (00_scope R11). -/
abbrev Word := BitVec 32

/-- One byte of system memory. -/
abbrev Byte := BitVec 8

/-- A pixel value: bit 0 red, bit 1 green, bit 2 blue (20_memory R83). -/
abbrev Color := BitVec 3

end Sys2Proof
end

