-- ==== Sys2Proof/Config.lean ====
section
/-! DEFINITION. What an implementation fixes (spec/00_scope.md R7 to R10, spec/20_memory.md R91, R95, R107) and the free
values of the model. -/

namespace Sys2Proof

/-- A framebuffer geometry as the build sets it (00_scope R7). -/
structure Geometry where
  hRes : Nat
  vRes : Nat
  bpp : Nat
  ubits : Nat
  deriving DecidableEq, Repr

/-- A geometry is legal only if all three remainders are 0 (00_scope R8). -/
def Geometry.legal (g : Geometry) : Bool :=
  (g.hRes * g.vRes * g.bpp) % g.ubits == 0 && g.ubits % g.bpp == 0 && (g.hRes * g.bpp) % g.ubits == 0

/-- H_RES, active pixels per scanline (00_scope R7). -/
def hRes : Nat := 640
/-- V_RES, active scanlines per frame (00_scope R7). -/
def vRes : Nat := 480
/-- BPP, bits per pixel (00_scope R7). -/
def bpp : Nat := 3
/-- UBITS, usable bits per framebuffer word (00_scope R7). -/
def ubits : Nat := 30
/-- PPW, pixels per word (00_scope R7). -/
def ppw : Nat := 10
/-- FB_WORDS, framebuffer length in words (00_scope R7). -/
def fbWords : Nat := 30720
/-- STRIDE, words per scanline (00_scope R7). -/
def stride : Nat := 64

/-- The geometry this hardware takes (00_scope R7). -/
def thisGeometry : Geometry := ⟨hRes, vRes, bpp, ubits⟩

/-- V_FP − 1 and V_BP − 1: the source's 10 and 2 lines (00_scope R9; 90_conflicts C5 keeps them). UNVERIFIED
against a display, unsafe for a claim about a standard monitor: log 17. -/
def vFpM1 : Nat := 9
def vBpM1 : Nat := 1

/-- MEM_ENDIAN: how a host byte or halfword access sees a word (20_memory R91). -/
inductive Endian where
  | little
  | big
  deriving DecidableEq, Repr, Inhabited

/-- A range of byte addresses of ordinary memory: one part of RAM_REGIONS (20_memory R107). -/
structure Region where
  base : Nat
  size : Nat
  deriving DecidableEq, Repr, Inhabited

/-- PIN_MAP: the physical pins of HSYNC, VSYNC and RGB[2:0] (00_scope R10). -/
structure PinMap where
  hsync : Nat
  vsync : Nat
  red : Nat
  green : Nat
  blue : Nat
  deriving DecidableEq, Repr, Inhabited

/-- The open parameters of 00_scope R10 and the platform's RAM_REGIONS and MEM_ENDIAN (20_memory R91, R107). A width of
1..2^16 is held minus one in 16 bits and FIFO_DEPTH (2..7) minus two, so that every value of the type is legal and every
legal value is a value of the type (log 3). -/
structure Platform where
  hFpM1 : BitVec 16
  hSyncM1 : BitVec 16
  hBpM1 : BitVec 16
  vSyncM1 : BitVec 16
  hsyncActive : Bool
  vsyncActive : Bool
  fifoDepthM2 : Fin 6
  blockPage : BitVec 24
  ramRegions : List Region
  memEndian : Endian
  pinMap : PinMap
  pclkHz : Nat
  deriving DecidableEq, Repr, Inhabited

/-- FIFO_DEPTH, 2 to 7 (00_scope R10). -/
def Platform.fifoDepth (pl : Platform) : Nat := pl.fifoDepthM2.val + 2

/-- BLOCK_BASE, any 256-byte-aligned address (00_scope R10). -/
def Platform.blockBase (pl : Platform) : Word := pl.blockPage ++ 0#8

/-- Who takes a step: the five agents of 00_scope R6, and the RESET input of 70_reset R300. -/
inductive Turn where
  | host
  | tick
  | ch0
  | ch1
  | eng
  | reset
  deriving DecidableEq, Repr, Inhabited

/-- FREE VALUE: the parameters of the machine that leaves reset (00_scope R10 says the model takes each as an argument;
log 3). No proof can see it, so a claim about `State.reset` holds for every platform. Safe. -/
opaque Config.platform : Platform

/-- FREE VALUE: who steps when nothing in the state says so (00_scope R6: any enabled agent may step next; 93 I21: any
interleaving), applied to the count of free choices made (log 1). Safe. -/
opaque Config.freeTurn : Nat → Turn

end Sys2Proof
end

