-- ==== Sys2Proof/Syntax.lean ====
section
/-! DEFINITION. The commands of the block (spec/30_encoding.md R124): one constructor per row of the opcode table. -/

namespace Sys2Proof

/-- A command with the operands it uses (30_encoding R124). Coordinates are the unbounded integers of `sext_12` (00_scope
R12, 30_encoding R123); fields a command does not use are no operands of it (R127). -/
inductive Instr where
  /-- op 0x0 (R233) -/
  | nop
  /-- op 0x1, PIXEL x, y, c (R234) -/
  | pixel (x y : Int) (c : Color)
  /-- op 0x2, FILL c (R235) -/
  | fill (c : Color)
  /-- op 0x3, HLINE x1, x2, y, c (R236) -/
  | hline (x1 x2 y : Int) (c : Color)
  /-- op 0x4, VLINE x, y1, y2, c (R239) -/
  | vline (x y1 y2 : Int) (c : Color)
  /-- op 0x5 (R210) -/
  | start
  /-- op 0x6 (R212) -/
  | stop
  deriving DecidableEq, Repr

end Sys2Proof
end

