-- ==== Sys2Proof/Machine/State.lean ====
section
/-! DEFINITION. The state of the block and of the system it acts on, as plain data (spec/10_state.md), and the state after
reset (R64). -/

namespace Sys2Proof.Machine

/-- Phase of H and of V (10_state R49). -/
inductive Phase where
  | idle
  | param
  | active
  | fp
  | sync
  | bp
  deriving DecidableEq, Repr

/-- Phase of P (10_state R49). -/
inductive PixPhase where
  | idle
  | param
  | wait
  | run
  deriving DecidableEq, Repr

/-- H or V: phase, count left in the phase minus one, pulled parameter (10_state R50, R51). -/
structure Seq where
  phase : Phase
  cnt : Word
  par : Word
  deriving DecidableEq, Repr

/-- P (10_state R52). `avail` is the number of pixels left in `osr`, 0 to 10. -/
structure PixSeq where
  phase : PixPhase
  cnt : Word
  par : Word
  osr : Word
  avail : Nat
  deriving DecidableEq, Repr

/-- The stored registers of the register file. Only the bits that exist are stored: FB_BASE[31:2] (10_state R41) and
CMD_B[23:0] (R44); log 22. -/
structure Regs where
  fbBaseHi : BitVec 30
  hActiveM1 : Word
  vActiveM1 : Word
  cmdB : BitVec 24
  deriving DecidableEq, Repr

/-- The sticky error flags, STATUS bits 2 to 5 (10_state R34). -/
structure ErrFlags where
  cmdBusyErr : Bool
  cmdOpErr : Bool
  coordErr : Bool
  seqErr : Bool
  deriving DecidableEq, Repr

/-- CH0, the stream channel (10_state R56). -/
structure StreamChannel where
  busy : Bool
  raddr : Word
  count : Word
  deriving DecidableEq, Repr

/-- An engine micro-op (10_state R58; 43_framebuffer_commands R231). -/
inductive MicroOp where
  | rmw (addr mask bits : Word)
  | wr (addr value : Word)
  deriving DecidableEq, Repr

/-- ENG (10_state R58). -/
structure Engine where
  ops : List MicroOp
  phase2 : Bool
  tmp : Word
  deriving DecidableEq, Repr

/-- The output pins, as the last tick left them (10_state R60; log 13). -/
structure Pins where
  hsync : Bool
  vsync : Bool
  rgb : BitVec 3
  deriving DecidableEq, Repr

/-- System memory: (address, byte) pairs, addresses strictly rising, no entry equal to what an unlisted address reads as
(log 4). -/
abbrev Memory := List Host.Cell

/-- Width of a host access. -/
inductive Width where
  | byte
  | half
  | word
  deriving DecidableEq, Repr

/-- What a host access names: a register by its offset from BLOCK_BASE, or a bus address (30_encoding R132). -/
inductive Target where
  | reg (offset : BitVec 8)
  | mem (addr : Word)
  deriving DecidableEq, Repr

/-- A host step (30_encoding R132): `R`, `W`, or `POLL <reg>, m, v`. -/
inductive HostStep where
  | read (w : Width) (t : Target)
  | write (w : Width) (t : Target) (v : Word)
  | poll (offset : BitVec 8) (m v : Word)
  deriving DecidableEq, Repr

/-- A ghost event (00_scope R13): UNDERFLOW with its tick number (40_timing_programs R165). Not hardware state. -/
inductive GhostEvent where
  | underflow (tick : Nat)
  deriving DecidableEq, Repr

/-- The machine. The fields up to `pins` are the block's state (10_state R30), with `ch0StuckLatch` (CH0 is stuck until reset,
60_exceptions R272; log 26) and `engBase` (the FB_BASE value ENG latched with its last command, 20_memory R81; log 27); `mem` is
system memory; `platform` the parameters of 00_scope R10, which no step changes; the rest are the model's own (logs 1, 5, 14,
18). -/
structure State where
  regs : Regs
  flags : ErrFlags
  run : Bool
  h : Seq
  v : Seq
  p : PixSeq
  awf : Bool
  hq : List Word
  vq : List Word
  pq : List Word
  ch0 : StreamChannel
  ch0StuckLatch : Bool
  ch1Busy : Bool
  eng : Engine
  engBase : Word
  pins : Pins
  mem : Memory
  platform : Platform
  turns : List Turn
  freeTurns : Nat
  program : List HostStep
  hostRead : Option Word
  tickNo : Nat
  history : List GhostEvent
  deriving DecidableEq, Repr

/-- Why the machine stops with a fault. -/
inductive Fault where
  /-- Raised by a host access to an address that is neither in RAM_REGIONS nor in the register file (20_memory R95, R107:
  nothing is said to be there). Safe: the model stops where a platform device may answer (log 10). -/
  | hostUnmapped (addr : Word)
  deriving DecidableEq, Repr

/-- Why the model has no step. -/
inductive Refusal where
  /-- Raised by an arm of `exec` for a command without a meaning. Safe. No arm raises it. -/
  | notModelled (mnemonic : String)
  /-- Raised by a host register access that is not one aligned 32-bit access (10_state R32; 93 I11). Safe. -/
  | hostRegisterAccess
  /-- Raised by a host byte or halfword write to a framebuffer word (20_memory R101; 93 I10). Safe. -/
  | hostSubWordWrite
  /-- Raised by a host halfword or word access to system memory that is not aligned, to which the spec gives no effect (91
  N17; log 9). Safe. -/
  | hostMisaligned
  deriving DecidableEq, Repr

/-- The machine after power-on with platform `pl` and memory content `m` (70_reset R300, R302: the content is any, and a
model takes it as an argument). Block state is the table of 10_state R64. The model's own fields start empty (log 6:
DESIGN CHOICE, unsafe only for a claim that rests on them). -/
def State.powerOn (pl : Platform) (m : Memory) : State where
  regs := { fbBaseHi := 0, hActiveM1 := 639, vActiveM1 := 479, cmdB := 0 }
  flags := { cmdBusyErr := false, cmdOpErr := false, coordErr := false, seqErr := false }
  run := false
  h := { phase := .idle, cnt := 0, par := 0 }
  v := { phase := .idle, cnt := 0, par := 0 }
  p := { phase := .idle, cnt := 0, par := 0, osr := 0, avail := 0 }
  awf := false
  hq := []
  vq := []
  pq := []
  ch0 := { busy := false, raddr := 0, count := 0 }
  ch0StuckLatch := false
  ch1Busy := false
  eng := { ops := [], phase2 := false, tmp := 0 }
  engBase := 0
  pins := { hsync := !pl.hsyncActive, vsync := !pl.vsyncActive, rgb := 0 }
  mem := m
  platform := pl
  turns := []
  freeTurns := 0
  program := []
  hostRead := none
  tickNo := 0
  history := []

/-- The machine right after reset (10_state R64): any platform (the free value `Config.platform`, log 3), memory with
nothing listed (log 4). -/
def State.reset : State := State.powerOn Config.platform []

end Sys2Proof.Machine
end

