-- ==== Sys2Proof/Machine/Ops.lean ====
section
/-! DEFINITION. The named operations over memory, queues, channels and registers (spec/00_scope.md R13, spec/20_memory.md,
spec/41_scanout_dma.md R194, spec/70_reset_and_hazards.md R300). -/

namespace Sys2Proof.Machine

/-- What a byte that nothing has written reads as. DESIGN CHOICE, unsafe for claims about runs from `State.reset` only: the
spec says any value (70_reset R302), and `State.powerOn` takes any memory (log 4). -/
def unlistedByte : Byte := 0

/-- The byte of memory at address a. -/
def Memory.get : Memory → Nat → Byte
  | [], _ => unlistedByte
  | (k, b) :: rest, a => if k = a then b else Memory.get rest a

/-- Memory without any entry at address a. -/
def Memory.erase : Memory → Nat → Memory
  | [], _ => []
  | (k, v) :: rest, a => if k = a then Memory.erase rest a else (k, v) :: Memory.erase rest a

/-- Memory with the entry (a, b) put before the first higher address. -/
def Memory.insert : Memory → Nat → Byte → Memory
  | [], a, b => [(a, b)]
  | (k, v) :: rest, a, b => if a < k then (a, b) :: (k, v) :: rest else (k, v) :: Memory.insert rest a b

/-- Memory with byte b at address a, in canonical form again: the value an unlisted address reads as removes the entry. -/
def Memory.set (m : Memory) (a : Nat) (b : Byte) : Memory :=
  if b = unlistedByte then m.erase a else (m.erase a).insert a b

/-- Every address of m is above k. -/
def Memory.above (k : Nat) : Memory → Bool
  | [] => true
  | (a, _) :: _ => decide (k < a)

/-- The canonical form: addresses strictly rising and below 2^32, no entry equal to what an unlisted address reads as. -/
def Memory.wf : Memory → Bool
  | [] => true
  | (a, b) :: rest => decide (a < 2 ^ 32) && b != unlistedByte && Memory.above a rest && Memory.wf rest

/-- The 32-bit word at byte address a: byte lane i holds bits [8i+7:8i] (20_memory R91; log 7). -/
def Memory.readWord (m : Memory) (a : Word) : Word :=
  m.get (a + 3).toNat ++ m.get (a + 2).toNat ++ m.get (a + 1).toNat ++ m.get a.toNat

/-- Memory with the 32-bit word v at byte address a (20_memory R91, R93; log 7). -/
def Memory.writeWord (m : Memory) (a v : Word) : Memory :=
  (((m.set a.toNat (v.extractLsb' 0 8)).set (a + 1).toNat (v.extractLsb' 8 8)).set (a + 2).toNat
    (v.extractLsb' 16 8)).set (a + 3).toNat (v.extractLsb' 24 8)

/-- Byte address a is in the block's register file (10_state R31, 20_memory R80). -/
def inRegisterFile (pl : Platform) (a : Word) : Bool := a.extractLsb' 8 24 == pl.blockPage

/-- Byte address a is ordinary memory: in RAM_REGIONS (20_memory R107), and not in the register file, which is no ordinary
memory (R94; DEDUCED, safe: log 11). -/
def ramByte (pl : Platform) (a : Word) : Bool :=
  pl.ramRegions.any (fun r => decide (r.base ≤ a.toNat) && decide (a.toNat < r.base + r.size)) && !inRegisterFile pl a

/-- A 32-bit access at a is admitted: all its four bytes are ordinary memory (20_memory R107; log 11). -/
def ramWord (pl : Platform) (a : Word) : Bool :=
  ramByte pl a && ramByte pl (a + 1) && ramByte pl (a + 2) && ramByte pl (a + 3)

/-- FB_BASE as a 32-bit register: bits 1:0 read 0 (10_state R41). -/
def State.fbBase (s : State) : Word := s.regs.fbBaseHi ++ 0#2

/-- CMD_B as a 32-bit register: bits 31:24 read 0 (10_state R44). -/
def State.cmdBWord (s : State) : Word := 0#8 ++ s.regs.cmdB

/-- STATUS.BUSY: the engine's micro-op list is not empty (10_state R36). -/
def State.busy (s : State) : Bool := !s.eng.ops.isEmpty

/-- CH0 is ready: busy, words left, PQ not full (41_scanout_dma R191). -/
def State.ch0Ready (s : State) : Bool :=
  s.ch0.busy && decide (0 < s.ch0.count.toNat) && decide (s.pq.length < s.platform.fifoDepth)

/-- CH0 is stuck (60_exceptions R272): ready while its read address is not admitted, or so at an earlier time with no RESET
since. R272 and 93 I9 say that it can never step again until reset, while 42_sync_controller R216 lets START re-arm everything:
that STOP and START leave a stuck CH0 stuck is a DESIGN CHOICE between the two (log 26). -/
def State.ch0Stuck (s : State) : Bool := s.ch0StuckLatch || (s.ch0Ready && !ramWord s.platform s.ch0.raddr)

/-- `trigger_CH0(v)`: CH0 is re-armed at word-aligned v with the frame's word count (41_scanout_dma R194). A CH0 that is stuck
stays so (60_exceptions R272; log 26). -/
def State.triggerCh0 (s : State) (v : Word) : State :=
  { s with
    ch0 := { busy := true, raddr := v &&& 0xFFFFFFFC, count := BitVec.ofNat 32 fbWords }
    ch0StuckLatch := s.ch0Stuck }

/-- The engine takes a micro-op list and latches FB_BASE (43_framebuffer_commands R230; 20_memory R81). -/
def State.loadEngine (s : State) (ops : List MicroOp) : State :=
  { s with eng := { s.eng with ops := ops, phase2 := false }, engBase := s.fbBase }

/-- The RESET step: every piece of block state takes its reset value (70_reset R300, R301; 10_state R64); memory does not
change (R302). The platform and the model's own fields are not block state (log 20). -/
def State.resetBlock (s : State) : State :=
  { State.powerOn s.platform s.mem with
    turns := s.turns, freeTurns := s.freeTurns, program := s.program, hostRead := s.hostRead
    tickNo := s.tickNo, history := s.history }

end Sys2Proof.Machine
end

