-- ==== Sys2Proof/Machine/Dma.lean ====
section
/-! DEFINITION. The scanout DMA: the CH0 and CH1 steps (spec/41_scanout_dma.md R190 to R197). -/

namespace Sys2Proof.Machine

/-- The effect of one CH0 transfer (R191), with the chain trigger of R192 when it is the last of the frame. -/
def State.ch0Transfer (s : State) : State :=
  let last := s.ch0.count - 1 == 0
  { s with
    pq := s.pq ++ [s.mem.readWord s.ch0.raddr]
    ch0 := { busy := s.ch0.busy && !last, raddr := s.ch0.raddr + 4, count := s.ch0.count - 1 }
    ch1Busy := s.ch1Busy || last }

/-- CH0's turn: a transfer when it is ready and not stuck. Else it has no step (R191; 20_memory R107, 60_exceptions R272) and
its turn passes (log 2). Whether STOP and START free a stuck CH0 the spec leaves open between R272 (no step until reset) and
42_sync_controller R216 (START re-arms everything): DESIGN CHOICE, they do not; only RESET does (log 26). -/
def State.ch0Step (s : State) : State :=
  if s.ch0Ready && !s.ch0Stuck then s.ch0Transfer else s

/-- CH1's turn: when busy, it reads FB_BASE, goes idle and triggers CH0 (R193, R194). Else it has no step and its turn
passes (log 2). -/
def State.ch1Step (s : State) : State :=
  if s.ch1Busy then { s with ch1Busy := false }.triggerCh0 s.fbBase else s

end Sys2Proof.Machine
end

