-- ==== Sys2Proof/WellFormed.lean ====
section
/-! DEFINITION. Which commands an encoding can hold: coordinates in −2048..2047 (spec/30_encoding.md R130, R131). A colour
outside 0..7 cannot be written at all: `Color` has three bits (R123). -/

namespace Sys2Proof

/-- The range of a 12-bit two's complement coordinate (30_encoding R123, R130). -/
def coordFits (v : Int) : Bool := decide (-2048 ≤ v) && decide (v ≤ 2047)

/-- Every coordinate of the command fits its field (30_encoding R130). -/
def Instr.wellFormed : Instr → Bool
  | .nop => true
  | .pixel x y _ => coordFits x && coordFits y
  | .fill _ => true
  | .hline x1 x2 y _ => coordFits x1 && coordFits x2 && coordFits y
  | .vline x y1 y2 _ => coordFits x && coordFits y1 && coordFits y2
  | .start => true
  | .stop => true

end Sys2Proof
end

