-- ==== Sys2Proof/Decode.lean ====
section
/-! DEFINITION. Decoding and encoding of the command words CMD_A and CMD_B (spec/30_encoding.md R120 to R130). -/

namespace Sys2Proof

/-- Why a pair of words is no command: the opcode is reserved (30_encoding R125). The machine answers it with CMD_OP_ERR. -/
inductive Reject where
  | reservedOpcode (op : BitVec 4)
  deriving DecidableEq, Repr

/-- OP = CMD_A[31:28] (30_encoding R121). -/
def fieldOp (a : Word) : BitVec 4 := a.extractLsb' 28 4
/-- COLOR = CMD_A[27:25] (30_encoding R121). -/
def fieldColor (a : Word) : Color := a.extractLsb' 25 3
/-- XA = CMD_A[11:0] or XB = CMD_B[11:0], sign-extended (30_encoding R121 to R123). -/
def fieldX (w : Word) : Int := (w.extractLsb' 0 12).toInt
/-- YA = CMD_A[23:12] or YB = CMD_B[23:12], sign-extended (30_encoding R121 to R123). -/
def fieldY (w : Word) : Int := (w.extractLsb' 12 12).toInt

/-- The command of the words a = CMD_A, b = CMD_B: OP alone selects it (30_encoding R123, R124); bit 24 of a, bits 31:24 of
b and unused fields are ignored (R126, R127); ops 7 to F are reserved (R125). -/
def decode (a b : Word) : Except Reject Instr :=
  match (fieldOp a).toNat with
  | 0 => .ok .nop
  | 1 => .ok (.pixel (fieldX a) (fieldY a) (fieldColor a))
  | 2 => .ok (.fill (fieldColor a))
  | 3 => .ok (.hline (fieldX a) (fieldX b) (fieldY a) (fieldColor a))
  | 4 => .ok (.vline (fieldX a) (fieldY a) (fieldY b) (fieldColor a))
  | 5 => .ok .start
  | 6 => .ok .stop
  | _ => .error (.reservedOpcode (fieldOp a))

/-- `encA(op, c, ya, xa)` with RSVA = 0 (30_encoding R130). -/
def packA (op : BitVec 4) (c : Color) (ya xa : Int) : Word :=
  op ++ c ++ 0#1 ++ BitVec.ofInt 12 ya ++ BitVec.ofInt 12 xa

/-- `encB(yb, xb)` with RSVB = 0 (30_encoding R130). -/
def packB (yb xb : Int) : Word := 0#8 ++ BitVec.ofInt 12 yb ++ BitVec.ofInt 12 xb

/-- The CMD_A word of a command; unused fields are 0 (30_encoding R131). -/
def Instr.encodeA : Instr → Word
  | .nop => packA 0 0 0 0
  | .pixel x y c => packA 1 c y x
  | .fill c => packA 2 c 0 0
  | .hline x1 _ y c => packA 3 c y x1
  | .vline x y1 _ c => packA 4 c y1 x
  | .start => packA 5 0 0 0
  | .stop => packA 6 0 0 0

/-- The CMD_B word of a command; unused fields are 0 (30_encoding R131). -/
def Instr.encodeB : Instr → Word
  | .nop => 0
  | .pixel _ _ _ => 0
  | .fill _ => 0
  | .hline _ x2 _ _ => packB 0 x2
  | .vline _ _ y2 _ => packB y2 0
  | .start => 0
  | .stop => 0

/-- The words of a command, CMD_A first. -/
def encode (i : Instr) : Word × Word := (i.encodeA, i.encodeB)

/-- The CMD_A word in the table's numbering: bits 31:0 (log 15). -/
def tableWordA (nbits w : Nat) : Word := BitVec.ofNat 32 (w % 2 ^ nbits)
/-- The CMD_B word in the table's numbering: bits 63:32, all 0 where the table gives the row 32 bits (log 15). -/
def tableWordB (nbits w : Nat) : Word := BitVec.ofNat 32 (w % 2 ^ nbits / 2 ^ 32)

/-- The command the decoder reads from the low `nbits` bits of w. -/
def decodeTableWord (nbits w : Nat) : Option Instr :=
  match decode (tableWordA nbits w) (tableWordB nbits w) with
  | .ok i => some i
  | .error _ => none

end Sys2Proof
end

