-- ==== Sys2Proof/Machine/Flags.lean ====
section
/-! DEFINITION. The STATUS register (spec/10_state.md R34 to R40) and the one shared operation that stands where other
machines take an exception: raising a sticky flag (spec/60_exceptions.md R270, R271, R275). -/

namespace Sys2Proof.Machine

/-- The error causes of 60_exceptions R271. -/
inductive ErrCause where
  | cmdBusy
  | cmdOp
  | coord
  | seq
  deriving DecidableEq, Repr

/-- The code of a cause is its STATUS bit number (60_exceptions R271). -/
def ErrCause.code : ErrCause → Nat
  | .cmdBusy => 2
  | .cmdOp => 3
  | .coord => 4
  | .seq => 5

/-- The flags with the one of the cause set; flags accumulate (60_exceptions R275). -/
def ErrFlags.setCause (f : ErrFlags) : ErrCause → ErrFlags
  | .cmdBusy => { f with cmdBusyErr := true }
  | .cmdOp => { f with cmdOpErr := true }
  | .coord => { f with coordErr := true }
  | .seq => { f with seqErr := true }

/-- `flag F`: the sticky flag is set and nothing else changes (60_exceptions R271). There is no trap entry: the block has
no vector, no saved state and no return (R270). -/
def State.raise (s : State) (c : ErrCause) : State := { s with flags := s.flags.setCause c }

/-- A host write of v to STATUS clears the flags of bits 5:2 written as 1; every other bit is ignored (10_state R33, R37). -/
def ErrFlags.clearBits (f : ErrFlags) (v : Word) : ErrFlags :=
  { cmdBusyErr := f.cmdBusyErr && !v.getLsbD 2
    cmdOpErr := f.cmdOpErr && !v.getLsbD 3
    coordErr := f.coordErr && !v.getLsbD 4
    seqErr := f.seqErr && !v.getLsbD 5 }

/-- The STATUS word the host reads (10_state R40). -/
def State.statusWord (s : State) : Word :=
  0#26 ++ BitVec.ofBool s.flags.seqErr ++ BitVec.ofBool s.flags.coordErr ++ BitVec.ofBool s.flags.cmdOpErr ++
    BitVec.ofBool s.flags.cmdBusyErr ++ BitVec.ofBool s.busy ++ BitVec.ofBool s.run

end Sys2Proof.Machine
end

