-- ==== Sys2Proof/Machine/Operands.lean ====
section
/-! DEFINITION. Operand forms of the draw commands: pixel address mapping, fill words, masks, and the micro-op list each
command builds (spec/20_memory.md R81 to R90, spec/43_framebuffer_commands.md R231 to R239). -/

namespace Sys2Proof.Machine

/-- `clamp(v, lo, hi)` on integers (00_scope R12). -/
def clampInt (v lo hi : Int) : Int := max lo (min hi v)

/-- Byte address of framebuffer word k at base, modulo 2^32 (20_memory R81). -/
def fbaddr (base : Word) (k : Nat) : Word := base + BitVec.ofNat 32 (4 * k)

/-- Linear bit offset n of pixel (x, y) (20_memory R85). -/
def linearOffset (x y : Nat) : Nat := y * hRes * bpp + x * bpp

/-- Word index k of pixel (x, y), with the adjustment of 20_memory R86. -/
def wordIndex (x y : Nat) : Nat :=
  if linearOffset x y / ubits = 0 then fbWords - 1 else linearOffset x y / ubits - 1

/-- Bit offset p of pixel (x, y) (20_memory R85). -/
def bitOffset (x y : Nat) : Nat := linearOffset x y % ubits

/-- The fill word of colour c: c in all ten slots (20_memory R89). -/
def fillword (c : Color) : Word :=
  (List.range ppw).foldl (fun w j => w + (c.setWidth 32 <<< (3 * j))) 0

/-- The pixel stored for (x, y): the read-back of 20_memory R90. -/
def pixelAt (m : Memory) (base : Word) (x y : Nat) : Color :=
  (m.readWord (fbaddr base (wordIndex x y))).extractLsb' (bitOffset x y) 3

/-- 0 ≤ x < 640 (60_exceptions R271). -/
def xInRange (x : Int) : Bool := decide (0 ≤ x) && decide (x < hRes)
/-- 0 ≤ y < 480 (60_exceptions R271). -/
def yInRange (y : Int) : Bool := decide (0 ≤ y) && decide (y < vRes)

/-- The RMW of one pixel: mask 7 << p, bits c << p, in word k (43_framebuffer_commands R234). -/
def slotRmw (base : Word) (k p : Nat) (c : Color) : MicroOp :=
  .rmw (fbaddr base k) (7#32 <<< p) (c.setWidth 32 <<< p)

/-- PIXEL's micro-ops; none when a coordinate is out of range (43_framebuffer_commands R234). -/
def buildPixel (x y : Int) (c : Color) (base : Word) : Option (List MicroOp) :=
  if xInRange x && yInRange y then
    some [slotRmw base (wordIndex x.toNat y.toNat) (bitOffset x.toNat y.toNat) c]
  else none

/-- `n` full-word writes of value f to words k, k + 1, … (43_framebuffer_commands R235). -/
def fillFrom (base f : Word) : Nat → Nat → List MicroOp
  | 0, _ => []
  | n + 1, k => .wr (fbaddr base k) f :: fillFrom base f n (k + 1)

/-- FILL's micro-ops: every framebuffer word in ascending order (43_framebuffer_commands R235). -/
def buildFill (c : Color) (base : Word) : Option (List MicroOp) :=
  some (fillFrom base (fillword c) fbWords 0)

/-- HLINE within one word: one RMW per pixel, ascending x (43_framebuffer_commands R237). -/
def hlineSlots (base : Word) (k x1 x2 : Nat) (c : Color) : List MicroOp :=
  (List.range (x2 + 1 - x1)).map (fun d => slotRmw base k (3 * ((x1 + d) % ppw)) c)

/-- The mask of slots p/3 to 9 (43_framebuffer_commands R238, m1). -/
def maskFrom (p : Nat) : Word := 0x3FFFFFFF#32 &&& ~~~((1#32 <<< p) - 1#32)

/-- The mask of slots 0 to p/3 (43_framebuffer_commands R238, m2). -/
def maskUpTo (p : Nat) : Word := (1#32 <<< (p + 3)) - 1#32

/-- The word after i, toroidally (43_framebuffer_commands R238). -/
def nextWord (i : Nat) : Nat := if i + 1 = fbWords then 0 else i + 1

/-- HLINE's interior: full-word writes from word i up to but not including k2, toroidally; the loop of
43_framebuffer_commands R238 takes at most FB_WORDS rounds, which is the first argument. -/
def hlineInterior (base f : Word) (k2 : Nat) : Nat → Nat → List MicroOp
  | 0, _ => []
  | fuel + 1, i => if i = k2 then [] else .wr (fbaddr base i) f :: hlineInterior base f k2 fuel (nextWord i)

/-- HLINE across words: first partial word, interior, last partial word (43_framebuffer_commands R238). -/
def hlineSpan (base : Word) (k1 p1 k2 p2 : Nat) (c : Color) : List MicroOp :=
  .rmw (fbaddr base k1) (maskFrom p1) (fillword c) ::
    (hlineInterior base (fillword c) k2 fbWords (nextWord k1) ++ [.rmw (fbaddr base k2) (maskUpTo p2) (fillword c)])

/-- HLINE's micro-ops: the endpoints clamped and ordered (43_framebuffer_commands R236), then R237 or R238. -/
def buildHline (x1 x2 y : Int) (c : Color) (base : Word) : Option (List MicroOp) :=
  let a := (clampInt x1 0 (hRes - 1)).toNat
  let b := (clampInt x2 0 (hRes - 1)).toNat
  let r := (clampInt y 0 (vRes - 1)).toNat
  let lo := min a b
  let hi := max a b
  if wordIndex lo r = wordIndex hi r then some (hlineSlots base (wordIndex lo r) lo hi c)
  else some (hlineSpan base (wordIndex lo r) (bitOffset lo r) (wordIndex hi r) (bitOffset hi r) c)

/-- VLINE's micro-ops: the endpoints ordered, the range checked, one RMW per row, top to bottom, the word index stepping by
STRIDE modulo FB_WORDS (43_framebuffer_commands R239). -/
def buildVline (x y1 y2 : Int) (c : Color) (base : Word) : Option (List MicroOp) :=
  let lo := min y1 y2
  let hi := max y1 y2
  if xInRange x && yInRange lo && yInRange hi then
    some ((List.range (hi.toNat + 1 - lo.toNat)).map fun i =>
      slotRmw base ((wordIndex x.toNat lo.toNat + stride * i) % fbWords) (bitOffset x.toNat lo.toNat) c)
  else none

end Sys2Proof.Machine
end

