-- ==== Sys2Proof/Machine/Draw.lean ====
section
/-! DEFINITION. The framebuffer commands NOP, PIXEL, FILL, HLINE, VLINE (spec/43_framebuffer_commands.md R230 to R239). -/

namespace Sys2Proof.Machine

/-- Acceptance of a draw command (43_framebuffer_commands R230): dropped with CMD_BUSY_ERR while the engine is busy; else,
with FB_BASE latched as the base, rejected with COORD_ERR or loaded into the engine (60_exceptions R273, checks 3 and 4). -/
def State.acceptDraw (s : State) (build : Word → Option (List MicroOp)) : State :=
  if s.busy then s.raise .cmdBusy
  else match build s.fbBase with
    | none => s.raise .coord
    | some ops => s.loadEngine ops

/-- NOP (R128, R233). -/
def execNop (s : State) : Host.Outcome State Fault Refusal := .next s

/-- PIXEL x, y, c (R234). -/
def execPixel (x y : Int) (c : Color) (s : State) : Host.Outcome State Fault Refusal :=
  .next (s.acceptDraw (buildPixel x y c))

/-- FILL c (R235). -/
def execFill (c : Color) (s : State) : Host.Outcome State Fault Refusal :=
  .next (s.acceptDraw (buildFill c))

/-- HLINE x1, x2, y, c (R236 to R238). -/
def execHline (x1 x2 y : Int) (c : Color) (s : State) : Host.Outcome State Fault Refusal :=
  .next (s.acceptDraw (buildHline x1 x2 y c))

/-- VLINE x, y1, y2, c (R239). -/
def execVline (x y1 y2 : Int) (c : Color) (s : State) : Host.Outcome State Fault Refusal :=
  .next (s.acceptDraw (buildVline x y1 y2 c))

end Sys2Proof.Machine
end

