-- ==== Sys2Proof/Machine/Sync.lean ====
section
/-! DEFINITION. The sync commands START and STOP (spec/42_sync_controller.md R210 to R213). -/

namespace Sys2Proof.Machine

/-- An accepted START (42_sync_controller R210): the parameters are pushed, the sequencers enter PARAM, CH0 is triggered at
FB_BASE, RUN = 1. The ghost tick number restarts: the first tick after it is t = 0 (R216; log 14). -/
def State.arm (s : State) : State :=
  { s.triggerCh0 s.fbBase with
    hq := s.hq ++ [s.regs.hActiveM1]
    vq := s.vq ++ [s.regs.vActiveM1]
    pq := s.pq ++ [s.regs.hActiveM1]
    h := { s.h with phase := .param }
    v := { s.v with phase := .param }
    p := { s.p with phase := .param }
    run := true
    tickNo := 0 }

/-- An accepted STOP (42_sync_controller R212): CH0.raddr, the counters, the parameters and P.osr keep their values. A
CH0 that is stuck stays so, although it goes idle here (60_exceptions R272; log 26). -/
def State.disarm (s : State) : State :=
  { s with
    ch0 := { s.ch0 with busy := false, count := 0 }
    ch0StuckLatch := s.ch0Stuck
    ch1Busy := false
    h := { s.h with phase := .idle }
    v := { s.v with phase := .idle }
    p := { s.p with phase := .idle, avail := 0 }
    hq := []
    vq := []
    pq := []
    awf := false
    run := false }

/-- START (R210); SEQ_ERR while running (R211). -/
def execStart (s : State) : Host.Outcome State Fault Refusal :=
  .next (if s.run then s.raise .seq else s.arm)

/-- STOP (R212); SEQ_ERR while stopped (R213). -/
def execStop (s : State) : Host.Outcome State Fault Refusal :=
  .next (if s.run then s.disarm else s.raise .seq)

end Sys2Proof.Machine
end

