-- ==== Sys2Proof/Machine/Dispatch.lean ====
section
/-! DEFINITION. One arm per command (spec/30_encoding.md R124). -/

namespace Sys2Proof.Machine

def exec (i : Instr) (s : State) : Host.Outcome State Fault Refusal :=
  match i with
  | .nop => Sys2Proof.Machine.execNop s
  | .pixel x y c => Sys2Proof.Machine.execPixel x y c s
  | .fill c => Sys2Proof.Machine.execFill c s
  | .hline x1 x2 y c => Sys2Proof.Machine.execHline x1 x2 y c s
  | .vline x y1 y2 c => Sys2Proof.Machine.execVline x y1 y2 c s
  | .start => Sys2Proof.Machine.execStart s
  | .stop => Sys2Proof.Machine.execStop s

end Sys2Proof.Machine
end

