-- ==== Sys2Proof/Machine/EngineStep.lean ====
section
/-! DEFINITION. The ENG step (spec/43_framebuffer_commands.md R231, R232). -/

namespace Sys2Proof.Machine

/-- The address a micro-op accesses (R231). -/
def MicroOp.addr : MicroOp → Word
  | .rmw a _ _ => a
  | .wr a _ => a

/-- The address of the engine's next access; none when it is idle. -/
def State.engAddr (s : State) : Option Word := s.eng.ops.head?.map MicroOp.addr

/-- The word an RMW writes back: old bits outside the mask, new bits inside (R231). -/
def rmwValue (old mask bits : Word) : Word := (old &&& ~~~mask) ||| (bits &&& mask)

/-- The effect of one admitted ENG access: the head micro-op's write, or its read, or its write-back (R232). -/
def State.engAccess (s : State) : State :=
  match s.eng.ops with
  | [] => s
  | .wr a v :: rest => { s with mem := s.mem.writeWord a v, eng := { s.eng with ops := rest } }
  | .rmw a m b :: rest =>
    if s.eng.phase2 then
      { s with mem := s.mem.writeWord a (rmwValue s.eng.tmp m b), eng := { s.eng with ops := rest, phase2 := false } }
    else { s with eng := { s.eng with phase2 := true, tmp := s.mem.readWord a } }

/-- The engine's next access, if it has one, is admitted (20_memory R107). -/
def State.engAdmitted (s : State) : Bool :=
  match s.engAddr with
  | none => false
  | some a => ramWord s.platform a

/-- ENG's turn: one memory access when it has a micro-op whose address is admitted. Else it has no step (R232; 60_exceptions
R272) and its turn passes (log 2). -/
def State.engStep (s : State) : State := if s.engAdmitted then s.engAccess else s

end Sys2Proof.Machine
end

