-- ==== Sys2Proof/Machine/HostAccess.lean ====
section
/-! DEFINITION. The HOST agent: register accesses (spec/10_state.md R31 to R48), issuing a command (R45, spec/30_encoding.md
R120, R125), system-memory accesses (spec/20_memory.md R91, R98, R101, R107) and POLL (spec/30_encoding.md R132). -/

namespace Sys2Proof.Machine

/-- The code of H's and V's phase in SCAN_STATE (10_state R48). -/
def Phase.code : Phase → BitVec 3
  | .idle => 0
  | .param => 1
  | .active => 2
  | .fp => 3
  | .sync => 4
  | .bp => 5

/-- The code of P's phase in SCAN_STATE (10_state R48). -/
def PixPhase.code : PixPhase → BitVec 2
  | .idle => 0
  | .param => 1
  | .wait => 2
  | .run => 3

/-- The SCAN_STATE word (10_state R48). -/
def State.scanState (s : State) : Word :=
  0#14 ++ BitVec.ofNat 4 s.p.avail ++ BitVec.ofNat 3 s.pq.length ++ BitVec.ofBool s.ch1Busy ++ BitVec.ofBool s.ch0.busy ++
    BitVec.ofBool s.awf ++ PixPhase.code s.p.phase ++ Phase.code s.v.phase ++ Phase.code s.h.phase

/-- The value of the register at an aligned offset (10_state R31, R33, R40 to R48). -/
def State.readReg (s : State) (off : Nat) : Word :=
  match off with
  | 0x00 => s.statusWord
  | 0x04 => s.fbBase
  | 0x08 => s.regs.hActiveM1
  | 0x0C => s.regs.vActiveM1
  | 0x10 => s.cmdBWord
  | 0x18 => s.ch0.raddr
  | 0x1C => s.ch0.count
  | 0x20 => s.scanState
  | _ => 0

/-- A write of a to CMD_A: the command of a and the current CMD_B runs; a reserved opcode sets CMD_OP_ERR and has no other
effect, whatever BUSY and RUN are (10_state R45; 30_encoding R120, R125; 43_framebuffer_commands R230). -/
def State.issue (s : State) (a : Word) : Host.Outcome State Fault Refusal :=
  match decode a s.cmdBWord with
  | .ok i => exec i s
  | .error _ => .next (s.raise .cmdOp)

/-- A 32-bit write of v to the register at an aligned offset: read-only and reserved registers and bits ignore it (10_state
R31, R33, R37, R41 to R45). -/
def State.writeReg (s : State) (off : Nat) (v : Word) : Host.Outcome State Fault Refusal :=
  match off with
  | 0x00 => .next { s with flags := s.flags.clearBits v }
  | 0x04 => .next { s with regs := { s.regs with fbBaseHi := v.extractLsb' 2 30 } }
  | 0x08 => .next { s with regs := { s.regs with hActiveM1 := v } }
  | 0x0C => .next { s with regs := { s.regs with vActiveM1 := v } }
  | 0x10 => .next { s with regs := { s.regs with cmdB := v.extractLsb' 0 24 } }
  | 0x14 => s.issue v
  | _ => .next s

/-- A register access the model admits: 32 bits wide at a 4-byte-aligned offset (10_state R32). -/
def regAccessOk (w : Width) (off : BitVec 8) : Bool := w == .word && off.extractLsb' 0 2 == 0#2

/-- The host sees value v (log 18). -/
def State.gotRead (s : State) (v : Word) : State := { s with hostRead := some v }

/-- A host read of a register (10_state R32: no side effect). -/
def State.hostReadReg (s : State) (w : Width) (off : BitVec 8) : Host.Outcome State Fault Refusal :=
  if regAccessOk w off then .next (s.gotRead (s.readReg off.toNat)) else .refused .hostRegisterAccess

/-- A host write of a register (10_state R32). -/
def State.hostWriteReg (s : State) (w : Width) (off : BitVec 8) (v : Word) : Host.Outcome State Fault Refusal :=
  if regAccessOk w off then s.writeReg off.toNat v else .refused .hostRegisterAccess

/-- Every byte of a host access at a is ordinary memory (20_memory R107; log 10). -/
def ramAccess (pl : Platform) (w : Width) (a : Word) : Bool :=
  match w with
  | .byte => ramByte pl a
  | .half => ramByte pl a && ramByte pl (a + 1)
  | .word => ramWord pl a

/-- The access is aligned to its width. -/
def widthAligned (w : Width) (a : Word) : Bool :=
  match w with
  | .byte => true
  | .half => a.extractLsb' 0 1 == 0#1
  | .word => a.extractLsb' 0 2 == 0#2

/-- The lowest byte lane a host access at address a reaches: with MEM_ENDIAN big, byte i of a word is lane 3 − i, and a
halfword likewise (20_memory R91; log 7). -/
def hostLane (e : Endian) (w : Width) (a : Word) : Word :=
  match e, w with
  | .big, .byte => a ^^^ 3
  | .big, .half => a ^^^ 2
  | _, _ => a

/-- What a host read of the given width at lane address a returns, zero-extended. -/
def Memory.readWidth (m : Memory) (w : Width) (a : Word) : Word :=
  match w with
  | .byte => (m.get a.toNat).setWidth 32
  | .half => (m.get (a + 1).toNat ++ m.get a.toNat).setWidth 32
  | .word => m.readWord a

/-- Memory after a host write of the low bits of v at lane address a. -/
def Memory.writeWidth (m : Memory) (w : Width) (a v : Word) : Memory :=
  match w with
  | .byte => m.set a.toNat (v.extractLsb' 0 8)
  | .half => (m.set a.toNat (v.extractLsb' 0 8)).set (a + 1).toNat (v.extractLsb' 8 8)
  | .word => m.writeWord a v

/-- Byte address a lies in the framebuffer at base (20_memory R81). -/
def inFramebuffer (base a : Word) : Bool := decide ((a - base).toNat < 4 * fbWords)

/-- The base of the frame CH0 is streaming (20_memory R81: the base it latched). -/
def State.frameBase (s : State) : Word := s.ch0.raddr - 4 * (BitVec.ofNat 32 fbWords - s.ch0.count)

/-- Byte address a lies in a framebuffer word: of FB_BASE, of the base CH0 latched for the frame it is streaming, of the base
ENG latched for the command it is at, or of a micro-op it holds (20_memory R81, R101; DEDUCED, safe: log 8). -/
def State.isFramebufferByte (s : State) (a : Word) : Bool :=
  inFramebuffer s.fbBase a || (s.ch0.busy && inFramebuffer s.frameBase a) || (s.busy && inFramebuffer s.engBase a) ||
    s.eng.ops.any (fun o => decide ((a - MicroOp.addr o).toNat < 4))

/-- A host access narrower than a word touches a framebuffer word (20_memory R101). -/
def State.subWordOnFramebuffer (s : State) (w : Width) (a : Word) : Bool :=
  match w with
  | .byte => s.isFramebufferByte a
  | .half => s.isFramebufferByte a || s.isFramebufferByte (a + 1)
  | .word => false

/-- A host read of system memory (20_memory R91, R98). -/
def State.hostReadMem (s : State) (w : Width) (a : Word) : Host.Outcome State Fault Refusal :=
  if !ramAccess s.platform w a then .fault (.hostUnmapped a)
  else if !widthAligned w a then .refused .hostMisaligned
  else .next (s.gotRead (s.mem.readWidth w (hostLane s.platform.memEndian w a)))

/-- A host write of system memory; a byte or halfword write to a framebuffer word has no step, aligned or not (20_memory R98,
R101). -/
def State.hostWriteMem (s : State) (w : Width) (a v : Word) : Host.Outcome State Fault Refusal :=
  if s.subWordOnFramebuffer w a then .refused .hostSubWordWrite
  else if !ramAccess s.platform w a then .fault (.hostUnmapped a)
  else if !widthAligned w a then .refused .hostMisaligned
  else .next { s with mem := s.mem.writeWidth w (hostLane s.platform.memEndian w a) v }

/-- A host read (30_encoding R132, `R`). A bus address in the register file is that register's offset (10_state R31;
BLOCK_BASE is 256-byte aligned, 00_scope R10). -/
def State.hostRd (s : State) (w : Width) (t : Target) : Host.Outcome State Fault Refusal :=
  match t with
  | .reg off => s.hostReadReg w off
  | .mem a =>
    if inRegisterFile s.platform a then s.hostReadReg w (a.extractLsb' 0 8) else s.hostReadMem w a

/-- A host write (30_encoding R132, `W`), with bus addresses resolved as for a read. -/
def State.hostWr (s : State) (w : Width) (t : Target) (v : Word) : Host.Outcome State Fault Refusal :=
  match t with
  | .reg off => s.hostWriteReg w off v
  | .mem a =>
    if inRegisterFile s.platform a then s.hostWriteReg w (a.extractLsb' 0 8) v else s.hostWriteMem w a v

/-- One round of `POLL <reg>, m, v`: a register read, and the POLL stays first in the program until (value & m) = v
(30_encoding R132; log 18). `s.program` is what follows the POLL. -/
def State.hostPoll (s : State) (off : BitVec 8) (m v : Word) : Host.Outcome State Fault Refusal :=
  if regAccessOk .word off then
    if s.readReg off.toNat &&& m = v then .next (s.gotRead (s.readReg off.toNat))
    else .next { s.gotRead (s.readReg off.toNat) with program := .poll off m v :: s.program }
  else .refused .hostRegisterAccess

/-- HOST's turn: the next step of its program, in program order (60_exceptions R274). A host with nothing to do passes its
turn (log 2). -/
def State.hostTurn (s : State) : Host.Outcome State Fault Refusal :=
  match s.program with
  | [] => .next s
  | .read w t :: rest => { s with program := rest }.hostRd w t
  | .write w t v :: rest => { s with program := rest }.hostWr w t v
  | .poll off m v :: rest => { s with program := rest }.hostPoll off m v

end Sys2Proof.Machine
end

