-- ==== Sys2Proof/Machine/Tick.lean ====
section
/-! DEFINITION. The TICK step: the H, V and P sequencers and the output pins (spec/40_timing_programs.md R150 to R167). -/

namespace Sys2Proof.Machine

/-- The phase order ACTIVE, FP, SYNC, BP, ACTIVE (R151). IDLE and PARAM have no successor of this kind. -/
def nextPhase : Phase → Phase
  | .idle => .idle
  | .param => .param
  | .active => .fp
  | .fp => .sync
  | .sync => .bp
  | .bp => .active

/-- The count H loads on entering a phase: its length minus one (R151, R154). -/
def hLoad (pl : Platform) (par : Word) : Phase → Word
  | .active => par
  | .fp => pl.hFpM1.setWidth 32
  | .sync => pl.hSyncM1.setWidth 32
  | .bp => pl.hBpM1.setWidth 32
  | .idle => 0
  | .param => 0

/-- The count V loads on entering a phase: its length in lines minus one (R151, R158; 00_scope R9). -/
def vLoad (pl : Platform) (par : Word) : Phase → Word
  | .active => par
  | .fp => BitVec.ofNat 32 vFpM1
  | .sync => pl.vSyncM1.setWidth 32
  | .bp => BitVec.ofNat 32 vBpM1
  | .idle => 0
  | .param => 0

/-- One count of a sequencer in a counting phase: down by one, or on to the next phase (R154, R158). -/
def countStep (load : Word → Phase → Word) (q : Seq) : Seq :=
  if q.cnt = 0 then { q with phase := nextPhase q.phase, cnt := load q.par (nextPhase q.phase) }
  else { q with cnt := q.cnt - 1 }

/-- One tick of H with its queue (R152, R153, R154). The pulled parameter is also the count (log 12). -/
def hStep (pl : Platform) (h : Seq) (hq : List Word) : Seq × List Word :=
  match h.phase with
  | .idle => (h, hq)
  | .param =>
    match hq with
    | [] => (h, [])
    | w :: rest => ({ phase := .active, cnt := w, par := w }, rest)
  | .active => (countStep (hLoad pl) h, hq)
  | .fp => (countStep (hLoad pl) h, hq)
  | .sync => (countStep (hLoad pl) h, hq)
  | .bp => (countStep (hLoad pl) h, hq)

/-- LB, the line-boundary signal of this tick (R156). -/
def lineBoundary (h : Seq) : Bool := h.phase == .bp && h.cnt == 0

/-- V in a counting phase: it moves only in a tick with LB = 1 (R158), and sets AWF when that starts an active line (R159).
The third component is setV. -/
def vCount (pl : Platform) (lb : Bool) (v : Seq) (vq : List Word) : Seq × List Word × Bool :=
  if lb then (countStep (vLoad pl) v, vq, (countStep (vLoad pl) v).phase == .active) else (v, vq, false)

/-- One tick of V with its queue, and setV (R157 to R159). -/
def vStep (pl : Platform) (lb : Bool) (v : Seq) (vq : List Word) : Seq × List Word × Bool :=
  match v.phase with
  | .idle => (v, vq, false)
  | .param =>
    match vq with
    | [] => (v, [], false)
    | w :: rest => ({ phase := .bp, cnt := 0, par := w }, rest, false)
  | .active => vCount pl lb v vq
  | .fp => vCount pl lb v vq
  | .sync => vCount pl lb v vq
  | .bp => vCount pl lb v vq

/-- What one tick of P gives: its next state, PQ, clearP, RGB, and whether it stalled (UNDERFLOW). -/
structure PixOut where
  p : PixSeq
  pq : List Word
  clearP : Bool
  rgb : BitVec 3
  underflow : Bool
  deriving DecidableEq, Repr

/-- The shift of a word that has pixels left: one pixel out, the word shifted right by 3, the line's count down or its end
(R163). -/
def shiftPixel (p : PixSeq) : PixSeq :=
  { p with
    osr := p.osr >>> 3
    avail := p.avail - 1
    phase := if p.cnt = 0 then .wait else p.phase
    cnt := if p.cnt = 0 then p.cnt else p.cnt - 1 }

/-- P's shift with its word pull (R163, R164) and its stall on an empty PQ (R165). -/
def pixShift (p : PixSeq) (pq : List Word) (clearP : Bool) : PixOut :=
  if p.avail = 0 then
    match pq with
    | [] => { p := p, pq := [], clearP := clearP, rgb := 0, underflow := true }
    | w :: rest =>
      { p := shiftPixel { p with osr := w, avail := 10 }, pq := rest, clearP := clearP, rgb := w.extractLsb' 0 3,
        underflow := false }
  else
    { p := shiftPixel p, pq := pq, clearP := clearP, rgb := p.osr.extractLsb' 0 3, underflow := false }

/-- One tick of P with PQ (R161 to R167). On AWF in WAIT the line starts and its first shift is in the same tick (R162). -/
def pixStep (p : PixSeq) (awf : Bool) (pq : List Word) : PixOut :=
  match p.phase with
  | .idle => { p := p, pq := pq, clearP := false, rgb := 0, underflow := false }
  | .param =>
    match pq with
    | [] => { p := p, pq := [], clearP := false, rgb := 0, underflow := false }
    | w :: rest =>
      { p := { p with phase := .wait, par := w, avail := 0 }, pq := rest, clearP := false, rgb := 0, underflow := false }
  | .wait =>
    if awf then pixShift { p with phase := .run, cnt := p.par } pq true
    else { p := p, pq := pq, clearP := false, rgb := 0, underflow := false }
  | .run => pixShift p pq false

/-- The level of a sync pin: its active level in the SYNC phase, the other level else (R155, R160). -/
def syncLevel (activeLevel : Bool) (q : Seq) : Bool := if q.phase = .sync then activeLevel else !activeLevel

/-- The TICK step (R150): outputs and LB from the state at its start, then P, V and H, all written at the end (00_scope R14).
A stall puts UNDERFLOW(tick) into the ghost history (R165; log 14). -/
def State.tick (s : State) : State :=
  let px := pixStep s.p s.awf s.pq
  let vs := vStep s.platform (lineBoundary s.h) s.v s.vq
  let hs := hStep s.platform s.h s.hq
  { s with
    h := hs.1
    hq := hs.2
    v := vs.1
    vq := vs.2.1
    p := px.p
    pq := px.pq
    awf := vs.2.2 || (s.awf && !px.clearP)
    pins := { hsync := syncLevel s.platform.hsyncActive s.h, vsync := syncLevel s.platform.vsyncActive s.v, rgb := px.rgb }
    tickNo := s.tickNo + 1
    history := if px.underflow then s.history ++ [.underflow s.tickNo] else s.history }

/-- The level of physical pin n, where PIN_MAP gives it to the block (10_state R60; 40_timing_programs R167). -/
def State.pinLevel (s : State) (n : Nat) : Option Bool :=
  if n = s.platform.pinMap.hsync then some s.pins.hsync
  else if n = s.platform.pinMap.vsync then some s.pins.vsync
  else if n = s.platform.pinMap.red then some (s.pins.rgb.getLsbD 0)
  else if n = s.platform.pinMap.green then some (s.pins.rgb.getLsbD 1)
  else if n = s.platform.pinMap.blue then some (s.pins.rgb.getLsbD 2)
  else none

end Sys2Proof.Machine
end

