-- ==== Sys2Proof/Machine/Turns.lean ====
section
/-! DEFINITION. Whose step is next, and that step (spec/00_scope.md R6, R14; spec/20_memory.md R98). -/

namespace Sys2Proof.Machine

/-- One atomic step of the agent whose turn it is. Only a host access can fault or be refused. -/
def State.takeTurn (s : State) (t : Turn) : Host.Outcome State Fault Refusal :=
  match t with
  | .host => s.hostTurn
  | .tick => .next s.tick
  | .ch0 => .next s.ch0Step
  | .ch1 => .next s.ch1Step
  | .eng => .next s.engStep
  | .reset => .next s.resetBlock

/-- Any agent may step next (00_scope R6): `turns` says which; when it is empty the free value `Config.freeTurn` does
(log 1). -/
def State.nextTurn (s : State) : Host.Outcome State Fault Refusal :=
  match s.turns with
  | [] => { s with freeTurns := s.freeTurns + 1 }.takeTurn (Config.freeTurn s.freeTurns)
  | t :: rest => { s with turns := rest }.takeTurn t

/-- The host's next step is a write of w's low word to CMD_A and it is the host's turn; CMD_B holds w's second word (log 5). -/
def State.withCommandNext (s : State) (nbits w : Nat) : State :=
  { s with
    regs := { s.regs with cmdB := (tableWordB nbits w).extractLsb' 0 24 }
    program := .write .word (.reg 0x14) (tableWordA nbits w) :: s.program
    turns := .host :: s.turns }

end Sys2Proof.Machine
end

