-- ==== Sys2Proof/Machine/Step.lean ====
section
/-! DEFINITION. The one step of the machine (spec/00_scope.md R6, R14). -/

namespace Sys2Proof.Machine

/-- One step: the next turn. -/
def step (s : State) : Host.Outcome State Fault Refusal := s.nextTurn

/-- s with the command of the opcode table's numbering as what the very next step issues (log 5). -/
def State.withFetchWord (s : State) (nbits w : Nat) : State := s.withCommandNext nbits w

end Sys2Proof.Machine
end

