-- ==== Sys2Proof/Machine/Assembler.lean ====
section
/-! DEFINITION. Assembler syntax and pseudo-instructions as host programs (spec/30_encoding.md R131, R132). -/

namespace Sys2Proof.Machine

/-- A line of an assembler program (30_encoding R131). -/
inductive AsmLine where
  | command (i : Instr)
  | waitIdle
  | clear
  | fillRect (x1 y1 x2 y2 : Int) (c : Color)
  | drawRect (x1 y1 x2 y2 : Int) (c : Color)
  | clearRegion (x1 y1 x2 y2 : Int)
  | setGeom (h v : Int)
  deriving DecidableEq, Repr

/-- `W <reg>, v` (30_encoding R132). -/
def regWrite (off : BitVec 8) (v : Word) : HostStep := .write .word (.reg off) v

/-- The bus writes of a command: CMD_B first where the command uses it (30_encoding R131). -/
def commandSteps : Instr → List HostStep
  | .nop => [regWrite 0x14 Instr.nop.encodeA]
  | .pixel x y c => [regWrite 0x14 (Instr.pixel x y c).encodeA]
  | .fill c => [regWrite 0x14 (Instr.fill c).encodeA]
  | .hline x1 x2 y c => [regWrite 0x10 (Instr.hline x1 x2 y c).encodeB, regWrite 0x14 (Instr.hline x1 x2 y c).encodeA]
  | .vline x y1 y2 c => [regWrite 0x10 (Instr.vline x y1 y2 c).encodeB, regWrite 0x14 (Instr.vline x y1 y2 c).encodeA]
  | .start => [regWrite 0x14 Instr.start.encodeA]
  | .stop => [regWrite 0x14 Instr.stop.encodeA]

/-- WAITIDLE: `POLL STATUS, 0x2, 0x0` (30_encoding R131). -/
def waitIdleStep : HostStep := .poll 0x00 2 0

/-- `WAITIDLE` and then the command (30_encoding R131). -/
def drawWhenIdle (i : Instr) : List HostStep := waitIdleStep :: commandSteps i

/-- FILLRECT's rows from min(y1, y2) to max(y1, y2), ascending (30_encoding R131). -/
def fillRectSteps (x1 y1 x2 y2 : Int) (c : Color) : List HostStep :=
  (List.range (max y1 y2 + 1 - min y1 y2).toNat).flatMap
    (fun d => drawWhenIdle (.hline x1 x2 (min y1 y2 + d) c))

/-- The host steps of a line; none where the assembler must refuse a coordinate outside −2048..2047 (30_encoding R131).
SETGEOM's h − 1 is taken modulo 2^32 (DESIGN CHOICE, safe: log 21). -/
def AsmLine.expand : AsmLine → Option (List HostStep)
  | .command i => if i.wellFormed then some (commandSteps i) else none
  | .waitIdle => some [waitIdleStep]
  | .clear => some (drawWhenIdle (.fill 0))
  | .fillRect x1 y1 x2 y2 c =>
    if coordFits x1 && coordFits y1 && coordFits x2 && coordFits y2 then some (fillRectSteps x1 y1 x2 y2 c) else none
  | .drawRect x1 y1 x2 y2 c =>
    if coordFits x1 && coordFits y1 && coordFits x2 && coordFits y2 then
      some (drawWhenIdle (.hline x1 x2 y1 c) ++ drawWhenIdle (.hline x1 x2 y2 c) ++ drawWhenIdle (.vline x1 y1 y2 c) ++
        drawWhenIdle (.vline x2 y1 y2 c))
    else none
  | .clearRegion x1 y1 x2 y2 =>
    if coordFits x1 && coordFits y1 && coordFits x2 && coordFits y2 then some (fillRectSteps x1 y1 x2 y2 0) else none
  | .setGeom h v => some [regWrite 0x08 (BitVec.ofInt 32 (h - 1)), regWrite 0x0C (BitVec.ofInt 32 (v - 1))]

end Sys2Proof.Machine
end

