-- ==== Sys2Proof/Safety.lean ====
section
/-! DEFINITION. What claims about runs are stated in: the premises of a sound program (spec/20_memory.md R107,
spec/42_sync_controller.md R211, spec/70_reset_and_hazards.md R311), stuck agents (spec/60_exceptions.md R272), and the
invariants of the machine. -/

namespace Sys2Proof

/-- The bits of CMD_A and CMD_B a command uses (30_encoding R121, R122, R124). -/
def Instr.usedBits : Instr → Word × Word
  | .nop => (0xF0000000, 0)
  | .pixel _ _ _ => (0xFEFFFFFF, 0)
  | .fill _ => (0xFE000000, 0)
  | .hline _ _ _ _ => (0xFEFFFFFF, 0x00000FFF)
  | .vline _ _ _ _ => (0xFEFFFFFF, 0x00FFF000)
  | .start => (0xF0000000, 0)
  | .stop => (0xF0000000, 0)

end Sys2Proof

namespace Sys2Proof.Machine

/-- Every word of the framebuffer at base is admitted: the premise of START (20_memory R107). -/
def FramebufferInRam (pl : Platform) (base : Word) : Prop := ∀ k < fbWords, ramWord pl (fbaddr base k) = true

/-- ENG is stuck: it has a micro-op whose address is not admitted (60_exceptions R272). -/
def State.engStuck (s : State) : Bool := s.busy && !s.engAdmitted

/-- No error flag is set: the host program was correct so far (42_sync_controller R211; 93 I5). -/
def State.noErrors (s : State) : Bool :=
  !s.flags.cmdBusyErr && !s.flags.cmdOpErr && !s.flags.coordErr && !s.flags.seqErr

/-- No UNDERFLOW event is in the history: the premise of display claims (70_reset R311). -/
def State.noUnderflow (s : State) : Bool := s.history.isEmpty

/-- The agent whose turn is next (00_scope R6; log 1). -/
def State.nextAgent (s : State) : Turn :=
  match s.turns with
  | [] => Config.freeTurn s.freeTurns
  | u :: _ => u

/-- A block agent has a step of its own. TICK always has one (40_timing_programs R150); CH0 when it is ready and not stuck
(41_scanout_dma R191, 60_exceptions R272); CH1 when it is busy (R193); ENG when its next access is admitted
(43_framebuffer_commands R232). HOST and RESET are no block agents. -/
def State.enabled (s : State) : Turn → Bool
  | .tick => true
  | .ch0 => s.ch0Ready && !s.ch0Stuck
  | .ch1 => s.ch1Busy
  | .eng => s.engAdmitted
  | .host => false
  | .reset => false

/-- A turn of an agent of the block: no host access and no RESET. -/
def Turn.ofBlock : Turn → Bool
  | .host => false
  | .reset => false
  | .tick => true
  | .ch0 => true
  | .ch1 => true
  | .eng => true

/-- The host program has ended: the host's last step is taken and the engine is idle (70_reset R314). -/
structure State.Ended (s : State) : Prop where
  programDone : s.program = []
  engineIdle : s.eng.ops = []

/-- Agent u's step may take s to t, whatever order the model's own turns would take (00_scope R6: any enabled agent may step
next; log 1). -/
def CanStep (u : Turn) (s t : State) : Prop :=
  ∃ (ts : List Turn) (k : Nat), { s with turns := ts, freeTurns := k }.takeTurn u = .next t

/-- An infinite run on which agent `sched n` takes step n (00_scope R6). Every run of `step` is one, with `State.nextAgent` as its
schedule (`isRun_of_step`), and each step of such a run is a step of the machine at some turns (`step_of_canStep`). -/
def IsRun (sched : Nat → Turn) (r : Nat → State) : Prop := ∀ n, CanStep (sched n) (r n) (r (n + 1))

/-- The run is weakly fair to agent u: if u stays enabled from some time on, its turn comes (92 D32). -/
def FairTo (u : Turn) (sched : Nat → Turn) (r : Nat → State) : Prop :=
  ∀ n, (∀ m ≥ n, (r m).enabled u = true) → ∃ m ≥ n, sched m = u

/-- Weak fairness (92 D32: every block agent is weakly fair; 41_scanout_dma R190, 43_framebuffer_commands R232, 70_reset R314):
the run is weakly fair to TICK, CH0, CH1 and ENG. TICK is always enabled (40_timing_programs R150), so its turn comes again and
again. It is a premise on a run: the step itself admits every order (log 16). -/
def WeaklyFair (sched : Nat → Turn) (r : Nat → State) : Prop := ∀ u, Turn.ofBlock u = true → FairTo u sched r

/-- The step of a block agent; HOST and RESET are none. -/
def State.blockTurn (s : State) (t : Turn) : State :=
  match t with
  | .tick => s.tick
  | .ch0 => s.ch0Step
  | .ch1 => s.ch1Step
  | .eng => s.engStep
  | .host => s
  | .reset => s

/-- The addresses CH0 reads, in order, when the agents step as `ts` says (41_scanout_dma R195). -/
def State.streamReads : State → List Turn → List Word
  | _, [] => []
  | s, t :: ts =>
    (if t = .ch0 ∧ s.enabled .ch0 = true then [s.ch0.raddr] else []) ++
      (s.blockTurn t).streamReads ts

/-- What a whole micro-op does to memory when nothing falls between its halves (43_framebuffer_commands R231). -/
def MicroOp.apply (m : Memory) : MicroOp → Memory
  | .wr a v => m.writeWord a v
  | .rmw a k b => m.writeWord a (rmwValue (m.readWord a) k b)

/-- What a list of micro-ops does to memory, in list order (43_framebuffer_commands R231, R232). -/
def runOps (m : Memory) (ops : List MicroOp) : Memory := ops.foldl MicroOp.apply m

/-- ENG memory accesses of a list of micro-ops: two for an RMW, one for a WR (43_framebuffer_commands R244). -/
def accessCount : List MicroOp → Nat
  | [] => 0
  | .rmw _ _ _ :: rest => 2 + accessCount rest
  | .wr _ _ :: rest => 1 + accessCount rest

/-- The word of pixel (x, y) in closed form (20_memory R87). -/
def gridWord (x y : Nat) : Nat := (64 * y + x / 10 + 30719) % 30720

/-- H_RES-side and V_RES-side clamps of HLINE's operands (43_framebuffer_commands R236). -/
def clampX (v : Int) : Nat := (max 0 (min 639 v)).toNat
def clampY (v : Int) : Nat := (max 0 (min 479 v)).toNat

/-- The line period in ticks: (HP + 1) + H_FP + H_SYNC + H_BP (40_timing_programs R169). -/
def linePeriod (pl : Platform) (hp : Word) : Nat :=
  (hp.toNat + 1) + (pl.hFpM1.toNat + 1) + (pl.hSyncM1.toNat + 1) + (pl.hBpM1.toNat + 1)

/-- The frame period in lines: (VP + 1) + 10 + V_SYNC + 2 (40_timing_programs R170). -/
def framePeriod (pl : Platform) (vp : Word) : Nat := (vp.toNat + 1) + 10 + (pl.vSyncM1.toNat + 1) + 2

/-- A framebuffer word at a has padding 0 (20_memory R84): in memory, and in the word ENG holds while it is between the two
halves of an RMW of that word. -/
def State.PaddingZeroAt (s : State) (a : Word) : Prop :=
  (s.mem.readWord a).extractLsb' 30 2 = 0#2 ∧
  ∀ m b rest, s.eng.ops = .rmw a m b :: rest → s.eng.phase2 = true → s.eng.tmp.extractLsb' 30 2 = 0#2

/-- The memory is in canonical form. -/
def State.MemInv (s : State) : Prop := s.mem.wf = true

/-- What every micro-op of 43_framebuffer_commands is: word-aligned (20_memory R92), an RMW whose mask lies in bits 29:0 or a
WR of a fillword (43_framebuffer_commands R231). -/
def MicroOp.Built : MicroOp → Prop
  | .rmw a m _ => a.extractLsb' 0 2 = 0#2 ∧ m.extractLsb' 30 2 = 0#2
  | .wr a v => a.extractLsb' 0 2 = 0#2 ∧ ∃ c, v = fillword c

/-- The engine's invariant: its micro-ops are built ones, each on a word of the framebuffer at the base it latched (20_memory
R81), and phase2 = 1 only when the head is an RMW (10_state R58). -/
structure State.EngInv (s : State) : Prop where
  opsBuilt : ∀ o ∈ s.eng.ops, MicroOp.Built o
  opsInFrame : ∀ o ∈ s.eng.ops, ∃ k < fbWords, MicroOp.addr o = fbaddr s.engBase k
  phase2Head : s.eng.phase2 = true → ∃ a m b rest, s.eng.ops = .rmw a m b :: rest

/-- While RUN = 0 the sequencers are idle, the queues and AWF empty, the channels idle (42_sync_controller R210, R212;
10_state R54, R64). -/
structure State.Stopped (s : State) : Prop where
  hIdle : s.h.phase = .idle
  vIdle : s.v.phase = .idle
  pIdle : s.p.phase = .idle
  hqEmpty : s.hq = []
  vqEmpty : s.vq = []
  pqEmpty : s.pq = []
  awfClear : s.awf = false
  availZero : s.p.avail = 0
  ch0Idle : s.ch0.busy = false
  countZero : s.ch0.count = 0
  ch1Idle : s.ch1Busy = false

/-- While RUN = 1 no sequencer is idle (40_timing_programs R168), a sequencer in PARAM has its parameter waiting and its
queue holds nothing else (10_state R54), and exactly one channel is busy: CH0 with 1 to FB_WORDS words left, or CH1 with
CH0 at 0 (41_scanout_dma R191 to R194). -/
structure State.Running (s : State) : Prop where
  hBusy : s.h.phase ≠ .idle
  vBusy : s.v.phase ≠ .idle
  pBusy : s.p.phase ≠ .idle
  hqParam : s.hq.length = if s.h.phase = .param then 1 else 0
  vqParam : s.vq.length = if s.v.phase = .param then 1 else 0
  pqParam : s.p.phase = .param → s.pq ≠ []
  oneChannel : s.ch0.busy = !s.ch1Busy
  ch0Count : s.ch0.busy = true → 1 ≤ s.ch0.count.toNat ∧ s.ch0.count.toNat ≤ fbWords
  ch1Count : s.ch1Busy = true → s.ch0.count = 0

/-- The scanout's invariant. -/
structure State.ScanInv (s : State) : Prop where
  pqFits : s.pq.length ≤ s.platform.fifoDepth
  availFits : s.p.avail ≤ 10
  raddrAligned : s.ch0.raddr.extractLsb' 0 2 = 0#2
  hCount : s.h.phase ≠ .idle → s.h.phase ≠ .param → s.h.cnt ≤ hLoad s.platform s.h.par s.h.phase
  vCount : s.v.phase ≠ .idle → s.v.phase ≠ .param → s.v.cnt ≤ vLoad s.platform s.v.par s.v.phase
  pCount : s.p.phase = .run → s.p.cnt ≤ s.p.par
  whenStopped : s.run = false → s.Stopped
  whenRunning : s.run = true → s.Running

end Sys2Proof.Machine
end

