-- ==== Sys2Proof/Certificates/Slice0/Obligations.lean ====
section
/-! DEFINITION. The statements for the provers, in the order of OBLIGATIONS.json. Rules are cited as R<n>. -/

open Sys2Proof Sys2Proof.Machine

/-! ### Encoding -/

/-- Decoding the encoding of a well-formed command gives the command back, with every operand at every value its field admits
(R123, R130). -/
def Obligations.DecodeEncodeRoundTrip : Prop :=
  ∀ i : Instr, i.wellFormed = true → decode i.encodeA i.encodeB = .ok i

/-- A decoded command is well formed, and encoding it gives back exactly the bits it uses: no other bit decides anything, and
no used bit is lost (R124, R126, R127). -/
def Obligations.EncodeDecodeKeepsUsedBits : Prop :=
  ∀ (a b : Word) (i : Instr), decode a b = .ok i →
    i.wellFormed = true ∧ i.encodeA = a &&& i.usedBits.1 ∧ i.encodeB = b &&& i.usedBits.2

/-- Words written out from the spec's table T2 decode to their commands (R121 to R124). -/
def Obligations.SampleWordsDecode : Prop :=
  decode 0x00000000 0 = .ok .nop ∧ decode 0x14001005 0 = .ok (.pixel 5 1 2) ∧ decode 0x2A000000 0 = .ok (.fill 5) ∧
  decode 0x34FFDFFB 0x000002BC = .ok (.hline (-5) 700 (-3) 2) ∧ decode 0x4200A005 0x00FFF000 = .ok (.vline 5 10 (-1) 1) ∧
  decode 0x50000000 0 = .ok .start ∧ decode 0x60000000 0 = .ok .stop ∧
  decode 0xF0000000 0 = .error (.reservedOpcode 0xF)

/-- A host write of a reserved opcode to CMD_A sets CMD_OP_ERR and changes nothing else, whatever the state; every host write
to CMD_A issues the word written (R125). -/
def Obligations.ReservedOpcodeOnlySetsCmdOpErr : Prop :=
  ∀ (s : State) (a : Word), s.hostWr .word (.reg 0x14) a = s.issue a ∧
    (7 ≤ (a.extractLsb' 28 4).toNat →
      s.hostWr .word (.reg 0x14) a = .next { s with flags := { s.flags with cmdOpErr := true } })

/-- Bit 24 of CMD_A changes nothing in what a command does, and bits 31:24 of CMD_B are not stored (R126). -/
def Obligations.ReservedBitsIgnored : Prop :=
  (∀ (s : State) (a : Word), s.issue (a ^^^ 0x01000000) = s.issue a) ∧
  (∀ (s : State) (v : Word) (hi : BitVec 8), s.writeReg 0x10 (v ^^^ (hi ++ 0#24)) = s.writeReg 0x10 v) ∧
  (∀ (s : State), (s.readReg 0x10).extractLsb' 24 8 = 0#8)

/-! ### The step -/

/-- When it is the host's turn and its next step writes a to CMD_A, and a with CMD_B decodes to i, the step is exec of i at
the state with that turn and that host step taken (logs 1, 5) (R45, R120). -/
def Obligations.StepRunsDecodedCommand : Prop :=
  ∀ (s : State) (a : Word) (i : Instr) (ts : List Turn) (ps : List HostStep),
    s.turns = .host :: ts → s.program = .write .word (.reg 0x14) a :: ps → decode a s.cmdBWord = .ok i →
    step s = exec i { s with turns := ts, program := ps }

/-- Each agent's turn is that agent's step, and a free turn is some agent's step (log 1) (R6). -/
def Obligations.StepIsSomeAgentsStep : Prop :=
  ∀ s : State,
    (∀ ts, s.turns = .tick :: ts → step s = .next { s with turns := ts }.tick) ∧
    (∀ ts, s.turns = .ch0 :: ts → step s = .next { s with turns := ts }.ch0Step) ∧
    (∀ ts, s.turns = .ch1 :: ts → step s = .next { s with turns := ts }.ch1Step) ∧
    (∀ ts, s.turns = .eng :: ts → step s = .next { s with turns := ts }.engStep) ∧
    (∀ ts, s.turns = .reset :: ts → step s = .next { s with turns := ts }.resetBlock) ∧
    (∀ ts, s.turns = .host :: ts → step s = { s with turns := ts }.hostTurn) ∧
    (s.turns = [] → ∃ t, step s = { s with freeTurns := s.freeTurns + 1 }.takeTurn t)

/-- The host steps the assembler gives for a well-formed command, taken on the host's turns, run exactly that command: CMD_B
is written first where the command uses it, then CMD_A issues it (log 5) (R120, R131). -/
def Obligations.AssembledCommandRuns : Prop :=
  ∀ (s : State) (i : Instr) (ts : List Turn) (ps : List HostStep), i.wellFormed = true →
    s.program = commandSteps i ++ ps → s.turns = List.replicate (commandSteps i).length .host ++ ts →
    Host.Core.run Sys2Proof.core (commandSteps i).length s =
      exec i { s with
        program := ps, turns := ts
        regs := { s.regs with cmdB := if (commandSteps i).length = 2 then i.encodeB.extractLsb' 0 24 else s.regs.cmdB } }

/-! ### The commands -/

/-- NOP changes nothing, and every CMD_A with op 0 is NOP (R233). -/
def Obligations.NopChangesNothing : Prop :=
  (∀ s : State, exec .nop s = .next s) ∧
  (∀ a b : Word, a.extractLsb' 28 4 = 0#4 → decode a b = .ok .nop)

/-- An in-range PIXEL on an idle engine loads one RMW of the pixel's three bits in word (64y + x div 10 − 1) mod 30720, latches
FB_BASE as the engine's base (log 27), and changes nothing else (R234, R87). -/
def Obligations.PixelLoadsOneRmw : Prop :=
  ∀ (s : State) (x y : Nat) (c : Color), s.eng.ops = [] → x < 640 → y < 480 →
    exec (.pixel x y c) s = .next { s with
      eng := { s.eng with
        ops := [.rmw (fbaddr s.fbBase (gridWord x y)) (7#32 <<< (3 * (x % 10))) (c.setWidth 32 <<< (3 * (x % 10)))]
        phase2 := false }
      engBase := s.fbBase }

/-- FILL on an idle engine loads 30720 full-word writes of the colour in every slot, words ascending, latches FB_BASE as the
engine's base (log 27), and changes nothing else (R235, R89). -/
def Obligations.FillLoadsEveryWord : Prop :=
  ∀ (s : State) (c : Color), s.eng.ops = [] →
    ∃ ops : List MicroOp,
      exec (.fill c) s = .next { s with eng := { s.eng with ops := ops, phase2 := false }, engBase := s.fbBase } ∧
      ops.length = 30720 ∧
      ∀ k < 30720, ops[k]? = some (.wr (fbaddr s.fbBase k) (0x09249249#32 * c.setWidth 32))

/-- HLINE whose clamped, ordered endpoints share a word loads one RMW per pixel, ascending x, latches FB_BASE as the
engine's base (log 27), and changes nothing else (R236, R237). -/
def Obligations.HlineWithinOneWord : Prop :=
  ∀ (s : State) (x1 x2 y : Int) (c : Color) (lo hi : Nat), s.eng.ops = [] →
    lo = min (clampX x1) (clampX x2) → hi = max (clampX x1) (clampX x2) → lo / 10 = hi / 10 →
    exec (.hline x1 x2 y c) s = .next { s with
      eng := { s.eng with
        ops := (List.range (hi + 1 - lo)).map fun d =>
          .rmw (fbaddr s.fbBase (gridWord lo (clampY y))) (7#32 <<< (3 * ((lo + d) % 10)))
            (c.setWidth 32 <<< (3 * ((lo + d) % 10)))
        phase2 := false }
      engBase := s.fbBase }

/-- HLINE across words loads an RMW of the first word from the left end's slot to slot 9, full-word writes of the
x2 div 10 − x1 div 10 − 1 interior words in ascending cyclic order, and an RMW of the last word from slot 0 to the right
end's slot; FB_BASE is latched as the engine's base (log 27), and nothing else changes (R236, R238). -/
def Obligations.HlineAcrossWords : Prop :=
  ∀ (s : State) (x1 x2 y : Int) (c : Color) (lo hi : Nat), s.eng.ops = [] →
    lo = min (clampX x1) (clampX x2) → hi = max (clampX x1) (clampX x2) → lo / 10 < hi / 10 →
    exec (.hline x1 x2 y c) s = .next { s with
      eng := { s.eng with
        ops :=
          .rmw (fbaddr s.fbBase (gridWord lo (clampY y))) (0x3FFFFFFF#32 &&& (0xFFFFFFFF#32 <<< (3 * (lo % 10))))
            (0x09249249#32 * c.setWidth 32) ::
          ((List.range (hi / 10 - lo / 10 - 1)).map fun j =>
            .wr (fbaddr s.fbBase ((64 * clampY y + lo / 10 + j) % 30720)) (0x09249249#32 * c.setWidth 32)) ++
          [.rmw (fbaddr s.fbBase (gridWord hi (clampY y))) (0x3FFFFFFF#32 >>> (27 - 3 * (hi % 10)))
            (0x09249249#32 * c.setWidth 32)]
        phase2 := false }
      engBase := s.fbBase }

/-- An in-range VLINE on an idle engine loads one RMW per row of the column, top to bottom, each in its pixel's own word and
slot, latches FB_BASE as the engine's base (log 27), and changes nothing else (R239, R88). -/
def Obligations.VlineLoadsOneRmwPerRow : Prop :=
  ∀ (s : State) (x y1 y2 : Nat) (c : Color), s.eng.ops = [] → x < 640 → y1 < 480 → y2 < 480 →
    exec (.vline x y1 y2 c) s = .next { s with
      eng := { s.eng with
        ops := (List.range (max y1 y2 + 1 - min y1 y2)).map fun i =>
          .rmw (fbaddr s.fbBase (gridWord x (min y1 y2 + i))) (7#32 <<< (3 * (x % 10))) (c.setWidth 32 <<< (3 * (x % 10)))
        phase2 := false }
      engBase := s.fbBase }

/-- START while stopped pushes the parameters, puts the three sequencers in PARAM, arms CH0 at FB_BASE with the frame's word
count, sets RUN, and changes nothing else (R210). The model's choices: the ghost tick number restarts (log 14), the pins hold
until the next tick (log 13), and a stuck CH0 stays stuck (log 26). -/
def Obligations.StartArmsTheScanout : Prop :=
  ∀ s : State, s.run = false →
    exec .start s = .next { s with
      hq := s.hq ++ [s.regs.hActiveM1], vq := s.vq ++ [s.regs.vActiveM1], pq := s.pq ++ [s.regs.hActiveM1]
      h := { s.h with phase := .param }, v := { s.v with phase := .param }, p := { s.p with phase := .param }
      ch0 := { busy := true, raddr := s.fbBase, count := 30720 }, ch0StuckLatch := s.ch0Stuck
      run := true, tickNo := 0 }

/-- STOP while running disables both channels, idles the sequencers, flushes the queues, clears AWF and P.avail and RUN, and
changes nothing else: CH0.raddr, the counters, the parameters and P.osr keep their values (R212). The model's choices: the pins
hold until the next tick (log 13), and a stuck CH0 stays stuck (log 26). -/
def Obligations.StopDisablesTheScanout : Prop :=
  ∀ s : State, s.run = true →
    exec .stop s = .next { s with
      ch0 := { s.ch0 with busy := false, count := 0 }, ch0StuckLatch := s.ch0Stuck, ch1Busy := false
      h := { s.h with phase := .idle }, v := { s.v with phase := .idle }, p := { s.p with phase := .idle, avail := 0 }
      hq := [], vq := [], pq := [], awf := false, run := false }

/-- START while RUN = 1 and STOP while RUN = 0 set SEQ_ERR and change nothing else (R211, R213). -/
def Obligations.RepeatedStartOrStopOnlySetsSeqErr : Prop :=
  (∀ s : State, s.run = true → exec .start s = .next { s with flags := { s.flags with seqErr := true } }) ∧
  (∀ s : State, s.run = false → exec .stop s = .next { s with flags := { s.flags with seqErr := true } })

/-- A CMD_A write reports at most one flag, chosen in the order reserved opcode, START/STOP out of sequence, engine busy,
coordinate out of range; a command that reports one changes nothing else (R271, R273). -/
def Obligations.CommandErrorPriority : Prop :=
  ∀ (s : State) (a : Word),
    let op := (a.extractLsb' 28 4).toNat
    let out (x y1 y2 : Int) : Prop := ¬ (0 ≤ x ∧ x < 640 ∧ 0 ≤ min y1 y2 ∧ max y1 y2 < 480)
    let opErr := 7 ≤ op
    let seqErr := (op = 5 ∧ s.run = true) ∨ (op = 6 ∧ s.run = false)
    let busyErr := 1 ≤ op ∧ op ≤ 4 ∧ s.eng.ops ≠ []
    let coordErr := s.eng.ops = [] ∧ ((op = 1 ∧ out (fieldX a) (fieldY a) (fieldY a)) ∨
      (op = 4 ∧ out (fieldX a) (fieldY a) (fieldY s.cmdBWord)))
    (opErr → s.issue a = .next { s with flags := { s.flags with cmdOpErr := true } }) ∧
    (seqErr → s.issue a = .next { s with flags := { s.flags with seqErr := true } }) ∧
    (busyErr → s.issue a = .next { s with flags := { s.flags with cmdBusyErr := true } }) ∧
    (coordErr → s.issue a = .next { s with flags := { s.flags with coordErr := true } }) ∧
    (¬ opErr → ¬ seqErr → ¬ busyErr → ¬ coordErr → ∃ t, s.issue a = .next t ∧ t.flags = s.flags)

/-- Every command, in every state, answers a next state that leaves memory (every byte), the stored registers, the output
pins, the platform and the host's side as they were; the draw commands and NOP leave the whole scanout as it was, and START
and STOP the engine (R214, R230). That START and STOP leave the pins to the next tick is the model's choice (log 13). -/
def Obligations.CommandFrame : Prop :=
  ∀ (i : Instr) (s : State), ∃ t, exec i s = .next t ∧
    (∀ x, t.mem.get x = s.mem.get x) ∧ t.mem = s.mem ∧ t.regs = s.regs ∧ t.pins = s.pins ∧ t.platform = s.platform ∧
    t.program = s.program ∧ t.turns = s.turns ∧ t.freeTurns = s.freeTurns ∧ t.hostRead = s.hostRead ∧ t.history = s.history ∧
    ((i = .start ∨ i = .stop) → t.eng = s.eng ∧ t.engBase = s.engBase) ∧
    (i ≠ .start → i ≠ .stop → t.run = s.run ∧ t.h = s.h ∧ t.v = s.v ∧ t.p = s.p ∧ t.awf = s.awf ∧ t.hq = s.hq ∧
      t.vq = s.vq ∧ t.pq = s.pq ∧ t.ch0 = s.ch0 ∧ t.ch0StuckLatch = s.ch0StuckLatch ∧ t.ch1Busy = s.ch1Busy ∧
      t.tickNo = s.tickNo)

/-! ### The register file -/

/-- The STATUS word: RUN, BUSY (the micro-op list is not empty) and the four flags in bits 0 to 5, 0 above (R36, R40). -/
def Obligations.StatusWordBits : Prop :=
  ∀ s : State, (s.readReg 0x00).toNat < 64 ∧ (s.readReg 0x00).getLsbD 0 = s.run ∧
    ((s.readReg 0x00).getLsbD 1 = true ↔ s.eng.ops ≠ []) ∧ (s.readReg 0x00).getLsbD 2 = s.flags.cmdBusyErr ∧
    (s.readReg 0x00).getLsbD 3 = s.flags.cmdOpErr ∧ (s.readReg 0x00).getLsbD 4 = s.flags.coordErr ∧
    (s.readReg 0x00).getLsbD 5 = s.flags.seqErr

/-- A host write to STATUS clears exactly the flags written as 1 and changes nothing else (R33, R37). -/
def Obligations.StatusWriteOneClears : Prop :=
  ∀ (s : State) (v : Word), ∃ t, s.hostWr .word (.reg 0x00) v = .next t ∧ t = { s with flags := t.flags } ∧
    (t.flags.cmdBusyErr = true ↔ s.flags.cmdBusyErr = true ∧ v.getLsbD 2 = false) ∧
    (t.flags.cmdOpErr = true ↔ s.flags.cmdOpErr = true ∧ v.getLsbD 3 = false) ∧
    (t.flags.coordErr = true ↔ s.flags.coordErr = true ∧ v.getLsbD 4 = false) ∧
    (t.flags.seqErr = true ↔ s.flags.seqErr = true ∧ v.getLsbD 5 = false)

/-- Writes of the stored registers read back, with FB_BASE bits 1:0 and CMD_B bits 31:24 reading 0, and change no other
register, flag or other state (R41 to R44). -/
def Obligations.StoredRegistersReadBack : Prop :=
  ∀ (s : State) (v : Word),
    (∃ t, s.hostWr .word (.reg 0x04) v = .next t ∧ t.readReg 0x04 = v &&& 0xFFFFFFFC ∧
      t = { s with regs := { s.regs with fbBaseHi := t.regs.fbBaseHi } }) ∧
    (∃ t, s.hostWr .word (.reg 0x08) v = .next t ∧ t.readReg 0x08 = v ∧ t = { s with regs := { s.regs with hActiveM1 := v } }) ∧
    (∃ t, s.hostWr .word (.reg 0x0C) v = .next t ∧ t.readReg 0x0C = v ∧ t = { s with regs := { s.regs with vActiveM1 := v } }) ∧
    (∃ t, s.hostWr .word (.reg 0x10) v = .next t ∧ t.readReg 0x10 = v &&& 0x00FFFFFF ∧
      t = { s with regs := { s.regs with cmdB := t.regs.cmdB } })

/-- A register read at an aligned offset answers a next state in which only the host's read value changed; CMD_A and reserved
offsets read 0; CH0_READ_ADDR and CH0_COUNT read CH0's raddr and count; writes to the read-only registers and to reserved
offsets change nothing. One round of a POLL is such a read; the POLL then ends if (value & m) = v, and else stays first in the
program (R32, R33, R45 to R47, R132). The host's read value and one read a turn are the model's (log 18). -/
def Obligations.RegisterReadsAndIgnoredWrites : Prop :=
  ∀ (s : State) (off : BitVec 8) (m v : Word), off.toNat % 4 = 0 →
    s.hostRd .word (.reg off) = .next { s with hostRead := some (s.readReg off.toNat) } ∧
    (off = 0x14 ∨ 0x24 ≤ off.toNat → s.readReg off.toNat = 0) ∧
    s.readReg 0x18 = s.ch0.raddr ∧ s.readReg 0x1C = s.ch0.count ∧
    (0x18 ≤ off.toNat → s.hostWr .word (.reg off) v = .next s) ∧
    (s.readReg off.toNat &&& m = v → s.hostPoll off m v = .next { s with hostRead := some (s.readReg off.toNat) }) ∧
    (s.readReg off.toNat &&& m ≠ v → s.hostPoll off m v =
      .next { s with hostRead := some (s.readReg off.toNat), program := .poll off m v :: s.program })

/-- A register access that is not 32 bits wide or not 4-byte aligned has no step, as a read, a write or a POLL: the model refuses
it by name (R32; 93 I11). -/
def Obligations.BadRegisterAccessRefused : Prop :=
  ∀ (s : State) (w : Width) (off : BitVec 8) (m v : Word),
    (w ≠ .word ∨ off.toNat % 4 ≠ 0 →
      s.hostRd w (.reg off) = .refused .hostRegisterAccess ∧ s.hostWr w (.reg off) v = .refused .hostRegisterAccess) ∧
    (off.toNat % 4 ≠ 0 → s.hostPoll off m v = .refused .hostRegisterAccess)

/-- A bus address inside the register file reaches the register at its offset from BLOCK_BASE, for reads and writes (R31,
R80). -/
def Obligations.BusAddressReachesRegister : Prop :=
  ∀ (s : State) (w : Width) (off : BitVec 8) (v : Word),
    s.hostRd w (.mem (s.platform.blockBase + off.setWidth 32)) = s.hostRd w (.reg off) ∧
    s.hostWr w (.mem (s.platform.blockBase + off.setWidth 32)) v = s.hostWr w (.reg off) v

/-- The fields of SCAN_STATE, in a state whose P.avail and PQ fit their fields (the invariant ScanInv says so), and its reset
value 0 (R48). -/
def Obligations.ScanStateFields : Prop :=
  (∀ s : State, s.ScanInv →
    let w := s.readReg 0x20
    w.extractLsb' 18 14 = 0#14 ∧ (w.extractLsb' 14 4).toNat = s.p.avail ∧ (w.extractLsb' 11 3).toNat = s.pq.length ∧
    w.getLsbD 10 = s.ch1Busy ∧ w.getLsbD 9 = s.ch0.busy ∧ w.getLsbD 8 = s.awf ∧
    (∀ e ∈ [(PixPhase.idle, 0), (.param, 1), (.wait, 2), (.run, 3)],
      (w.extractLsb' 6 2).toNat = e.2 ↔ s.p.phase = e.1) ∧
    (∀ e ∈ [(Phase.idle, 0), (.param, 1), (.active, 2), (.fp, 3), (.sync, 4), (.bp, 5)],
      ((w.extractLsb' 0 3).toNat = e.2 ↔ s.h.phase = e.1) ∧ ((w.extractLsb' 3 3).toNat = e.2 ↔ s.v.phase = e.1))) ∧
  (∀ s : State, s.resetBlock.readReg 0x20 = 0)

/-! ### The host and memory -/

/-- An aligned host word write to ordinary memory answers a next state in which a read of that word gives the value, every
other byte of memory reads as before, and nothing else changed; a host read of the word returns it (R98). -/
def Obligations.HostWordWriteReadsBack : Prop :=
  ∀ (s : State) (a v : Word), ramWord s.platform a = true → a.extractLsb' 0 2 = 0#2 →
    ∃ t, s.hostWr .word (.mem a) v = .next t ∧ t = { s with mem := t.mem } ∧
      t.hostRd .word (.mem a) = .next { t with hostRead := some v } ∧
      ∀ x, x ≠ a.toNat → x ≠ (a + 1).toNat → x ≠ (a + 2).toNat → x ≠ (a + 3).toNat → t.mem.get x = s.mem.get x

/-- With MEM_ENDIAN little, a host byte read at i bytes into an aligned word returns bits 8i+7:8i of the word, zero-extended
(log 7) (R91). -/
def Obligations.LittleEndianByteView : Prop :=
  ∀ (s : State) (a : Word) (i : Nat), s.platform.memEndian = .little → a.extractLsb' 0 2 = 0#2 → i < 4 →
    ramWord s.platform a = true →
    s.hostRd .byte (.mem (a + BitVec.ofNat 32 i)) =
      .next { s with hostRead := some (((s.mem.readWord a).extractLsb' (8 * i) 8).setWidth 32) }

/-- A host byte or halfword write that touches a framebuffer word has no step, aligned or not: the model refuses it by name. The
framebuffer words are those of FB_BASE, of the frame CH0 is streaming, of the base the engine latched for the command it is at,
and of a micro-op it holds (log 8). Only an address in the register file is refused by another name, as a register access
(R101, R32; 93 I10). -/
def Obligations.SubWordFramebufferWriteRefused : Prop :=
  ∀ (s : State) (w : Width) (a x v : Word) (k i : Nat), w ≠ .word → k < 30720 → i < 4 →
    (x = fbaddr s.fbBase k + BitVec.ofNat 32 i ∨
      (s.ch0.busy = true ∧ x = fbaddr s.frameBase k + BitVec.ofNat 32 i) ∨
      (s.eng.ops ≠ [] ∧ x = fbaddr s.engBase k + BitVec.ofNat 32 i) ∨
      (∃ o ∈ s.eng.ops, x = MicroOp.addr o + BitVec.ofNat 32 i)) →
    (a = x ∨ (w = .half ∧ a + 1 = x)) →
    s.hostWr w (.mem a) v = .refused (if inRegisterFile s.platform a then .hostRegisterAccess else .hostSubWordWrite)

/-! ### The engine -/

/-- An admitted ENG step is one memory access of the head micro-op: a WR writes and is dropped; an RMW first reads, then
writes the masked merge and is dropped (R232). -/
def Obligations.EngineStepAccesses : Prop :=
  ∀ (s : State) (a m b : Word) (rest : List MicroOp), ramWord s.platform a = true →
    (s.eng.ops = .wr a b :: rest →
      s.engStep = { s with mem := s.mem.writeWord a b, eng := { s.eng with ops := rest } }) ∧
    (s.eng.ops = .rmw a m b :: rest → s.eng.phase2 = false →
      s.engStep = { s with eng := { s.eng with phase2 := true, tmp := s.mem.readWord a } }) ∧
    (s.eng.ops = .rmw a m b :: rest → s.eng.phase2 = true →
      s.engStep = { s with
        mem := s.mem.writeWord a ((s.eng.tmp &&& ~~~m) ||| (b &&& m))
        eng := { s.eng with ops := rest, phase2 := false } })

/-- What an ENG step leaves alone: every byte of memory outside the four bytes of its head micro-op's word, and every field
but memory and ENG (R93, R97, R232). -/
def Obligations.EngineStepFrame : Prop :=
  ∀ s : State, s.engStep = { s with mem := s.engStep.mem, eng := s.engStep.eng } ∧
    ∀ x, (∀ a, s.engAddr = some a → x ≠ a.toNat ∧ x ≠ (a + 1).toNat ∧ x ≠ (a + 2).toNat ∧ x ≠ (a + 3).toNat) →
      s.engStep.mem.get x = s.mem.get x

/-- An engine whose next address is outside RAM_REGIONS is stuck: its turn changes nothing (log 2), BUSY is 1, every draw
command (PIXEL, FILL, HLINE, VLINE, whatever its operands) gets CMD_BUSY_ERR and changes nothing else, and after every step but
RESET the engine is stuck still; RESET unsticks it (R272). -/
def Obligations.StuckEngineStaysBusy : Prop :=
  ∀ s : State, s.engStuck = true → s.engStep = s ∧ s.busy = true ∧
    (∀ (x y : Int) (c : Color), exec (.pixel x y c) s = .next { s with flags := { s.flags with cmdBusyErr := true } }) ∧
    (∀ c : Color, exec (.fill c) s = .next { s with flags := { s.flags with cmdBusyErr := true } }) ∧
    (∀ (x1 x2 y : Int) (c : Color),
      exec (.hline x1 x2 y c) s = .next { s with flags := { s.flags with cmdBusyErr := true } }) ∧
    (∀ (x y1 y2 : Int) (c : Color),
      exec (.vline x y1 y2 c) s = .next { s with flags := { s.flags with cmdBusyErr := true } }) ∧
    (∀ t, s.nextAgent ≠ .reset → step s = .next t → t.engStuck = true) ∧ s.resetBlock.engStuck = false

/-- However the turns of TICK, CH0, CH1 and ENG interleave, with no host step between, once ENG has had as many turns as its
micro-ops have accesses, memory is what the micro-ops do one after the other, and the engine is idle (R98, R232, R244). On a
run that is weakly fair to ENG, whatever the other agents do, an engine whose micro-ops are all admitted is idle at some later
time (R232). The order of turns is the model's `turns` (log 1), and weak fairness a premise on runs (log 16). -/
def Obligations.EngineRunsItsMicroOps : Prop :=
  (∀ (s : State) (ts : List Turn), s.turns = ts → (∀ t ∈ ts, Turn.ofBlock t = true) → s.eng.phase2 = false →
    (∀ o ∈ s.eng.ops, ramWord s.platform (MicroOp.addr o) = true) → accessCount s.eng.ops ≤ ts.count .eng →
    ∃ t, Host.Core.run Sys2Proof.core ts.length s = .next t ∧ t.mem = runOps s.mem s.eng.ops ∧ t.eng.ops = [] ∧
      t.eng.phase2 = false) ∧
  (∀ (sched : Nat → Turn) (r : Nat → State) (n : Nat), IsRun sched r → FairTo .eng sched r →
    (∀ o ∈ (r n).eng.ops, ramWord (r n).platform (MicroOp.addr o) = true) → ∃ m ≥ n, (r m).eng.ops = [])

/-- The memory accesses of the micro-ops each command builds, for in-range operands in order: PIXEL 2, FILL 30720, HLINE
2(x2 − x1 + 1) within one word and 4 + (d − 1) across words with d = x2 div 10 − x1 div 10, VLINE 2(y2 − y1 + 1) (R244). -/
def Obligations.AccessCounts : Prop :=
  ∀ (x1 x2 y1 y2 : Nat) (c : Color) (base : Word) (ops : List MicroOp), x1 ≤ x2 → x2 < 640 → y1 ≤ y2 → y2 < 480 →
    (buildPixel x1 y1 c base = some ops → accessCount ops = 2) ∧
    (buildFill c base = some ops → accessCount ops = 30720) ∧
    (buildHline x1 x2 y1 c base = some ops →
      accessCount ops = if x1 / 10 = x2 / 10 then 2 * (x2 - x1 + 1) else 4 + (x2 / 10 - x1 / 10 - 1)) ∧
    (buildVline x1 y1 y2 c base = some ops → accessCount ops = 2 * (y2 - y1 + 1))

/-- FILL's micro-ops leave every pixel at the colour and every framebuffer word at the fill word (R243). -/
def Obligations.FillReadBack : Prop :=
  ∀ (m : Memory) (base : Word) (c : Color) (ops : List MicroOp), base.extractLsb' 0 2 = 0#2 → buildFill c base = some ops →
    (∀ x y, x < 640 → y < 480 → pixelAt (runOps m ops) base x y = c) ∧
    (∀ k < 30720, (runOps m ops).readWord (fbaddr base k) = fillword c)

/-- The micro-ops of HLINE x1, x2, y, c leave memory equal to those of PIXEL x, y, c for x from min(x1, x2) to max(x1, x2),
when the words strictly between the endpoints' words have padding 0. Whatever their padding, all bits 29:0 of the framebuffer
are equal; the words outside the interior are equal whole; and the interior words have padding 0 after HLINE and the padding
they had after the PIXELs (R241). -/
def Obligations.HlineEqualsPixelLoop : Prop :=
  ∀ (m : Memory) (base : Word) (x1 x2 y : Nat) (c : Color) (ops : List MicroOp), m.wf = true → base.extractLsb' 0 2 = 0#2 →
    x1 < 640 → x2 < 640 → y < 480 → buildHline x1 x2 y c base = some ops →
    let interior (k : Nat) : Prop := ∃ j, min x1 x2 / 10 < j ∧ j < max x1 x2 / 10 ∧ k = gridWord (10 * j) y
    let byHline := runOps m ops
    let byPixels := runOps m ((List.range (max x1 x2 + 1 - min x1 x2)).flatMap fun d =>
      (buildPixel (min x1 x2 + d : Nat) y c base).getD [])
    ((∀ k, interior k → (m.readWord (fbaddr base k)).extractLsb' 30 2 = 0#2) → byHline = byPixels) ∧
    (∀ k < 30720, (byHline.readWord (fbaddr base k)).extractLsb' 0 30 = (byPixels.readWord (fbaddr base k)).extractLsb' 0 30 ∧
      (¬ interior k → byHline.readWord (fbaddr base k) = byPixels.readWord (fbaddr base k)) ∧
      (interior k → (byHline.readWord (fbaddr base k)).extractLsb' 30 2 = 0#2 ∧
        (byPixels.readWord (fbaddr base k)).extractLsb' 30 2 = (m.readWord (fbaddr base k)).extractLsb' 30 2))

/-- The micro-ops of VLINE x, y1, y2, c leave memory equal to those of PIXEL x, y, c for y from min(y1, y2) to max(y1, y2)
(R242). -/
def Obligations.VlineEqualsPixelLoop : Prop :=
  ∀ (m : Memory) (base : Word) (x y1 y2 : Nat) (c : Color) (ops : List MicroOp), x < 640 → y1 < 480 → y2 < 480 →
    buildVline x y1 y2 c base = some ops →
    runOps m ops = runOps m ((List.range (max y1 y2 + 1 - min y1 y2)).flatMap fun d =>
      (buildPixel x (min y1 y2 + d : Nat) c base).getD [])

/-- On the machine: a PIXEL issued to an idle engine, then any interleaving of block agents with two ENG turns and no host
step, leaves the pixel at the colour, every other pixel and every word's padding as they were, and the engine idle (R240). -/
def Obligations.PixelReadBackOnTheMachine : Prop :=
  ∀ (s : State) (x y : Nat) (c : Color) (ts : List Turn) (ps : List HostStep), x < 640 → y < 480 → s.eng.ops = [] →
    s.turns = .host :: ts → s.program = .write .word (.reg 0x14) (Instr.pixel x y c).encodeA :: ps →
    (∀ t ∈ ts, Turn.ofBlock t = true) → 2 ≤ ts.count .eng → ramWord s.platform (fbaddr s.fbBase (gridWord x y)) = true →
    ∃ t, Host.Core.run Sys2Proof.core (ts.length + 1) s = .next t ∧ t.eng.ops = [] ∧ pixelAt t.mem s.fbBase x y = c ∧
      (∀ x' y', x' < 640 → y' < 480 → ¬ (x' = x ∧ y' = y) → pixelAt t.mem s.fbBase x' y' = pixelAt s.mem s.fbBase x' y') ∧
      (∀ k < 30720,
        (t.mem.readWord (fbaddr s.fbBase k)).extractLsb' 30 2 = (s.mem.readWord (fbaddr s.fbBase k)).extractLsb' 30 2)

/-- A framebuffer word whose padding is 0, in memory and in the word ENG holds for it, keeps padding 0 under every step of a
block agent (R84). -/
def Obligations.BlockKeepsPaddingZero : Prop :=
  ∀ (s t : State) (a : Word) (u : Turn), a.extractLsb' 0 2 = 0#2 → s.EngInv → s.PaddingZeroAt a → Turn.ofBlock u = true →
    s.takeTurn u = .next t → t.PaddingZeroAt a

/-! ### Addresses -/

/-- Pixels and slots correspond one to one: every slot j of every word k holds exactly one pixel of the screen, and the
mapping is the closed form (R85 to R87). -/
def Obligations.PixelsAndSlotsAreOneToOne : Prop :=
  (∀ x y, x < 640 → y < 480 → wordIndex x y = gridWord x y ∧ bitOffset x y = 3 * (x % 10)) ∧
  (∀ k j, k < 30720 → j < 10 → ∃! q : Nat × Nat, q.1 < 640 ∧ q.2 < 480 ∧ wordIndex q.1 q.2 = k ∧ bitOffset q.1 q.2 = 3 * j)

/-! ### The scanout DMA -/

/-- A ready CH0 that is not stuck pushes the word at raddr, advances raddr by 4 and counts down; the step that reaches 0 goes
idle and sets CH1.busy; nothing else changes. Idle, out of words, facing a full PQ, outside RAM_REGIONS, or stuck since an
earlier time it has no step, and its turn changes nothing (log 2). A stuck CH0 is stuck still after every step but RESET, STOP
and START among them (log 26), and RESET unsticks it (R191, R192, R272). -/
def Obligations.Ch0MovesOneWord : Prop :=
  ∀ s : State,
    (s.ch0.busy = true → 1 ≤ s.ch0.count.toNat → s.pq.length < s.platform.fifoDepth → ramWord s.platform s.ch0.raddr = true →
      s.ch0StuckLatch = false →
      s.ch0Step = { s with
        pq := s.pq ++ [s.mem.readWord s.ch0.raddr]
        ch0 := { busy := decide (s.ch0.count.toNat ≠ 1), raddr := s.ch0.raddr + 4, count := s.ch0.count - 1 }
        ch1Busy := s.ch1Busy || decide (s.ch0.count.toNat = 1) }) ∧
    (s.ch0.busy = false ∨ s.ch0.count = 0 ∨ s.platform.fifoDepth ≤ s.pq.length ∨ ramWord s.platform s.ch0.raddr = false ∨
      s.ch0StuckLatch = true → s.ch0Step = s) ∧
    (s.ch0.busy = true → 1 ≤ s.ch0.count.toNat → s.pq.length < s.platform.fifoDepth →
      ramWord s.platform s.ch0.raddr = false → s.ch0Stuck = true) ∧
    (s.ch0Stuck = true → ∀ t, s.nextAgent ≠ .reset → step s = .next t → t.ch0Stuck = true ∧ t.ch0Step = t) ∧
    s.resetBlock.ch0Stuck = false

/-- A CH1 step with CH1.busy re-arms CH0 at FB_BASE with the frame's word count, a stuck CH0 staying stuck (log 26); without,
its turn changes nothing (log 2) (R193, R194). -/
def Obligations.Ch1ReloadsFromFbBase : Prop :=
  (∀ s : State, s.ch1Busy = true →
    s.ch1Step = { s with
      ch1Busy := false, ch0 := { busy := true, raddr := s.fbBase, count := 30720 }, ch0StuckLatch := s.ch0Stuck }) ∧
  (∀ s : State, s.ch1Busy = false → s.ch1Step = s)

/-- After START, with no host step and no RESET, however the block's agents interleave, the i-th word CH0 pushes is read from
framebuffer word i mod 30720, frame after frame. With host steps between: a frame keeps the base it was triggered with through
every step, a host write of FB_BASE among them, CH0's next read is word 30720 − count of it, START and CH1's reload give the
next frame the FB_BASE of that moment, and START's and CH1's count is the whole frame's (R195). And on a weakly fair run on which
RUN stays 1 and CH0 is not stuck, TICK, CH0 and CH1 run for ever: after any time each of them has a step and takes it (R190,
R314; weak fairness is a premise on runs, log 16). -/
def Obligations.RingStreamsTheFramebuffer : Prop :=
  (∀ (s : State) (ts : List Turn), s.ScanInv → s.run = false → (∀ t ∈ ts, Turn.ofBlock t = true) →
    ∀ i a, (s.arm.streamReads ts)[i]? = some a → a = fbaddr s.fbBase (i % 30720)) ∧
  (∀ s t : State, s.ScanInv → s.ch0.busy = true → step s = .next t → t.ch0.busy = true → t.frameBase = s.frameBase) ∧
  (∀ s : State, s.ScanInv → s.ch0.busy = true → s.ch0.raddr = fbaddr s.frameBase (30720 - s.ch0.count.toNat)) ∧
  (∀ s : State, s.ch1Busy = true → s.ch1Step.frameBase = s.fbBase ∧ s.ch1Step.ch0.count = 30720) ∧
  (∀ s : State, s.arm.frameBase = s.fbBase ∧ s.arm.ch0.count = 30720) ∧
  (∀ (sched : Nat → Turn) (r : Nat → State) (n : Nat), IsRun sched r → WeaklyFair sched r → (r n).ScanInv →
    (∀ m ≥ n, (r m).run = true ∧ (r m).ch0Stuck = false) →
    ∀ u ∈ [Turn.tick, .ch0, .ch1], ∀ k ≥ n, ∃ m ≥ k, sched m = u ∧ (r m).enabled u = true)

/-! ### The timing sequencers -/

/-- The pins a tick drives: HSYNC and VSYNC at their active level exactly when H, V is in SYNC at the tick's start, RGB 0
when P is in IDLE, PARAM, or WAIT without a window (R155, R160, R167). -/
def Obligations.TickDrivesThePins : Prop :=
  ∀ s : State,
    s.tick.pins.hsync = (if s.h.phase = .sync then s.platform.hsyncActive else !s.platform.hsyncActive) ∧
    s.tick.pins.vsync = (if s.v.phase = .sync then s.platform.vsyncActive else !s.platform.vsyncActive) ∧
    (s.p.phase = .idle ∨ s.p.phase = .param ∨ (s.p.phase = .wait ∧ s.awf = false) → s.tick.pins.rgb = 0)

/-- A tick leaves registers, flags, RUN, the channels, the engine, memory, the platform and the host's side as they were; it
only takes words from the heads of HQ, VQ and PQ, at most one from PQ; the ghost history only grows (log 14) (R14, R150,
R97). -/
def Obligations.TickFrame : Prop :=
  ∀ s : State, ∃ (h v : Seq) (p : PixSeq) (awf : Bool) (hq vq pq : List Word) (pins : Pins) (hist : List GhostEvent),
    s.tick = { s with h := h, v := v, p := p, awf := awf, hq := hq, vq := vq, pq := pq, pins := pins, history := hist,
                      tickNo := s.tickNo + 1 } ∧
    hq <:+ s.hq ∧ vq <:+ s.vq ∧ pq <:+ s.pq ∧ s.pq.length ≤ pq.length + 1 ∧ s.history <+: hist

/-- In the stopped state a tick changes nothing but the pins (to inactive syncs and black) and the ghost tick number (R152,
R212). -/
def Obligations.StoppedTickOnlyDrivesPins : Prop :=
  ∀ s : State, s.Stopped →
    s.tick = { s with
      pins := { hsync := !s.platform.hsyncActive, vsync := !s.platform.vsyncActive, rgb := 0 }, tickNo := s.tickNo + 1 }

/-- The parameter pulls: H, V and P in PARAM take the head of their queue, H and V with their first count, P with P.avail 0;
an empty queue blocks them (R153, R157, R161). -/
def Obligations.ParameterPulls : Prop :=
  ∀ (s : State) (w : Word) (rest : List Word),
    (s.h.phase = .param → s.hq = w :: rest → s.tick.h = { phase := .active, cnt := w, par := w } ∧ s.tick.hq = rest) ∧
    (s.h.phase = .param → s.hq = [] → s.tick.h = s.h ∧ s.tick.hq = []) ∧
    (s.v.phase = .param → s.vq = w :: rest → s.tick.v = { phase := .bp, cnt := 0, par := w } ∧ s.tick.vq = rest) ∧
    (s.v.phase = .param → s.vq = [] → s.tick.v = s.v ∧ s.tick.vq = []) ∧
    (s.p.phase = .param → s.pq = w :: rest →
      s.tick.p = { s.p with phase := .wait, par := w, avail := 0 } ∧ s.tick.pq = rest) ∧
    (s.p.phase = .param → s.pq = [] → s.tick.p = s.p ∧ s.tick.pq = [])

/-- AWF after a tick, whatever V's phase: set when this tick has LB and V is then in ACTIVE, which V in IDLE or PARAM never is
after a tick; else kept unless P starts its line in this tick (R150, R157, R159, R162). -/
def Obligations.ActiveWindowLatch : Prop :=
  ∀ s : State,
    (s.tick.awf = true ↔
      ((s.h.phase = .bp ∧ s.h.cnt = 0) ∧ s.tick.v.phase = .active) ∨ (s.awf = true ∧ s.p.phase ≠ .wait)) ∧
    (s.v.phase = .idle ∨ s.v.phase = .param → s.tick.v.phase ≠ .active)

/-- Line timing: with HP in HQ at tick 0, H is in ACTIVE at ticks mL + 1 to mL + HP + 1, HSYNC is asserted at ticks
mL + HP + 2 + H_FP to mL + HP + 1 + H_FP + H_SYNC, and LB = 1 exactly at ticks mL, m ≥ 1. The state at the start of tick t is
the one after t ticks; the pins of tick t are in the state after it (R169). -/
def Obligations.LineTiming : Prop :=
  ∀ (s : State) (hp : Word), s.h.phase = .param → s.hq = [hp] → ∀ t : Nat,
    let L := linePeriod s.platform hp
    let q := (State.tick^[t] s).h
    (q.phase = .active ↔ ∃ m, m * L + 1 ≤ t ∧ t ≤ m * L + hp.toNat + 1) ∧
    ((State.tick^[t + 1] s).pins.hsync = s.platform.hsyncActive ↔
      ∃ m, m * L + hp.toNat + 2 + (s.platform.hFpM1.toNat + 1) ≤ t ∧
        t ≤ m * L + hp.toNat + 1 + (s.platform.hFpM1.toNat + 1) + (s.platform.hSyncM1.toNat + 1)) ∧
    (lineBoundary q = true ↔ ∃ m, 1 ≤ m ∧ t = m * L)

/-- Frame timing: with HP in HQ and VP in VQ at tick 0, in line m ≥ 1 (ticks mL + 1 to (m + 1)L), with r = (m − 1) mod F, V is
in ACTIVE if r ≤ VP, in FP if VP + 1 ≤ r ≤ VP + 10, in SYNC if VP + 11 ≤ r ≤ VP + 10 + V_SYNC, in BP otherwise; VSYNC is
asserted exactly through the sync lines; AWF is set at tick mL of an active line; the start-up line (ticks 0 to L) is neither
active nor sync (R170). -/
def Obligations.FrameTiming : Prop :=
  ∀ (s : State) (hp vp : Word), s.h.phase = .param → s.hq = [hp] → s.v.phase = .param → s.vq = [vp] →
    let L := linePeriod s.platform hp
    let F := framePeriod s.platform vp
    (∀ t ≤ L, (State.tick^[t] s).v.phase ≠ .active ∧ (State.tick^[t + 1] s).pins.vsync = !s.platform.vsyncActive) ∧
    ∀ m t, 1 ≤ m → m * L + 1 ≤ t → t ≤ (m + 1) * L →
      (State.tick^[t] s).v.phase =
        (if (m - 1) % F ≤ vp.toNat then .active
         else if (m - 1) % F ≤ vp.toNat + 10 then .fp
         else if (m - 1) % F ≤ vp.toNat + 10 + (s.platform.vSyncM1.toNat + 1) then .sync
         else .bp) ∧
      ((State.tick^[t + 1] s).pins.vsync = s.platform.vsyncActive ↔
        vp.toNat + 11 ≤ (m - 1) % F ∧ (m - 1) % F ≤ vp.toNat + 10 + (s.platform.vSyncM1.toNat + 1)) ∧
      ((m - 1) % F ≤ vp.toNat → (State.tick^[m * L + 1] s).awf = true)

/-- What the screen shows: after START, with no host step and an idle engine, however the block's agents interleave and as long
as no UNDERFLOW event occurs, pixel X of active line Y of frame f comes out at tick (fF + Y + 1)L + 1 + X, and is slot n mod 10
of framebuffer word (n div 10) mod 30720, where n = (f(VP + 1) + Y)(HP + 1) + X counts the pixels since START. With HP = 639
and VP = 479 it is the pixel drawn 10 places to the right, with wrap-around (R171, R172). The ghost tick number counts from
START (log 14). -/
def Obligations.ScreenShowsTheFramebuffer : Prop :=
  ∀ (s : State) (ts : List Turn) (f X Y : Nat), s.ScanInv → s.run = false → s.eng.ops = [] →
    (∀ u ∈ ts, Turn.ofBlock u = true) → X ≤ s.regs.hActiveM1.toNat → Y ≤ s.regs.vActiveM1.toNat →
    let t := ts.foldl State.blockTurn s.arm
    let L := linePeriod s.platform s.regs.hActiveM1
    let F := framePeriod s.platform s.regs.vActiveM1
    let n := (f * (s.regs.vActiveM1.toNat + 1) + Y) * (s.regs.hActiveM1.toNat + 1) + X
    t.tickNo = (f * F + Y + 1) * L + 1 + X → t.tick.history = s.history →
    t.tick.pins.rgb = (s.mem.readWord (fbaddr s.fbBase (n / 10 % 30720))).extractLsb' (3 * (n % 10)) 3 ∧
    (s.regs.hActiveM1 = 639 → s.regs.vActiveM1 = 479 →
      t.tick.pins.rgb = pixelAt s.mem s.fbBase ((X + 10) % 640) (if X < 630 then Y else (Y + 1) % 480))

/-- A word pulled by P shows its ten slots, slot 0 first, one per tick, and its padding never reaches RGB (R163, R164). -/
def Obligations.WordShowsItsTenSlots : Prop :=
  ∀ (s : State) (w : Word) (rest : List Word), s.p.phase = .run → s.p.avail = 0 → s.pq = w :: rest → 9 ≤ s.p.cnt.toNat →
    (∀ j < 10, (State.tick^[j + 1] s).pins.rgb = w.extractLsb' (3 * j) 3) ∧
    (State.tick^[10] s).p.avail = 0 ∧ (State.tick^[10] s).pq = rest

/-- A shift that finds P.avail = 0 and PQ empty stalls: RGB = 0, P waits in RUN for the next tick, UNDERFLOW with the tick
number enters the history (log 14). When a line starts in that tick, the start still takes effect: P is in RUN with its count,
and AWF is cleared, to be 1 after the tick only if V sets it in this same tick (R165). -/
def Obligations.UnderflowStalls : Prop :=
  ∀ s : State, s.p.avail = 0 → s.pq = [] →
    (s.p.phase = .run → s.tick.p = s.p ∧ s.tick.pins.rgb = 0 ∧ s.tick.history = s.history ++ [.underflow s.tickNo]) ∧
    (s.p.phase = .wait → s.awf = true →
      s.tick.p = { s.p with phase := .run, cnt := s.p.par } ∧ s.tick.pins.rgb = 0 ∧
      s.tick.history = s.history ++ [.underflow s.tickNo] ∧
      (s.tick.awf = true ↔ (s.h.phase = .bp ∧ s.h.cnt = 0) ∧ s.tick.v.phase = .active))

/-! ### Reset and the invariants -/

/-- The RESET step gives every piece of block state its reset value and leaves memory, the platform, the host's side
and the ghost fields alone (log 20); the value 0 of the engine's latched base is the model's (log 27) (R300 to R302, R64,
R272). -/
def Obligations.ResetStepGivesResetState : Prop :=
  ∀ s : State,
    s.resetBlock = { s with
      regs := { fbBaseHi := 0, hActiveM1 := 639, vActiveM1 := 479, cmdB := 0 }
      flags := { cmdBusyErr := false, cmdOpErr := false, coordErr := false, seqErr := false }
      run := false
      h := { phase := .idle, cnt := 0, par := 0 }, v := { phase := .idle, cnt := 0, par := 0 }
      p := { phase := .idle, cnt := 0, par := 0, osr := 0, avail := 0 }
      awf := false, hq := [], vq := [], pq := [], ch0 := { busy := false, raddr := 0, count := 0 }
      ch0StuckLatch := false, ch1Busy := false, eng := { ops := [], phase2 := false, tmp := 0 }, engBase := 0
      pins := { hsync := !s.platform.hsyncActive, vsync := !s.platform.vsyncActive, rgb := 0 } } ∧
    s.resetBlock.readReg 0x00 = 0 ∧ s.resetBlock.readReg 0x04 = 0 ∧ s.resetBlock.readReg 0x20 = 0

/-- While the scanout is stopped, the engine idle and the pins at their inactive levels, as RESET leaves them, nothing happens:
a step of a block agent, or of a host with no step to come, answers the state itself, but for the turn it used up and the ghost
tick number (R301). That an agent with nothing to do passes its turn is the model's choice (log 2), and so are the turns
(log 1). -/
def Obligations.NothingHappensBeforeTheFirstCommand : Prop :=
  ∀ s : State, s.Stopped → s.eng.ops = [] →
    s.pins = { hsync := !s.platform.hsyncActive, vsync := !s.platform.vsyncActive, rgb := 0 } →
    Turn.ofBlock s.nextAgent = true ∨ (s.nextAgent = .host ∧ s.program = []) →
    ∃ t, step s = .next t ∧ t = { s with turns := s.turns.tail, freeTurns := t.freeTurns, tickNo := t.tickNo } ∧
      (s.nextAgent ≠ .tick → t.tickNo = s.tickNo)

/-- Power-on with any platform and any canonical memory meets the three invariants; the model's own fields start empty
(logs 4, 6) (R64, R302). -/
def Obligations.PowerOnMeetsInvariants : Prop :=
  ∀ (pl : Platform) (m : Memory), m.wf = true →
    (State.powerOn pl m).MemInv ∧ (State.powerOn pl m).EngInv ∧ (State.powerOn pl m).ScanInv

/-- Every step keeps memory in the model's canonical form (log 4). -/
def Obligations.StepKeepsMemInv : Prop :=
  ∀ s t : State, s.MemInv → step s = .next t → t.MemInv

/-- Every step keeps the engine's invariant: micro-ops are aligned, RMW masks stay in bits 29:0, WRs write fill words, every
micro-op is on a word of the framebuffer at the base the engine latched, and phase2 = 1 only on an RMW (R58, R81, R92, R231). -/
def Obligations.StepKeepsEngInv : Prop :=
  ∀ s t : State, s.EngInv → step s = .next t → t.EngInv

/-- Every step keeps the scanout's invariant: PQ within FIFO_DEPTH, P.avail within 10, the counters within their phase,
everything idle and empty while RUN = 0, and while RUN = 1 no sequencer idle and exactly one channel busy (R52, R54, R55,
R151, R168, R194). -/
def Obligations.StepKeepsScanInv : Prop :=
  ∀ s t : State, s.ScanInv → step s = .next t → t.ScanInv

/-- No block agent changes a register the host stores, an error flag, RUN or the platform; only ENG of them changes memory. So
once the host program has ended, its end state lasts: every step but RESET leaves memory, the stored registers, the flags and RUN
as they are (R37, R59, R97, R314). -/
def Obligations.BlockAgentsKeepRegistersAndFlags : Prop :=
  (∀ (s t : State) (u : Turn), Turn.ofBlock u = true → s.takeTurn u = .next t →
    t.regs = s.regs ∧ t.flags = s.flags ∧ t.run = s.run ∧ t.platform = s.platform ∧ t.program = s.program ∧
    t.hostRead = s.hostRead ∧ t.engBase = s.engBase ∧ (u ≠ .eng → t.mem = s.mem ∧ t.eng = s.eng)) ∧
  (∀ s : State, s.Ended → s.nextAgent ≠ .reset → ∃ t, step s = .next t ∧ t.Ended ∧ t.mem = s.mem ∧ t.regs = s.regs ∧
    t.flags = s.flags ∧ t.run = s.run)
end

