-- ==== Sys2Proof/Laws/Memory.lean ====
section
/-! SUPPORT. The laws of memory: a read after a write, everything else left alone, the canonical form kept, and equal
contents are equal data. -/

namespace Sys2Proof.Machine

theorem Memory.get_erase (m : Memory) (a x : Nat) :
    (m.erase a).get x = if x = a then unlistedByte else m.get x := by
  induction m with
  | nil => simp [Memory.erase, Memory.get]
  | cons e rest ih =>
    obtain ⟨k, v⟩ := e
    by_cases hk : k = a
    · subst hk
      by_cases hx : x = k
      · subst hx; simp [Memory.erase, ih]
      · simp [Memory.erase, ih, hx, Memory.get, Ne.symm hx]
    · by_cases hx : k = x
      · subst hx; simp [Memory.erase, hk, Memory.get]
      · simp [Memory.erase, hk, Memory.get, hx, ih]

theorem Memory.get_insert (m : Memory) (a x : Nat) (b : Byte) (h : x = a → m.get x = unlistedByte) (hm : ∀ v, (a, v) ∉ m) :
    (m.insert a b).get x = if x = a then b else m.get x := by
  induction m with
  | nil =>
    by_cases hx : x = a
    · simp [Memory.insert, Memory.get, hx]
    · simp [Memory.insert, Memory.get, hx, Ne.symm hx]
  | cons e rest ih =>
    obtain ⟨k, v⟩ := e
    have hka : k ≠ a := fun e => hm v (by simp [e])
    by_cases hlt : a < k
    · by_cases hx : x = a
      · subst hx; simp [Memory.insert, hlt, Memory.get]
      · simp [Memory.insert, hlt, Memory.get, hx, Ne.symm hx]
    · by_cases hx : k = x
      · subst hx; simp [Memory.insert, hlt, Memory.get, hka]
      · have := ih (fun e => by simpa [Memory.get, hx] using h e) (fun v hv => hm v (by simp [hv]))
        simp [Memory.insert, hlt, Memory.get, hx, this]

theorem Memory.not_mem_erase (m : Memory) (a : Nat) (v : Byte) : (a, v) ∉ m.erase a := by
  induction m with
  | nil => simp [Memory.erase]
  | cons e rest ih =>
    obtain ⟨k, w⟩ := e
    by_cases hk : k = a
    · simp [Memory.erase, hk, ih]
    · simp [Memory.erase, hk, ih, Ne.symm hk]

/-- A byte read after a byte write: the written value at its address, the old value elsewhere. -/
theorem Memory.get_set (m : Memory) (a x : Nat) (b : Byte) :
    (m.set a b).get x = if x = a then b else m.get x := by
  unfold Memory.set
  by_cases hb : b = unlistedByte
  · simp [hb, Memory.get_erase]
  · rw [if_neg hb, Memory.get_insert _ _ _ _ (fun e => by simp [Memory.get_erase, e]) (Memory.not_mem_erase m a),
      Memory.get_erase]
    split <;> rfl

@[simp] theorem Memory.get_set_same (m : Memory) (a : Nat) (b : Byte) : (m.set a b).get a = b := by
  simp [Memory.get_set]

theorem Memory.get_set_other (m : Memory) {a x : Nat} (b : Byte) (h : x ≠ a) : (m.set a b).get x = m.get x := by
  simp [Memory.get_set, h]

theorem Memory.above_trans {m : Memory} {j k : Nat} (hjk : j ≤ k) (h : m.above k = true) : m.above j = true := by
  cases m with
  | nil => rfl
  | cons e rest => obtain ⟨a, b⟩ := e; simp [Memory.above] at h ⊢; omega

theorem Memory.wf_cons {k : Nat} {v : Byte} {rest : Memory} :
    Memory.wf ((k, v) :: rest) = true ↔ k < 2 ^ 32 ∧ v ≠ unlistedByte ∧ Memory.above k rest = true ∧ Memory.wf rest = true := by
  simp [Memory.wf, and_assoc]

theorem Memory.erase_wf {m : Memory} (a : Nat) (h : m.wf = true) :
    (m.erase a).wf = true ∧ ∀ k, m.above k = true → (m.erase a).above k = true := by
  induction m with
  | nil => simp [Memory.erase, Memory.wf]
  | cons e rest ih =>
    obtain ⟨k, v⟩ := e
    obtain ⟨hk, hv, ha, hr⟩ := Memory.wf_cons.mp h
    obtain ⟨iw, ia⟩ := ih hr
    by_cases hka : k = a
    · refine ⟨by simpa [Memory.erase, hka] using iw, fun j hj => ?_⟩
      have hjk : j < k := by simpa [Memory.above] using hj
      simpa [Memory.erase, hka] using ia j (Memory.above_trans (by omega) ha)
    · refine ⟨?_, fun j hj => by simpa [Memory.erase, hka, Memory.above] using hj⟩
      simpa [Memory.erase, hka] using Memory.wf_cons.mpr ⟨hk, hv, ia k ha, iw⟩

theorem Memory.insert_wf {m : Memory} {a : Nat} {b : Byte} (ha : a < 2 ^ 32) (hb : b ≠ unlistedByte) (hm : ∀ v, (a, v) ∉ m)
    (h : m.wf = true) : (m.insert a b).wf = true ∧ ∀ k, k < a → m.above k = true → (m.insert a b).above k = true := by
  induction m with
  | nil => exact ⟨Memory.wf_cons.mpr ⟨ha, hb, rfl, rfl⟩, fun k hk _ => by simpa [Memory.insert, Memory.above] using hk⟩
  | cons e rest ih =>
    obtain ⟨j, v⟩ := e
    obtain ⟨hj, hv, hab, hr⟩ := Memory.wf_cons.mp h
    have hja : j ≠ a := fun e => hm v (by simp [e])
    by_cases hlt : a < j
    · refine ⟨?_, fun k hk _ => by simpa [Memory.insert, hlt, Memory.above] using hk⟩
      simpa [Memory.insert, hlt] using Memory.wf_cons.mpr ⟨ha, hb, by simpa [Memory.above] using hlt, h⟩
    · obtain ⟨iw, ia⟩ := ih (fun v hv => hm v (by simp [hv])) hr
      refine ⟨?_, fun k _ hk => by simpa [Memory.insert, hlt, Memory.above] using hk⟩
      simpa [Memory.insert, hlt] using Memory.wf_cons.mpr ⟨hj, hv, ia j (by omega) hab, iw⟩

/-- A byte write keeps the canonical form. -/
theorem Memory.set_wf {m : Memory} {a : Nat} (b : Byte) (ha : a < 2 ^ 32) (h : m.wf = true) : (m.set a b).wf = true := by
  unfold Memory.set
  split
  · exact (Memory.erase_wf a h).1
  · exact (Memory.insert_wf ha ‹_› (Memory.not_mem_erase m a) (Memory.erase_wf a h).1).1

/-- A word write keeps the canonical form. -/
theorem Memory.writeWord_wf {m : Memory} (a v : Word) (h : m.wf = true) : (m.writeWord a v).wf = true := by
  unfold Memory.writeWord
  exact Memory.set_wf _ (a + 3).isLt (Memory.set_wf _ (a + 2).isLt (Memory.set_wf _ (a + 1).isLt (Memory.set_wf _ a.isLt h)))

theorem Memory.get_of_above {m : Memory} {k : Nat} (hw : m.wf = true) (h : m.above k = true) : m.get k = unlistedByte := by
  induction m with
  | nil => rfl
  | cons e rest ih =>
    obtain ⟨a, b⟩ := e
    obtain ⟨-, -, ha, hr⟩ := Memory.wf_cons.mp hw
    have hk : k < a := by simpa [Memory.above] using h
    rw [Memory.get, if_neg (by omega)]
    exact ih hr (Memory.above_trans (by omega) ha)

/-- Equal contents in canonical form are equal data. -/
theorem Memory.ext_of_wf {m n : Memory} (hm : m.wf = true) (hn : n.wf = true) (h : ∀ a, m.get a = n.get a) : m = n := by
  induction m generalizing n with
  | nil =>
    cases n with
    | nil => rfl
    | cons e rest =>
      obtain ⟨k, v⟩ := e
      exact absurd (by simpa [Memory.get] using (h k).symm) (Memory.wf_cons.mp hn).2.1
  | cons e rest ih =>
    obtain ⟨k, v⟩ := e
    obtain ⟨-, hv, ha, hr⟩ := Memory.wf_cons.mp hm
    cases n with
    | nil => exact absurd (by simpa [Memory.get] using h k) hv
    | cons e' rest' =>
      obtain ⟨k', v'⟩ := e'
      obtain ⟨-, hv', ha', hr'⟩ := Memory.wf_cons.mp hn
      have hkk : k = k' := by
        rcases Nat.lt_trichotomy k k' with hlt | heq | hgt
        · have := h k
          rw [Memory.get_of_above hn (by simpa [Memory.above] using hlt)] at this
          exact absurd (by simpa [Memory.get] using this) hv
        · exact heq
        · have := h k'
          rw [Memory.get_of_above hm (by simpa [Memory.above] using hgt)] at this
          exact absurd (by simpa [Memory.get] using this.symm) hv'
      subst hkk
      have hvv : v = v' := by simpa [Memory.get] using h k
      subst hvv
      have : rest = rest' := ih hr hr' fun a => by
        by_cases hka : k = a
        · subst hka; rw [Memory.get_of_above hr ha, Memory.get_of_above hr' ha']
        · simpa [Memory.get, hka] using h a
      rw [this]

/-- A byte read after a word write: a byte of the word at its four addresses, the old byte elsewhere. -/
theorem Memory.get_writeWord (m : Memory) (a v : Word) (x : Nat) :
    (m.writeWord a v).get x =
      if x = (a + 3).toNat then v.extractLsb' 24 8
      else if x = (a + 2).toNat then v.extractLsb' 16 8
      else if x = (a + 1).toNat then v.extractLsb' 8 8
      else if x = a.toNat then v.extractLsb' 0 8
      else m.get x := by
  simp only [Memory.writeWord, Memory.get_set]

theorem toNat_add_ne {a : Word} {i j : Word} (h : i ≠ j) : (a + i).toNat ≠ (a + j).toNat :=
  fun e => h (by simpa using BitVec.eq_of_toNat_eq e)

theorem toNat_ne_add {a : Word} {j : Word} (h : 0 ≠ j) : a.toNat ≠ (a + j).toNat := by
  simpa using toNat_add_ne (a := a) h

theorem bytes_join (v : Word) :
    v.extractLsb' 24 8 ++ v.extractLsb' 16 8 ++ v.extractLsb' 8 8 ++ v.extractLsb' 0 8 = v := by
  apply BitVec.eq_of_getLsbD_eq
  intro i hi
  simp only [BitVec.getLsbD_append, BitVec.getLsbD_extractLsb']
  have : i < 8 ∨ (8 ≤ i ∧ i < 16) ∨ (16 ≤ i ∧ i < 24) ∨ (24 ≤ i ∧ i < 32) := by omega
  rcases this with h | h | h | h
  · simp [h]
  · simp [show ¬ i < 8 from by omega, show i - 8 < 8 from by omega, show 8 + (i - 8) = i from by omega]
  · simp [show ¬ i < 8 from by omega, show ¬ i - 8 < 8 from by omega, show i - 8 - 8 < 8 from by omega,
      show 16 + (i - 8 - 8) = i from by omega]
  · simp [show ¬ i < 8 from by omega, show ¬ i - 8 < 8 from by omega, show ¬ i - 8 - 8 < 8 from by omega,
      show i - 8 - 8 - 8 < 8 from by omega, show 24 + (i - 8 - 8 - 8) = i from by omega]

/-- A word read gives the word last written there. -/
@[simp] theorem Memory.readWord_writeWord_same (m : Memory) (a v : Word) : (m.writeWord a v).readWord a = v := by
  have h1 : a.toNat ≠ (a + 1).toNat := toNat_ne_add (by decide)
  have h2 : a.toNat ≠ (a + 2).toNat := toNat_ne_add (by decide)
  have h3 : a.toNat ≠ (a + 3).toNat := toNat_ne_add (by decide)
  have h12 : (a + 1).toNat ≠ (a + 2).toNat := toNat_add_ne (by decide)
  have h13 : (a + 1).toNat ≠ (a + 3).toNat := toNat_add_ne (by decide)
  have h23 : (a + 2).toNat ≠ (a + 3).toNat := toNat_add_ne (by decide)
  simp only [Memory.readWord, Memory.get_writeWord, h1, h2, h3, h12, h13, h23, if_true, if_false]
  exact bytes_join v

/-- A word read at another aligned address does not see the write. -/
theorem Memory.readWord_writeWord_other (m : Memory) {a b : Word} (v : Word) (ha : a.extractLsb' 0 2 = 0#2)
    (hb : b.extractLsb' 0 2 = 0#2) (h : b ≠ a) : (m.writeWord a v).readWord b = m.readWord b := by
  have hne : b.toNat ≠ a.toNat := fun e => h (BitVec.eq_of_toNat_eq e)
  have ha4 : a.toNat % 4 = 0 := by simpa [BitVec.extractLsb'] using congrArg BitVec.toNat ha
  have hb4 : b.toNat % 4 = 0 := by simpa [BitVec.extractLsb'] using congrArg BitVec.toNat hb
  have key : ∀ i j : Nat, i < 4 → j < 4 → (b + BitVec.ofNat 32 i).toNat ≠ (a + BitVec.ofNat 32 j).toNat := by
    intro i j hi hj
    have := a.isLt; have := b.isLt
    simp only [BitVec.toNat_add, BitVec.toNat_ofNat]
    omega
  have b0 : b.toNat = (b + BitVec.ofNat 32 0).toNat := by simp
  have a0 : a.toNat = (a + BitVec.ofNat 32 0).toNat := by simp
  have step : ∀ i : Nat, i < 4 → (m.writeWord a v).get (b + BitVec.ofNat 32 i).toNat = m.get (b + BitVec.ofNat 32 i).toNat := by
    intro i hi
    have e3 : (b + BitVec.ofNat 32 i).toNat ≠ (a + 3).toNat := key i 3 hi (by omega)
    have e2 : (b + BitVec.ofNat 32 i).toNat ≠ (a + 2).toNat := key i 2 hi (by omega)
    have e1 : (b + BitVec.ofNat 32 i).toNat ≠ (a + 1).toNat := key i 1 hi (by omega)
    have e0 : (b + BitVec.ofNat 32 i).toNat ≠ a.toNat := a0 ▸ key i 0 hi (by omega)
    rw [Memory.get_writeWord, if_neg e3, if_neg e2, if_neg e1, if_neg e0]
  have s0 := step 0 (by omega)
  rw [← b0] at s0
  rw [Memory.readWord, Memory.readWord]
  exact congr (congrArg _ (congr (congrArg _ (congr (congrArg _ (step 3 (by omega))) (step 2 (by omega)))) (step 1 (by omega)))) s0

end Sys2Proof.Machine
end

