-- ==== Sys2Proof/Laws/State.lean ====
section
/-! SUPPORT. What each named update of the state leaves in each field, one lemma per field per update, true by definition, so
that no later proof unfolds a record update. -/

namespace Sys2Proof.Machine

variable (s : State)

/-! ### raise -/

@[simp] theorem State.raise_regs (c : ErrCause) : (s.raise c).regs = s.regs := rfl
@[simp] theorem State.raise_flags (c : ErrCause) : (s.raise c).flags = s.flags.setCause c := rfl
@[simp] theorem State.raise_run (c : ErrCause) : (s.raise c).run = s.run := rfl
@[simp] theorem State.raise_h (c : ErrCause) : (s.raise c).h = s.h := rfl
@[simp] theorem State.raise_v (c : ErrCause) : (s.raise c).v = s.v := rfl
@[simp] theorem State.raise_p (c : ErrCause) : (s.raise c).p = s.p := rfl
@[simp] theorem State.raise_awf (c : ErrCause) : (s.raise c).awf = s.awf := rfl
@[simp] theorem State.raise_hq (c : ErrCause) : (s.raise c).hq = s.hq := rfl
@[simp] theorem State.raise_vq (c : ErrCause) : (s.raise c).vq = s.vq := rfl
@[simp] theorem State.raise_pq (c : ErrCause) : (s.raise c).pq = s.pq := rfl
@[simp] theorem State.raise_ch0 (c : ErrCause) : (s.raise c).ch0 = s.ch0 := rfl
@[simp] theorem State.raise_ch0StuckLatch (c : ErrCause) : (s.raise c).ch0StuckLatch = s.ch0StuckLatch := rfl
@[simp] theorem State.raise_ch1Busy (c : ErrCause) : (s.raise c).ch1Busy = s.ch1Busy := rfl
@[simp] theorem State.raise_eng (c : ErrCause) : (s.raise c).eng = s.eng := rfl
@[simp] theorem State.raise_engBase (c : ErrCause) : (s.raise c).engBase = s.engBase := rfl
@[simp] theorem State.raise_pins (c : ErrCause) : (s.raise c).pins = s.pins := rfl
@[simp] theorem State.raise_mem (c : ErrCause) : (s.raise c).mem = s.mem := rfl
@[simp] theorem State.raise_platform (c : ErrCause) : (s.raise c).platform = s.platform := rfl
@[simp] theorem State.raise_turns (c : ErrCause) : (s.raise c).turns = s.turns := rfl
@[simp] theorem State.raise_freeTurns (c : ErrCause) : (s.raise c).freeTurns = s.freeTurns := rfl
@[simp] theorem State.raise_program (c : ErrCause) : (s.raise c).program = s.program := rfl
@[simp] theorem State.raise_hostRead (c : ErrCause) : (s.raise c).hostRead = s.hostRead := rfl
@[simp] theorem State.raise_tickNo (c : ErrCause) : (s.raise c).tickNo = s.tickNo := rfl
@[simp] theorem State.raise_history (c : ErrCause) : (s.raise c).history = s.history := rfl

/-! ### triggerCh0 -/

@[simp] theorem State.triggerCh0_regs (v : Word) : (s.triggerCh0 v).regs = s.regs := rfl
@[simp] theorem State.triggerCh0_flags (v : Word) : (s.triggerCh0 v).flags = s.flags := rfl
@[simp] theorem State.triggerCh0_run (v : Word) : (s.triggerCh0 v).run = s.run := rfl
@[simp] theorem State.triggerCh0_h (v : Word) : (s.triggerCh0 v).h = s.h := rfl
@[simp] theorem State.triggerCh0_v (v : Word) : (s.triggerCh0 v).v = s.v := rfl
@[simp] theorem State.triggerCh0_p (v : Word) : (s.triggerCh0 v).p = s.p := rfl
@[simp] theorem State.triggerCh0_awf (v : Word) : (s.triggerCh0 v).awf = s.awf := rfl
@[simp] theorem State.triggerCh0_hq (v : Word) : (s.triggerCh0 v).hq = s.hq := rfl
@[simp] theorem State.triggerCh0_vq (v : Word) : (s.triggerCh0 v).vq = s.vq := rfl
@[simp] theorem State.triggerCh0_pq (v : Word) : (s.triggerCh0 v).pq = s.pq := rfl
@[simp] theorem State.triggerCh0_ch0 (v : Word) : (s.triggerCh0 v).ch0 = { busy := true, raddr := v &&& 0xFFFFFFFC, count := BitVec.ofNat 32 fbWords } := rfl
@[simp] theorem State.triggerCh0_ch0StuckLatch (v : Word) : (s.triggerCh0 v).ch0StuckLatch = s.ch0Stuck := rfl
@[simp] theorem State.triggerCh0_ch1Busy (v : Word) : (s.triggerCh0 v).ch1Busy = s.ch1Busy := rfl
@[simp] theorem State.triggerCh0_eng (v : Word) : (s.triggerCh0 v).eng = s.eng := rfl
@[simp] theorem State.triggerCh0_engBase (v : Word) : (s.triggerCh0 v).engBase = s.engBase := rfl
@[simp] theorem State.triggerCh0_pins (v : Word) : (s.triggerCh0 v).pins = s.pins := rfl
@[simp] theorem State.triggerCh0_mem (v : Word) : (s.triggerCh0 v).mem = s.mem := rfl
@[simp] theorem State.triggerCh0_platform (v : Word) : (s.triggerCh0 v).platform = s.platform := rfl
@[simp] theorem State.triggerCh0_turns (v : Word) : (s.triggerCh0 v).turns = s.turns := rfl
@[simp] theorem State.triggerCh0_freeTurns (v : Word) : (s.triggerCh0 v).freeTurns = s.freeTurns := rfl
@[simp] theorem State.triggerCh0_program (v : Word) : (s.triggerCh0 v).program = s.program := rfl
@[simp] theorem State.triggerCh0_hostRead (v : Word) : (s.triggerCh0 v).hostRead = s.hostRead := rfl
@[simp] theorem State.triggerCh0_tickNo (v : Word) : (s.triggerCh0 v).tickNo = s.tickNo := rfl
@[simp] theorem State.triggerCh0_history (v : Word) : (s.triggerCh0 v).history = s.history := rfl

/-! ### loadEngine -/

@[simp] theorem State.loadEngine_regs (ops : List MicroOp) : (s.loadEngine ops).regs = s.regs := rfl
@[simp] theorem State.loadEngine_flags (ops : List MicroOp) : (s.loadEngine ops).flags = s.flags := rfl
@[simp] theorem State.loadEngine_run (ops : List MicroOp) : (s.loadEngine ops).run = s.run := rfl
@[simp] theorem State.loadEngine_h (ops : List MicroOp) : (s.loadEngine ops).h = s.h := rfl
@[simp] theorem State.loadEngine_v (ops : List MicroOp) : (s.loadEngine ops).v = s.v := rfl
@[simp] theorem State.loadEngine_p (ops : List MicroOp) : (s.loadEngine ops).p = s.p := rfl
@[simp] theorem State.loadEngine_awf (ops : List MicroOp) : (s.loadEngine ops).awf = s.awf := rfl
@[simp] theorem State.loadEngine_hq (ops : List MicroOp) : (s.loadEngine ops).hq = s.hq := rfl
@[simp] theorem State.loadEngine_vq (ops : List MicroOp) : (s.loadEngine ops).vq = s.vq := rfl
@[simp] theorem State.loadEngine_pq (ops : List MicroOp) : (s.loadEngine ops).pq = s.pq := rfl
@[simp] theorem State.loadEngine_ch0 (ops : List MicroOp) : (s.loadEngine ops).ch0 = s.ch0 := rfl
@[simp] theorem State.loadEngine_ch0StuckLatch (ops : List MicroOp) : (s.loadEngine ops).ch0StuckLatch = s.ch0StuckLatch := rfl
@[simp] theorem State.loadEngine_ch1Busy (ops : List MicroOp) : (s.loadEngine ops).ch1Busy = s.ch1Busy := rfl
@[simp] theorem State.loadEngine_eng (ops : List MicroOp) : (s.loadEngine ops).eng = { s.eng with ops := ops, phase2 := false } := rfl
@[simp] theorem State.loadEngine_engBase (ops : List MicroOp) : (s.loadEngine ops).engBase = s.fbBase := rfl
@[simp] theorem State.loadEngine_pins (ops : List MicroOp) : (s.loadEngine ops).pins = s.pins := rfl
@[simp] theorem State.loadEngine_mem (ops : List MicroOp) : (s.loadEngine ops).mem = s.mem := rfl
@[simp] theorem State.loadEngine_platform (ops : List MicroOp) : (s.loadEngine ops).platform = s.platform := rfl
@[simp] theorem State.loadEngine_turns (ops : List MicroOp) : (s.loadEngine ops).turns = s.turns := rfl
@[simp] theorem State.loadEngine_freeTurns (ops : List MicroOp) : (s.loadEngine ops).freeTurns = s.freeTurns := rfl
@[simp] theorem State.loadEngine_program (ops : List MicroOp) : (s.loadEngine ops).program = s.program := rfl
@[simp] theorem State.loadEngine_hostRead (ops : List MicroOp) : (s.loadEngine ops).hostRead = s.hostRead := rfl
@[simp] theorem State.loadEngine_tickNo (ops : List MicroOp) : (s.loadEngine ops).tickNo = s.tickNo := rfl
@[simp] theorem State.loadEngine_history (ops : List MicroOp) : (s.loadEngine ops).history = s.history := rfl

/-! ### gotRead -/

@[simp] theorem State.gotRead_regs (v : Word) : (s.gotRead v).regs = s.regs := rfl
@[simp] theorem State.gotRead_flags (v : Word) : (s.gotRead v).flags = s.flags := rfl
@[simp] theorem State.gotRead_run (v : Word) : (s.gotRead v).run = s.run := rfl
@[simp] theorem State.gotRead_h (v : Word) : (s.gotRead v).h = s.h := rfl
@[simp] theorem State.gotRead_v (v : Word) : (s.gotRead v).v = s.v := rfl
@[simp] theorem State.gotRead_p (v : Word) : (s.gotRead v).p = s.p := rfl
@[simp] theorem State.gotRead_awf (v : Word) : (s.gotRead v).awf = s.awf := rfl
@[simp] theorem State.gotRead_hq (v : Word) : (s.gotRead v).hq = s.hq := rfl
@[simp] theorem State.gotRead_vq (v : Word) : (s.gotRead v).vq = s.vq := rfl
@[simp] theorem State.gotRead_pq (v : Word) : (s.gotRead v).pq = s.pq := rfl
@[simp] theorem State.gotRead_ch0 (v : Word) : (s.gotRead v).ch0 = s.ch0 := rfl
@[simp] theorem State.gotRead_ch0StuckLatch (v : Word) : (s.gotRead v).ch0StuckLatch = s.ch0StuckLatch := rfl
@[simp] theorem State.gotRead_ch1Busy (v : Word) : (s.gotRead v).ch1Busy = s.ch1Busy := rfl
@[simp] theorem State.gotRead_eng (v : Word) : (s.gotRead v).eng = s.eng := rfl
@[simp] theorem State.gotRead_engBase (v : Word) : (s.gotRead v).engBase = s.engBase := rfl
@[simp] theorem State.gotRead_pins (v : Word) : (s.gotRead v).pins = s.pins := rfl
@[simp] theorem State.gotRead_mem (v : Word) : (s.gotRead v).mem = s.mem := rfl
@[simp] theorem State.gotRead_platform (v : Word) : (s.gotRead v).platform = s.platform := rfl
@[simp] theorem State.gotRead_turns (v : Word) : (s.gotRead v).turns = s.turns := rfl
@[simp] theorem State.gotRead_freeTurns (v : Word) : (s.gotRead v).freeTurns = s.freeTurns := rfl
@[simp] theorem State.gotRead_program (v : Word) : (s.gotRead v).program = s.program := rfl
@[simp] theorem State.gotRead_hostRead (v : Word) : (s.gotRead v).hostRead = some v := rfl
@[simp] theorem State.gotRead_tickNo (v : Word) : (s.gotRead v).tickNo = s.tickNo := rfl
@[simp] theorem State.gotRead_history (v : Word) : (s.gotRead v).history = s.history := rfl

/-! ### arm -/

@[simp] theorem State.arm_regs : (s.arm).regs = s.regs := rfl
@[simp] theorem State.arm_flags : (s.arm).flags = s.flags := rfl
@[simp] theorem State.arm_run : (s.arm).run = true := rfl
@[simp] theorem State.arm_h : (s.arm).h = { s.h with phase := .param } := rfl
@[simp] theorem State.arm_v : (s.arm).v = { s.v with phase := .param } := rfl
@[simp] theorem State.arm_p : (s.arm).p = { s.p with phase := .param } := rfl
@[simp] theorem State.arm_awf : (s.arm).awf = s.awf := rfl
@[simp] theorem State.arm_hq : (s.arm).hq = s.hq ++ [s.regs.hActiveM1] := rfl
@[simp] theorem State.arm_vq : (s.arm).vq = s.vq ++ [s.regs.vActiveM1] := rfl
@[simp] theorem State.arm_pq : (s.arm).pq = s.pq ++ [s.regs.hActiveM1] := rfl
@[simp] theorem State.arm_ch0 : (s.arm).ch0 = { busy := true, raddr := s.fbBase &&& 0xFFFFFFFC, count := BitVec.ofNat 32 fbWords } := rfl
@[simp] theorem State.arm_ch0StuckLatch : (s.arm).ch0StuckLatch = s.ch0Stuck := rfl
@[simp] theorem State.arm_ch1Busy : (s.arm).ch1Busy = s.ch1Busy := rfl
@[simp] theorem State.arm_eng : (s.arm).eng = s.eng := rfl
@[simp] theorem State.arm_engBase : (s.arm).engBase = s.engBase := rfl
@[simp] theorem State.arm_pins : (s.arm).pins = s.pins := rfl
@[simp] theorem State.arm_mem : (s.arm).mem = s.mem := rfl
@[simp] theorem State.arm_platform : (s.arm).platform = s.platform := rfl
@[simp] theorem State.arm_turns : (s.arm).turns = s.turns := rfl
@[simp] theorem State.arm_freeTurns : (s.arm).freeTurns = s.freeTurns := rfl
@[simp] theorem State.arm_program : (s.arm).program = s.program := rfl
@[simp] theorem State.arm_hostRead : (s.arm).hostRead = s.hostRead := rfl
@[simp] theorem State.arm_tickNo : (s.arm).tickNo = 0 := rfl
@[simp] theorem State.arm_history : (s.arm).history = s.history := rfl

/-! ### disarm -/

@[simp] theorem State.disarm_regs : (s.disarm).regs = s.regs := rfl
@[simp] theorem State.disarm_flags : (s.disarm).flags = s.flags := rfl
@[simp] theorem State.disarm_run : (s.disarm).run = false := rfl
@[simp] theorem State.disarm_h : (s.disarm).h = { s.h with phase := .idle } := rfl
@[simp] theorem State.disarm_v : (s.disarm).v = { s.v with phase := .idle } := rfl
@[simp] theorem State.disarm_p : (s.disarm).p = { s.p with phase := .idle, avail := 0 } := rfl
@[simp] theorem State.disarm_awf : (s.disarm).awf = false := rfl
@[simp] theorem State.disarm_hq : (s.disarm).hq = [] := rfl
@[simp] theorem State.disarm_vq : (s.disarm).vq = [] := rfl
@[simp] theorem State.disarm_pq : (s.disarm).pq = [] := rfl
@[simp] theorem State.disarm_ch0 : (s.disarm).ch0 = { s.ch0 with busy := false, count := 0 } := rfl
@[simp] theorem State.disarm_ch0StuckLatch : (s.disarm).ch0StuckLatch = s.ch0Stuck := rfl
@[simp] theorem State.disarm_ch1Busy : (s.disarm).ch1Busy = false := rfl
@[simp] theorem State.disarm_eng : (s.disarm).eng = s.eng := rfl
@[simp] theorem State.disarm_engBase : (s.disarm).engBase = s.engBase := rfl
@[simp] theorem State.disarm_pins : (s.disarm).pins = s.pins := rfl
@[simp] theorem State.disarm_mem : (s.disarm).mem = s.mem := rfl
@[simp] theorem State.disarm_platform : (s.disarm).platform = s.platform := rfl
@[simp] theorem State.disarm_turns : (s.disarm).turns = s.turns := rfl
@[simp] theorem State.disarm_freeTurns : (s.disarm).freeTurns = s.freeTurns := rfl
@[simp] theorem State.disarm_program : (s.disarm).program = s.program := rfl
@[simp] theorem State.disarm_hostRead : (s.disarm).hostRead = s.hostRead := rfl
@[simp] theorem State.disarm_tickNo : (s.disarm).tickNo = s.tickNo := rfl
@[simp] theorem State.disarm_history : (s.disarm).history = s.history := rfl

/-! ### ch0Transfer -/

@[simp] theorem State.ch0Transfer_regs : (s.ch0Transfer).regs = s.regs := rfl
@[simp] theorem State.ch0Transfer_flags : (s.ch0Transfer).flags = s.flags := rfl
@[simp] theorem State.ch0Transfer_run : (s.ch0Transfer).run = s.run := rfl
@[simp] theorem State.ch0Transfer_h : (s.ch0Transfer).h = s.h := rfl
@[simp] theorem State.ch0Transfer_v : (s.ch0Transfer).v = s.v := rfl
@[simp] theorem State.ch0Transfer_p : (s.ch0Transfer).p = s.p := rfl
@[simp] theorem State.ch0Transfer_awf : (s.ch0Transfer).awf = s.awf := rfl
@[simp] theorem State.ch0Transfer_hq : (s.ch0Transfer).hq = s.hq := rfl
@[simp] theorem State.ch0Transfer_vq : (s.ch0Transfer).vq = s.vq := rfl
@[simp] theorem State.ch0Transfer_pq : (s.ch0Transfer).pq = s.pq ++ [s.mem.readWord s.ch0.raddr] := rfl
@[simp] theorem State.ch0Transfer_ch0 : (s.ch0Transfer).ch0 = { busy := s.ch0.busy && !(s.ch0.count - 1 == 0), raddr := s.ch0.raddr + 4, count := s.ch0.count - 1 } := rfl
@[simp] theorem State.ch0Transfer_ch0StuckLatch : (s.ch0Transfer).ch0StuckLatch = s.ch0StuckLatch := rfl
@[simp] theorem State.ch0Transfer_ch1Busy : (s.ch0Transfer).ch1Busy = (s.ch1Busy || s.ch0.count - 1 == 0) := rfl
@[simp] theorem State.ch0Transfer_eng : (s.ch0Transfer).eng = s.eng := rfl
@[simp] theorem State.ch0Transfer_engBase : (s.ch0Transfer).engBase = s.engBase := rfl
@[simp] theorem State.ch0Transfer_pins : (s.ch0Transfer).pins = s.pins := rfl
@[simp] theorem State.ch0Transfer_mem : (s.ch0Transfer).mem = s.mem := rfl
@[simp] theorem State.ch0Transfer_platform : (s.ch0Transfer).platform = s.platform := rfl
@[simp] theorem State.ch0Transfer_turns : (s.ch0Transfer).turns = s.turns := rfl
@[simp] theorem State.ch0Transfer_freeTurns : (s.ch0Transfer).freeTurns = s.freeTurns := rfl
@[simp] theorem State.ch0Transfer_program : (s.ch0Transfer).program = s.program := rfl
@[simp] theorem State.ch0Transfer_hostRead : (s.ch0Transfer).hostRead = s.hostRead := rfl
@[simp] theorem State.ch0Transfer_tickNo : (s.ch0Transfer).tickNo = s.tickNo := rfl
@[simp] theorem State.ch0Transfer_history : (s.ch0Transfer).history = s.history := rfl

/-! ### tick -/

@[simp] theorem State.tick_regs : (s.tick).regs = s.regs := rfl
@[simp] theorem State.tick_flags : (s.tick).flags = s.flags := rfl
@[simp] theorem State.tick_run : (s.tick).run = s.run := rfl
@[simp] theorem State.tick_h : (s.tick).h = (hStep s.platform s.h s.hq).1 := rfl
@[simp] theorem State.tick_v : (s.tick).v = (vStep s.platform (lineBoundary s.h) s.v s.vq).1 := rfl
@[simp] theorem State.tick_p : (s.tick).p = (pixStep s.p s.awf s.pq).p := rfl
@[simp] theorem State.tick_awf : (s.tick).awf = ((vStep s.platform (lineBoundary s.h) s.v s.vq).2.2 || (s.awf && !(pixStep s.p s.awf s.pq).clearP)) := rfl
@[simp] theorem State.tick_hq : (s.tick).hq = (hStep s.platform s.h s.hq).2 := rfl
@[simp] theorem State.tick_vq : (s.tick).vq = (vStep s.platform (lineBoundary s.h) s.v s.vq).2.1 := rfl
@[simp] theorem State.tick_pq : (s.tick).pq = (pixStep s.p s.awf s.pq).pq := rfl
@[simp] theorem State.tick_ch0 : (s.tick).ch0 = s.ch0 := rfl
@[simp] theorem State.tick_ch0StuckLatch : (s.tick).ch0StuckLatch = s.ch0StuckLatch := rfl
@[simp] theorem State.tick_ch1Busy : (s.tick).ch1Busy = s.ch1Busy := rfl
@[simp] theorem State.tick_eng : (s.tick).eng = s.eng := rfl
@[simp] theorem State.tick_engBase : (s.tick).engBase = s.engBase := rfl
@[simp] theorem State.tick_pins : (s.tick).pins = { hsync := syncLevel s.platform.hsyncActive s.h, vsync := syncLevel s.platform.vsyncActive s.v, rgb := (pixStep s.p s.awf s.pq).rgb } := rfl
@[simp] theorem State.tick_mem : (s.tick).mem = s.mem := rfl
@[simp] theorem State.tick_platform : (s.tick).platform = s.platform := rfl
@[simp] theorem State.tick_turns : (s.tick).turns = s.turns := rfl
@[simp] theorem State.tick_freeTurns : (s.tick).freeTurns = s.freeTurns := rfl
@[simp] theorem State.tick_program : (s.tick).program = s.program := rfl
@[simp] theorem State.tick_hostRead : (s.tick).hostRead = s.hostRead := rfl
@[simp] theorem State.tick_tickNo : (s.tick).tickNo = s.tickNo + 1 := rfl
@[simp] theorem State.tick_history : (s.tick).history = (if (pixStep s.p s.awf s.pq).underflow then s.history ++ [.underflow s.tickNo] else s.history) := rfl

/-! ### resetBlock -/

@[simp] theorem State.resetBlock_regs : (s.resetBlock).regs = { fbBaseHi := 0, hActiveM1 := 639, vActiveM1 := 479, cmdB := 0 } := rfl
@[simp] theorem State.resetBlock_flags : (s.resetBlock).flags = { cmdBusyErr := false, cmdOpErr := false, coordErr := false, seqErr := false } := rfl
@[simp] theorem State.resetBlock_run : (s.resetBlock).run = false := rfl
@[simp] theorem State.resetBlock_h : (s.resetBlock).h = { phase := .idle, cnt := 0, par := 0 } := rfl
@[simp] theorem State.resetBlock_v : (s.resetBlock).v = { phase := .idle, cnt := 0, par := 0 } := rfl
@[simp] theorem State.resetBlock_p : (s.resetBlock).p = { phase := .idle, cnt := 0, par := 0, osr := 0, avail := 0 } := rfl
@[simp] theorem State.resetBlock_awf : (s.resetBlock).awf = false := rfl
@[simp] theorem State.resetBlock_hq : (s.resetBlock).hq = [] := rfl
@[simp] theorem State.resetBlock_vq : (s.resetBlock).vq = [] := rfl
@[simp] theorem State.resetBlock_pq : (s.resetBlock).pq = [] := rfl
@[simp] theorem State.resetBlock_ch0 : (s.resetBlock).ch0 = { busy := false, raddr := 0, count := 0 } := rfl
@[simp] theorem State.resetBlock_ch0StuckLatch : (s.resetBlock).ch0StuckLatch = false := rfl
@[simp] theorem State.resetBlock_ch1Busy : (s.resetBlock).ch1Busy = false := rfl
@[simp] theorem State.resetBlock_eng : (s.resetBlock).eng = { ops := [], phase2 := false, tmp := 0 } := rfl
@[simp] theorem State.resetBlock_engBase : (s.resetBlock).engBase = 0 := rfl
@[simp] theorem State.resetBlock_pins : (s.resetBlock).pins = { hsync := !s.platform.hsyncActive, vsync := !s.platform.vsyncActive, rgb := 0 } := rfl
@[simp] theorem State.resetBlock_mem : (s.resetBlock).mem = s.mem := rfl
@[simp] theorem State.resetBlock_platform : (s.resetBlock).platform = s.platform := rfl
@[simp] theorem State.resetBlock_turns : (s.resetBlock).turns = s.turns := rfl
@[simp] theorem State.resetBlock_freeTurns : (s.resetBlock).freeTurns = s.freeTurns := rfl
@[simp] theorem State.resetBlock_program : (s.resetBlock).program = s.program := rfl
@[simp] theorem State.resetBlock_hostRead : (s.resetBlock).hostRead = s.hostRead := rfl
@[simp] theorem State.resetBlock_tickNo : (s.resetBlock).tickNo = s.tickNo := rfl
@[simp] theorem State.resetBlock_history : (s.resetBlock).history = s.history := rfl

/-! ### powerOn -/

@[simp] theorem State.powerOn_regs (pl : Platform) (m : Memory) : (State.powerOn pl m).regs = { fbBaseHi := 0, hActiveM1 := 639, vActiveM1 := 479, cmdB := 0 } := rfl
@[simp] theorem State.powerOn_flags (pl : Platform) (m : Memory) : (State.powerOn pl m).flags = { cmdBusyErr := false, cmdOpErr := false, coordErr := false, seqErr := false } := rfl
@[simp] theorem State.powerOn_run (pl : Platform) (m : Memory) : (State.powerOn pl m).run = false := rfl
@[simp] theorem State.powerOn_h (pl : Platform) (m : Memory) : (State.powerOn pl m).h = { phase := .idle, cnt := 0, par := 0 } := rfl
@[simp] theorem State.powerOn_v (pl : Platform) (m : Memory) : (State.powerOn pl m).v = { phase := .idle, cnt := 0, par := 0 } := rfl
@[simp] theorem State.powerOn_p (pl : Platform) (m : Memory) : (State.powerOn pl m).p = { phase := .idle, cnt := 0, par := 0, osr := 0, avail := 0 } := rfl
@[simp] theorem State.powerOn_awf (pl : Platform) (m : Memory) : (State.powerOn pl m).awf = false := rfl
@[simp] theorem State.powerOn_hq (pl : Platform) (m : Memory) : (State.powerOn pl m).hq = [] := rfl
@[simp] theorem State.powerOn_vq (pl : Platform) (m : Memory) : (State.powerOn pl m).vq = [] := rfl
@[simp] theorem State.powerOn_pq (pl : Platform) (m : Memory) : (State.powerOn pl m).pq = [] := rfl
@[simp] theorem State.powerOn_ch0 (pl : Platform) (m : Memory) : (State.powerOn pl m).ch0 = { busy := false, raddr := 0, count := 0 } := rfl
@[simp] theorem State.powerOn_ch0StuckLatch (pl : Platform) (m : Memory) : (State.powerOn pl m).ch0StuckLatch = false := rfl
@[simp] theorem State.powerOn_ch1Busy (pl : Platform) (m : Memory) : (State.powerOn pl m).ch1Busy = false := rfl
@[simp] theorem State.powerOn_eng (pl : Platform) (m : Memory) : (State.powerOn pl m).eng = { ops := [], phase2 := false, tmp := 0 } := rfl
@[simp] theorem State.powerOn_engBase (pl : Platform) (m : Memory) : (State.powerOn pl m).engBase = 0 := rfl
@[simp] theorem State.powerOn_pins (pl : Platform) (m : Memory) : (State.powerOn pl m).pins = { hsync := !pl.hsyncActive, vsync := !pl.vsyncActive, rgb := 0 } := rfl
@[simp] theorem State.powerOn_mem (pl : Platform) (m : Memory) : (State.powerOn pl m).mem = m := rfl
@[simp] theorem State.powerOn_platform (pl : Platform) (m : Memory) : (State.powerOn pl m).platform = pl := rfl
@[simp] theorem State.powerOn_turns (pl : Platform) (m : Memory) : (State.powerOn pl m).turns = [] := rfl
@[simp] theorem State.powerOn_freeTurns (pl : Platform) (m : Memory) : (State.powerOn pl m).freeTurns = 0 := rfl
@[simp] theorem State.powerOn_program (pl : Platform) (m : Memory) : (State.powerOn pl m).program = [] := rfl
@[simp] theorem State.powerOn_hostRead (pl : Platform) (m : Memory) : (State.powerOn pl m).hostRead = none := rfl
@[simp] theorem State.powerOn_tickNo (pl : Platform) (m : Memory) : (State.powerOn pl m).tickNo = 0 := rfl
@[simp] theorem State.powerOn_history (pl : Platform) (m : Memory) : (State.powerOn pl m).history = [] := rfl

end Sys2Proof.Machine
end

