-- ==== Sys2Proof/Laws/Ops.lean ====
section
/-! SUPPORT. For each shared operation, one lemma that says once everything it can do, so that a later proof cites it and does
not unfold the operation. -/

namespace Sys2Proof.Machine

variable {s t : State}

/-! ### Commands -/

@[simp] theorem State.busy_eq_false : s.busy = false ↔ s.eng.ops = [] := by
  simp [State.busy]

@[simp] theorem State.busy_eq_true : s.busy = true ↔ s.eng.ops ≠ [] := by
  simp [State.busy]

/-- A draw command is dropped, rejected, or loaded (R230). -/
theorem State.acceptDraw_cases (s : State) (build : Word → Option (List MicroOp)) :
    (s.eng.ops ≠ [] ∧ s.acceptDraw build = s.raise .cmdBusy) ∨
    (s.eng.ops = [] ∧ build s.fbBase = none ∧ s.acceptDraw build = s.raise .coord) ∨
    (∃ ops, s.eng.ops = [] ∧ build s.fbBase = some ops ∧ s.acceptDraw build = s.loadEngine ops) := by
  by_cases hb : s.eng.ops = []
  · have hf : s.busy = false := State.busy_eq_false.mpr hb
    cases he : build s.fbBase with
    | none => exact .inr (.inl ⟨hb, rfl, by simp [State.acceptDraw, hf, he]⟩)
    | some ops => exact .inr (.inr ⟨ops, hb, rfl, by simp [State.acceptDraw, hf, he]⟩)
  · exact .inl ⟨hb, by simp [State.acceptDraw, State.busy_eq_true.mpr hb]⟩

/-- The micro-ops a draw command builds; none for the other commands. -/
def Instr.build : Instr → Option (Word → Option (List MicroOp))
  | .nop => none
  | .pixel x y c => some (buildPixel x y c)
  | .fill c => some (buildFill c)
  | .hline x1 x2 y c => some (buildHline x1 x2 y c)
  | .vline x y1 y2 c => some (buildVline x y1 y2 c)
  | .start => none
  | .stop => none

/-- Every command answers one of five kinds of next state (R210 to R213, R230, R233). -/
theorem exec_cases (i : Instr) (s : State) :
    (i = .nop ∧ exec i s = .next s) ∨
    (∃ c, exec i s = .next (s.raise c)) ∨
    (∃ build ops, Instr.build i = some build ∧ s.eng.ops = [] ∧ build s.fbBase = some ops ∧
      exec i s = .next (s.loadEngine ops)) ∨
    (i = .start ∧ s.run = false ∧ exec i s = .next s.arm) ∨
    (i = .stop ∧ s.run = true ∧ exec i s = .next s.disarm) := by
  have draw : ∀ build, Instr.build i = some build → exec i s = .next (s.acceptDraw build) →
      (∃ c, exec i s = .next (s.raise c)) ∨
      (∃ build ops, Instr.build i = some build ∧ s.eng.ops = [] ∧ build s.fbBase = some ops ∧
        exec i s = .next (s.loadEngine ops)) := by
    intro build hb he
    rcases s.acceptDraw_cases build with ⟨-, h⟩ | ⟨-, -, h⟩ | ⟨ops, h0, h1, h⟩
    · exact .inl ⟨_, h ▸ he⟩
    · exact .inl ⟨_, h ▸ he⟩
    · exact .inr ⟨build, ops, hb, h0, h1, h ▸ he⟩
  cases i with
  | nop => exact .inl ⟨rfl, rfl⟩
  | pixel x y c => exact (draw _ rfl rfl).elim (fun h => .inr (.inl h)) fun h => .inr (.inr (.inl h))
  | fill c => exact (draw _ rfl rfl).elim (fun h => .inr (.inl h)) fun h => .inr (.inr (.inl h))
  | hline x1 x2 y c => exact (draw _ rfl rfl).elim (fun h => .inr (.inl h)) fun h => .inr (.inr (.inl h))
  | vline x y1 y2 c => exact (draw _ rfl rfl).elim (fun h => .inr (.inl h)) fun h => .inr (.inr (.inl h))
  | start =>
    cases hr : s.run
    · exact .inr (.inr (.inr (.inl ⟨rfl, rfl, by simp [exec, execStart, hr]⟩)))
    · exact .inr (.inl ⟨.seq, by simp [exec, execStart, hr]⟩)
  | stop =>
    cases hr : s.run
    · exact .inr (.inl ⟨.seq, by simp [exec, execStop, hr]⟩)
    · exact .inr (.inr (.inr (.inr ⟨rfl, rfl, by simp [exec, execStop, hr]⟩)))

/-- A CMD_A write runs the decoded command, or reports a reserved opcode (R45, R125). -/
theorem State.issue_cases (s : State) (a : Word) :
    (∃ i, decode a s.cmdBWord = .ok i ∧ s.issue a = exec i s) ∨
    (∃ r, decode a s.cmdBWord = .error r ∧ s.issue a = .next (s.raise .cmdOp)) := by
  cases h : decode a s.cmdBWord with
  | ok i => exact .inl ⟨i, rfl, by simp [State.issue, h]⟩
  | error r => exact .inr ⟨r, rfl, by simp [State.issue, h]⟩

/-! ### Block agents -/

/-- CH0's turn passes, or moves one word (R191). -/
theorem State.ch0Step_cases (s : State) :
    s.ch0Step = s ∨
    (s.ch0.busy = true ∧ 0 < s.ch0.count.toNat ∧ s.pq.length < s.platform.fifoDepth ∧
      s.ch0StuckLatch = false ∧ ramWord s.platform s.ch0.raddr = true ∧ s.ch0Step = s.ch0Transfer) := by
  by_cases h : (s.ch0Ready && !s.ch0Stuck) = true
  · right
    have he : s.ch0Step = s.ch0Transfer := by simp [State.ch0Step, h]
    simp only [Bool.and_eq_true, Bool.not_eq_true'] at h
    obtain ⟨hready, hfree⟩ := h
    simp only [State.ch0Stuck, hready, Bool.true_and, Bool.or_eq_false_iff, Bool.not_eq_false'] at hfree
    simp only [State.ch0Ready, Bool.and_eq_true, decide_eq_true_eq] at hready
    obtain ⟨⟨hb, hc⟩, hq⟩ := hready
    exact ⟨hb, hc, hq, hfree.1, hfree.2, he⟩
  · exact .inl (by simp only [State.ch0Step, h]; rfl)

/-- A stuck CH0's turn passes (R272). -/
theorem State.ch0Step_of_stuck (h : s.ch0Stuck = true) : s.ch0Step = s := by
  simp [State.ch0Step, h]

/-- CH1's turn passes, or reloads CH0 (R193). -/
theorem State.ch1Step_cases (s : State) :
    (s.ch1Busy = false ∧ s.ch1Step = s) ∨
    (s.ch1Busy = true ∧ s.ch1Step = { s with ch1Busy := false }.triggerCh0 s.fbBase) := by
  cases h : s.ch1Busy <;> simp [State.ch1Step, h]

/-- ENG's turn passes, or makes one access of its head micro-op (R232). -/
theorem State.engStep_cases (s : State) :
    s.engStep = s ∨
    (∃ a v rest, s.eng.ops = .wr a v :: rest ∧ ramWord s.platform a = true ∧
      s.engStep = { s with mem := s.mem.writeWord a v, eng := { s.eng with ops := rest } }) ∨
    (∃ a m b rest, s.eng.ops = .rmw a m b :: rest ∧ ramWord s.platform a = true ∧ s.eng.phase2 = false ∧
      s.engStep = { s with eng := { s.eng with phase2 := true, tmp := s.mem.readWord a } }) ∨
    (∃ a m b rest, s.eng.ops = .rmw a m b :: rest ∧ ramWord s.platform a = true ∧ s.eng.phase2 = true ∧
      s.engStep = { s with
        mem := s.mem.writeWord a (rmwValue s.eng.tmp m b), eng := { s.eng with ops := rest, phase2 := false } }) := by
  cases ho : s.eng.ops with
  | nil => exact .inl (by simp [State.engStep, State.engAdmitted, State.engAddr, ho])
  | cons o rest =>
    cases hr : ramWord s.platform (MicroOp.addr o) with
    | false => exact .inl (by simp [State.engStep, State.engAdmitted, State.engAddr, ho, hr])
    | true =>
      right
      cases o with
      | wr a v =>
        have hr : ramWord s.platform a = true := hr
        exact .inl ⟨a, v, rest, rfl, hr, by
          simp [State.engStep, State.engAdmitted, State.engAddr, State.engAccess, MicroOp.addr, ho, hr]⟩
      | rmw a m b =>
        have hr : ramWord s.platform a = true := hr
        cases hp : s.eng.phase2 with
        | false => exact .inr (.inl ⟨a, m, b, rest, rfl, hr, rfl, by
            simp [State.engStep, State.engAdmitted, State.engAddr, State.engAccess, MicroOp.addr, ho, hr, hp]⟩)
        | true => exact .inr (.inr ⟨a, m, b, rest, rfl, hr, rfl, by
            simp [State.engStep, State.engAdmitted, State.engAddr, State.engAccess, MicroOp.addr, ho, hr, hp]⟩)

/-- One count: down by one, or into the next phase with its load (R154, R158). -/
theorem countStep_cases (load : Word → Phase → Word) (q : Seq) :
    (q.cnt = 0 ∧ countStep load q = { q with phase := nextPhase q.phase, cnt := load q.par (nextPhase q.phase) }) ∨
    (q.cnt ≠ 0 ∧ countStep load q = { q with cnt := q.cnt - 1 }) := by
  by_cases h : q.cnt = 0
  · exact .inl ⟨h, if_pos h⟩
  · exact .inr ⟨h, if_neg h⟩

/-- P's shift stalls, shifts the word it has, or pulls a word and shifts it (R163 to R165). -/
theorem pixShift_cases (p : PixSeq) (pq : List Word) (clearP : Bool) :
    (p.avail = 0 ∧ pq = [] ∧ pixShift p pq clearP = { p := p, pq := [], clearP := clearP, rgb := 0, underflow := true }) ∨
    (p.avail ≠ 0 ∧ pixShift p pq clearP =
      { p := shiftPixel p, pq := pq, clearP := clearP, rgb := p.osr.extractLsb' 0 3, underflow := false }) ∨
    (∃ w rest, p.avail = 0 ∧ pq = w :: rest ∧ pixShift p pq clearP =
      { p := shiftPixel { p with osr := w, avail := 10 }, pq := rest, clearP := clearP, rgb := w.extractLsb' 0 3,
        underflow := false }) := by
  by_cases h : p.avail = 0
  · cases pq with
    | nil => exact .inl ⟨h, rfl, by simp [pixShift, h]⟩
    | cons w rest => exact .inr (.inr ⟨w, rest, h, rfl, by simp [pixShift, h]⟩)
  · exact .inr (.inl ⟨h, by simp [pixShift, h]⟩)

/-! ### The host -/

/-- A host write of any width keeps the canonical form of memory. -/
theorem Memory.writeWidth_wf {m : Memory} (w : Width) (a v : Word) (h : m.wf = true) : (m.writeWidth w a v).wf = true := by
  cases w with
  | byte => exact Memory.set_wf _ a.isLt h
  | half => exact Memory.set_wf _ (a + 1).isLt (Memory.set_wf _ a.isLt h)
  | word => exact Memory.writeWord_wf a v h

/-- Memory after reset is in canonical form. -/
theorem State.reset_mem_wf : State.reset.mem.wf = true := rfl

/-- A register write that answers a next state: the five stored forms, a command, or nothing (R33, R37, R41 to R45). -/
theorem State.writeReg_cases {off : Nat} {v : Word} (h : s.writeReg off v = .next t) :
    (off = 0x00 ∧ t = { s with flags := s.flags.clearBits v }) ∨
    (off = 0x04 ∧ t = { s with regs := { s.regs with fbBaseHi := v.extractLsb' 2 30 } }) ∨
    (off = 0x08 ∧ t = { s with regs := { s.regs with hActiveM1 := v } }) ∨
    (off = 0x0C ∧ t = { s with regs := { s.regs with vActiveM1 := v } }) ∨
    (off = 0x10 ∧ t = { s with regs := { s.regs with cmdB := v.extractLsb' 0 24 } }) ∨
    (off = 0x14 ∧ s.issue v = .next t) ∨
    t = s := by
  unfold State.writeReg at h
  split at h
  · cases h; exact .inl ⟨rfl, rfl⟩
  · cases h; exact .inr (.inl ⟨rfl, rfl⟩)
  · cases h; exact .inr (.inr (.inl ⟨rfl, rfl⟩))
  · cases h; exact .inr (.inr (.inr (.inl ⟨rfl, rfl⟩)))
  · cases h; exact .inr (.inr (.inr (.inr (.inl ⟨rfl, rfl⟩))))
  · exact .inr (.inr (.inr (.inr (.inr (.inl ⟨rfl, h⟩)))))
  · cases h; exact .inr (.inr (.inr (.inr (.inr (.inr rfl)))))

/-- A host read that answers a next state only changed what the host saw (R32, R91). -/
theorem State.hostRd_next {w : Width} {tg : Target} (h : s.hostRd w tg = .next t) : ∃ v, t = s.gotRead v := by
  have reg : ∀ off, s.hostReadReg w off = .next t → ∃ v, t = s.gotRead v := by
    intro off h
    unfold State.hostReadReg at h
    split at h
    · cases h; exact ⟨_, rfl⟩
    · cases h
  unfold State.hostRd at h
  split at h
  · exact reg _ h
  · split at h
    · exact reg _ h
    · unfold State.hostReadMem at h
      split at h
      · cases h
      · split at h
        · cases h
        · cases h; exact ⟨_, rfl⟩

/-- A host write that answers a next state wrote a register or some of memory (R32, R98). -/
theorem State.hostWr_next {w : Width} {tg : Target} {v : Word} (h : s.hostWr w tg v = .next t) :
    (∃ off, s.writeReg off v = .next t) ∨ (∃ a, t = { s with mem := s.mem.writeWidth w a v }) := by
  have reg : ∀ off, s.hostWriteReg w off v = .next t → ∃ off, s.writeReg off v = .next t := by
    intro off h
    unfold State.hostWriteReg at h
    split at h
    · exact ⟨_, h⟩
    · cases h
  unfold State.hostWr at h
  split at h
  · exact .inl (reg _ h)
  · split at h
    · exact .inl (reg _ h)
    · unfold State.hostWriteMem at h
      split at h
      · cases h
      · split at h
        · cases h
        · split at h
          · cases h
          · cases h; exact .inr ⟨_, rfl⟩

/-- A POLL round that answers a next state ends the POLL or leaves it first in the program (R132). -/
theorem State.hostPoll_next {off : BitVec 8} {m v : Word} (h : s.hostPoll off m v = .next t) :
    (s.readReg off.toNat &&& m = v ∧ t = s.gotRead (s.readReg off.toNat)) ∨
    (s.readReg off.toNat &&& m ≠ v ∧
      t = { s.gotRead (s.readReg off.toNat) with program := .poll off m v :: s.program }) := by
  unfold State.hostPoll at h
  split at h
  · split at h
    · cases h; exact .inl ⟨‹_›, rfl⟩
    · cases h; exact .inr ⟨‹_›, rfl⟩
  · cases h

/-- A host turn that answers a next state: nothing to do, a read, a write, or a POLL round, with the host step taken. -/
theorem State.hostTurn_next (h : s.hostTurn = .next t) :
    (s.program = [] ∧ t = s) ∨
    (∃ w tg rest, s.program = .read w tg :: rest ∧ { s with program := rest }.hostRd w tg = .next t) ∨
    (∃ w tg v rest, s.program = .write w tg v :: rest ∧ { s with program := rest }.hostWr w tg v = .next t) ∨
    (∃ off m v rest, s.program = .poll off m v :: rest ∧ { s with program := rest }.hostPoll off m v = .next t) := by
  unfold State.hostTurn at h
  split at h
  · cases h; exact .inl ⟨‹_›, rfl⟩
  · exact .inr (.inl ⟨_, _, _, ‹_›, h⟩)
  · exact .inr (.inr (.inl ⟨_, _, _, _, ‹_›, h⟩))
  · exact .inr (.inr (.inr ⟨_, _, _, _, ‹_›, h⟩))

/-- What a turn that answers a next state did (R6). -/
theorem State.takeTurn_next {u : Turn} (h : s.takeTurn u = .next t) :
    (u = .host ∧ s.hostTurn = .next t) ∨ (u = .tick ∧ t = s.tick) ∨ (u = .ch0 ∧ t = s.ch0Step) ∨
    (u = .ch1 ∧ t = s.ch1Step) ∨ (u = .eng ∧ t = s.engStep) ∨ (u = .reset ∧ t = s.resetBlock) := by
  cases u with
  | host => exact .inl ⟨rfl, h⟩
  | tick => cases h; exact .inr (.inl ⟨rfl, rfl⟩)
  | ch0 => cases h; exact .inr (.inr (.inl ⟨rfl, rfl⟩))
  | ch1 => cases h; exact .inr (.inr (.inr (.inl ⟨rfl, rfl⟩)))
  | eng => cases h; exact .inr (.inr (.inr (.inr (.inl ⟨rfl, rfl⟩))))
  | reset => cases h; exact .inr (.inr (.inr (.inr (.inr ⟨rfl, rfl⟩))))

/-- A step is the turn at the head of the list, or a free turn (R6). -/
theorem step_cases (s : State) :
    (∃ u rest, s.turns = u :: rest ∧ step s = { s with turns := rest }.takeTurn u) ∨
    (s.turns = [] ∧ step s = { s with freeTurns := s.freeTurns + 1 }.takeTurn (Config.freeTurn s.freeTurns)) := by
  unfold step State.nextTurn
  cases h : s.turns with
  | nil => exact .inr ⟨rfl, rfl⟩
  | cons u rest => exact .inl ⟨u, rest, rfl, rfl⟩

end Sys2Proof.Machine
end

