-- ==== Sys2Proof/Laws/PerInstr.lean ====
section
/-! SUPPORT. The per-command family `OpcodeMatches`: one lemma per constructor of `Instr`. -/

namespace Sys2Proof.Laws

theorem OpcodeMatches.fieldOp_packA (op : BitVec 4) (c : Color) (ya xa : Int) : fieldOp (packA op c ya xa) = op := by
  unfold fieldOp packA
  generalize BitVec.ofInt 12 ya = y, BitVec.ofInt 12 xa = x
  apply BitVec.eq_of_getLsbD_eq
  intro i hi
  simp only [BitVec.getLsbD_extractLsb', BitVec.getLsbD_append]
  simp [hi, show ¬ 28 + i < 12 from by omega, show ¬ 28 + i - 12 < 12 from by omega,
    show ¬ 28 + i - 12 - 12 < 1 from by omega, show ¬ 28 + i - 12 - 12 - 1 < 3 from by omega,
    show 28 + i - 12 - 12 - 1 - 3 = i from by omega]

/-- The OP of each command's row of the opcode table (30_encoding R124). -/
def OpcodeMatches.op : Instr → BitVec 4
  | .nop => 0x0
  | .pixel _ _ _ => 0x1
  | .fill _ => 0x2
  | .hline _ _ _ _ => 0x3
  | .vline _ _ _ _ => 0x4
  | .start => 0x5
  | .stop => 0x6

/-- The encoded CMD_A carries the OP of the command's row, and the CMD_B word of a command that reads no CMD_B is 0 (R124,
R131). -/
def OpcodeMatches.Statement (i : Instr) : Prop :=
  fieldOp i.encodeA = OpcodeMatches.op i ∧ (OpcodeMatches.op i ≠ 0x3 → OpcodeMatches.op i ≠ 0x4 → i.encodeB = 0)

theorem OpcodeMatches.nop : OpcodeMatches.Statement .nop := ⟨fieldOp_packA _ _ _ _, fun _ _ => rfl⟩
theorem OpcodeMatches.pixel (x y : Int) (c : Color) : OpcodeMatches.Statement (.pixel x y c) :=
  ⟨fieldOp_packA _ _ _ _, fun _ _ => rfl⟩
theorem OpcodeMatches.fill (c : Color) : OpcodeMatches.Statement (.fill c) := ⟨fieldOp_packA _ _ _ _, fun _ _ => rfl⟩
theorem OpcodeMatches.hline (x1 x2 y : Int) (c : Color) : OpcodeMatches.Statement (.hline x1 x2 y c) :=
  ⟨fieldOp_packA _ _ _ _, fun h _ => absurd rfl h⟩
theorem OpcodeMatches.vline (x y1 y2 : Int) (c : Color) : OpcodeMatches.Statement (.vline x y1 y2 c) :=
  ⟨fieldOp_packA _ _ _ _, fun _ h => absurd rfl h⟩
theorem OpcodeMatches.start : OpcodeMatches.Statement .start := ⟨fieldOp_packA _ _ _ _, fun _ _ => rfl⟩
theorem OpcodeMatches.stop : OpcodeMatches.Statement .stop := ⟨fieldOp_packA _ _ _ _, fun _ _ => rfl⟩

end Sys2Proof.Laws
end

