-- ==== Sys2Proof/Laws/Runs.lean ====
section
/-! SUPPORT. What the runs of Safety.lean have to do with `step`, and what a step leaves of a running scanout. -/

namespace Sys2Proof.Machine

variable {s t : State} {u : Turn}

/-- A step of the machine is a step its next agent may take (R6). -/
theorem canStep_of_step (h : step s = .next t) : CanStep s.nextAgent s t := by
  rcases step_cases s with ⟨u, rest, hu, he⟩ | ⟨hu, he⟩
  · exact ⟨rest, s.freeTurns, by
      rw [show s.nextAgent = u from by simp only [State.nextAgent, hu]]
      exact he.symm.trans h⟩
  · exact ⟨s.turns, s.freeTurns + 1, by
      rw [show s.nextAgent = Config.freeTurn s.freeTurns from by simp only [State.nextAgent, hu]]
      exact he.symm.trans h⟩

/-- A step an agent may take is the machine's step once the turns give it that turn (R6). -/
theorem step_of_canStep (h : CanStep u s t) :
    ∃ ts k, step { s with turns := u :: ts, freeTurns := k } = .next t := by
  obtain ⟨ts, k, h⟩ := h
  exact ⟨ts, k, h⟩

/-- A run of `step` is a run, with the next agents as its schedule (R6). -/
theorem isRun_of_step {r : Nat → State} (h : ∀ n, step (r n) = .next (r (n + 1))) : IsRun (fun n => (r n).nextAgent) r :=
  fun n => canStep_of_step (h n)

/-- t's scanout is as s's: sequencers, AWF, queues, channels and platform. -/
structure SameScanout (s t : State) : Prop where
  run : t.run = s.run
  h : t.h = s.h
  v : t.v = s.v
  p : t.p = s.p
  awf : t.awf = s.awf
  hq : t.hq = s.hq
  vq : t.vq = s.vq
  pq : t.pq = s.pq
  ch0 : t.ch0 = s.ch0
  ch0StuckLatch : t.ch0StuckLatch = s.ch0StuckLatch
  ch1Busy : t.ch1Busy = s.ch1Busy
  platform : t.platform = s.platform

/-- A command leaves a scanout that is running and runs on as it was (R211, R214). -/
theorem exec_sameScanout {i : Instr} (hs : s.run = true) (ht : t.run = true) (h : exec i s = .next t) : SameScanout s t := by
  rcases exec_cases i s with ⟨-, e⟩ | ⟨c, e⟩ | ⟨-, ops, -, -, -, e⟩ | ⟨-, hr, -⟩ | ⟨-, -, e⟩
  · cases e.symm.trans h; constructor <;> rfl
  · cases e.symm.trans h; constructor <;> simp
  · cases e.symm.trans h; constructor <;> simp
  · simp [hs] at hr
  · cases e.symm.trans h; simp at ht

/-- A host turn leaves a scanout that is running and runs on as it was. -/
theorem State.hostTurn_sameScanout (hs : s.run = true) (ht : t.run = true) (h : s.hostTurn = .next t) : SameScanout s t := by
  have reg : ∀ {s : State} {off v}, s.run = true → s.writeReg off v = .next t → SameScanout s t := by
    intro s off v hs h
    rcases State.writeReg_cases h with ⟨-, rfl⟩ | ⟨-, rfl⟩ | ⟨-, rfl⟩ | ⟨-, rfl⟩ | ⟨-, rfl⟩ | ⟨-, h⟩ | rfl
    case inr.inr.inr.inr.inr.inl =>
      rcases s.issue_cases v with ⟨i, -, e⟩ | ⟨r, -, e⟩
      · exact exec_sameScanout hs ht (e ▸ h)
      · cases e.symm.trans h; constructor <;> simp
    all_goals constructor <;> rfl
  rcases State.hostTurn_next h with ⟨-, rfl⟩ | ⟨w, tg, rest, -, h⟩ | ⟨w, tg, v, rest, -, h⟩ | ⟨off, m, v, rest, -, h⟩
  · constructor <;> rfl
  · obtain ⟨v, rfl⟩ := State.hostRd_next h; constructor <;> rfl
  · rcases State.hostWr_next h with ⟨off, h⟩ | ⟨a, rfl⟩
    · obtain ⟨h1, h2, h3, h4, h5, h6, h7, h8, h9, h10, h11, h12⟩ := reg (s := { s with program := rest }) hs h
      constructor <;> assumption
    · constructor <;> rfl
  · rcases State.hostPoll_next h with ⟨-, rfl⟩ | ⟨-, rfl⟩ <;> constructor <;> rfl

/-- A step after which the scanout still runs: TICK's or CH0's or CH1's, or one that leaves the scanout as it was. -/
theorem CanStep.running_cases (h : CanStep u s t) (hs : s.run = true) (ht : t.run = true) :
    (u = .tick ∧ SameScanout s.tick t) ∨ (u = .ch0 ∧ SameScanout s.ch0Step t) ∨ (u = .ch1 ∧ SameScanout s.ch1Step t) ∨
    ((u = .host ∨ u = .eng) ∧ SameScanout s t) := by
  obtain ⟨ts, k, h⟩ := h
  rcases State.takeTurn_next h with ⟨rfl, h⟩ | ⟨rfl, rfl⟩ | ⟨rfl, rfl⟩ | ⟨rfl, rfl⟩ | ⟨rfl, rfl⟩ | ⟨-, rfl⟩
  · obtain ⟨h1, h2, h3, h4, h5, h6, h7, h8, h9, h10, h11, h12⟩ := State.hostTurn_sameScanout (by exact hs) ht h
    exact .inr (.inr (.inr ⟨.inl rfl, by constructor <;> assumption⟩))
  · exact .inl ⟨rfl, by constructor <;> rfl⟩
  · refine .inr (.inl ⟨rfl, ?_⟩)
    by_cases hc : (s.ch0Ready && !s.ch0Stuck) = true
    · rw [State.ch0Step, if_pos hc, State.ch0Step, if_pos (by exact hc)]; constructor <;> rfl
    · rw [State.ch0Step, if_neg hc, State.ch0Step, if_neg (by exact hc)]; constructor <;> rfl
  · refine .inr (.inr (.inl ⟨rfl, ?_⟩))
    by_cases hc : s.ch1Busy = true
    · rw [State.ch1Step, if_pos hc, State.ch1Step, if_pos (by exact hc)]; constructor <;> rfl
    · rw [State.ch1Step, if_neg hc, State.ch1Step, if_neg (by exact hc)]; constructor <;> rfl
  · refine .inr (.inr (.inr ⟨.inr rfl, ?_⟩))
    rcases State.engStep_cases { s with turns := ts, freeTurns := k } with
      e | ⟨_, _, _, _, _, e⟩ | ⟨_, _, _, _, _, _, _, e⟩ | ⟨_, _, _, _, _, _, _, e⟩ <;> rw [e] <;> constructor <;> rfl
  · simp [State.resetBlock, State.powerOn] at ht

end Sys2Proof.Machine
end

