-- ==== Sys2Proof/Tests/Slice0.lean ====
section
/-! SUPPORT. Our own tests: ill-formed terms refused, words of the spec's tables decoded, one step per command, and for each
statement a state and operands that meet its hypotheses. Expected values are those of spec/95_test_vectors.md or worked by hand
from the rule named. -/

namespace Sys2Proof.Tests

open Sys2Proof.Machine

/-! ### Helpers -/

/-- Any platform: porches of one tick, RAM over framebuffers at 0 and at 0x20000000, registers at 0x40000000. -/
def plat : Platform where
  hFpM1 := 0
  hSyncM1 := 1
  hBpM1 := 0
  vSyncM1 := 0
  hsyncActive := false
  vsyncActive := false
  fifoDepthM2 := 2
  blockPage := 0x400000
  ramRegions := [⟨0, 0x1E000⟩, ⟨0x20000000, 0x1E000⟩]
  memEndian := .little
  pinMap := ⟨0, 1, 2, 3, 4⟩
  pclkHz := 25000000

/-- The machine after power-on with that platform and memory of zeros. -/
def base : State := State.powerOn plat []

/-- `base` with the engine at work on one micro-op. -/
def busyState : State := { base with eng := { ops := [.wr 0 7], phase2 := false, tmp := 0 } }

/-- The next state of an outcome. -/
def nextOf (o : Host.Outcome State Fault Refusal) : Option State :=
  match o with
  | .next s => some s
  | .fault _ => none
  | .refused _ => none

/-- The STATUS word after a CMD_A write. -/
def statusAfter (s : State) (a : Word) : Option Word := (nextOf (s.issue a)).map State.statusWord

/-- The first `n` micro-ops a command leaves in the engine. -/
def opsAfter (i : Instr) (s : State) (n : Nat) : Option (List MicroOp) := (nextOf (exec i s)).map fun t => t.eng.ops.take n

/-! ### Well-formedness: one ill-formed term per check (R130, R131) -/

theorem test_refuses_pixel_x_high : (Instr.pixel 2048 0 0).wellFormed = false := by decide
theorem test_refuses_pixel_y_low : (Instr.pixel 0 (-2049) 0).wellFormed = false := by decide
theorem test_refuses_hline_x1 : (Instr.hline (-2049) 0 0 0).wellFormed = false := by decide
theorem test_refuses_hline_x2 : (Instr.hline 0 2048 0 0).wellFormed = false := by decide
theorem test_refuses_hline_y : (Instr.hline 0 0 2048 0).wellFormed = false := by decide
theorem test_refuses_vline_x : (Instr.vline 2048 0 0 0).wellFormed = false := by decide
theorem test_refuses_vline_y1 : (Instr.vline 0 (-2049) 0 0).wellFormed = false := by decide
theorem test_refuses_vline_y2 : (Instr.vline 0 0 2048 0).wellFormed = false := by decide
theorem test_assembler_refuses : (AsmLine.command (.pixel 0 2048 0)).expand = none ∧
    (AsmLine.drawRect 0 0 2048 0 1).expand = none ∧ (AsmLine.fillRect 0 0 0 (-2049) 1).expand = none ∧
    (AsmLine.clearRegion 4000 0 0 0).expand = none := by decide

/-- Geometry: this one is legal, and of W11's two the first is refused and the second legal (R7, R8). -/
theorem test_geometry : thisGeometry.legal = true ∧ (Geometry.mk 641 480 3 30).legal = false ∧
    (Geometry.mk 640 481 3 30).legal = true := by decide

/-! ### Decoding words written out from R121 and R122 -/

theorem test_decode_nop : decode 0b0000_000_0_000000000000_000000000000 0 = .ok .nop := by rfl
theorem test_decode_pixel : decode 0b0001_010_0_000000000001_000000000101 0 = .ok (.pixel 5 1 2) := by rfl
theorem test_decode_fill : decode 0b0010_101_1_111111111111_000000000001 0 = .ok (.fill 5) := by rfl
theorem test_decode_hline :
    decode 0b0011_010_0_111111111101_111111111011 0b00000000_000000000000_001010111100 = .ok (.hline (-5) 700 (-3) 2) := by rfl
theorem test_decode_vline :
    decode 0b0100_001_0_000000001010_000000000101 0b00000000_111111111111_000000000000 = .ok (.vline 5 10 (-1) 1) := by rfl
theorem test_decode_start : decode 0b0101_000_0_000000000000_000000000000 0 = .ok .start := by rfl
theorem test_decode_stop : decode 0b0110_111_1_111111111111_111111111111 0 = .ok .stop := by rfl
theorem test_decode_reserved : decode 0x70000000 0 = .error (.reservedOpcode 7) ∧
    decode 0xF0000000 0 = .error (.reservedOpcode 0xF) := ⟨rfl, rfl⟩

/-- Encodings of T2. -/
theorem test_encode : encode (.pixel 639 479 7) = (0x1E1DF27F, 0) ∧ encode (.hline 3 25 0 7) = (0x3E000003, 0x00000019) ∧
    encode (.vline 4 0 3 6) = (0x4C000004, 0x00003000) ∧ encode (.fill 7) = (0x2E000000, 0) := by decide

/-- The table's numbering: CMD_B is bits 63:32, and 0 where the table gives 32 bits (log 15). -/
theorem test_table_words : decodeTableWord 32 0x14001005 = some (.pixel 5 1 2) ∧
    decodeTableWord 32 0x3E000003 = some (.hline 3 0 0 7) ∧ decodeTableWord 64 0x000000193E000003 = some (.hline 3 25 0 7) ∧
    decodeTableWord 32 0x70000000 = none := by decide

/-- The first step after reset runs the placed command. -/
theorem test_fetch_start : (nextOf (step (State.reset.withFetchWord 32 0x50000000))).map (fun t => (t.run, t.hq, t.pq)) =
    some (true, [639], [639]) := by decide
theorem test_fetch_pixel : (nextOf (step (State.reset.withFetchWord 32 0x14001005))).map (fun t => t.eng.ops) =
    some [.rmw 0xFC 0x00038000 0x00010000] := by decide

/-! ### Commands -/

theorem test_nop : (nextOf (exec .nop busyState)) = some busyState := by decide
/-- T4.1: PIXEL 5, 1, 2 is word 63, bits 17:15. -/
theorem test_pixel : opsAfter (.pixel 5 1 2) base 2 = some [.rmw 0xFC 0x00038000 0x00010000] := by decide
theorem test_pixel_out_of_range : (nextOf (exec (.pixel 640 0 1) base)).map State.statusWord = some 0x10 := by decide
theorem test_fill : opsAfter (.fill 5) base 2 = some [.wr 0 0x2DB6DB6D, .wr 4 0x2DB6DB6D] := by decide
/-- R238's example: HLINE 3, 25, 0, 7 wraps from word 30719 to word 0. -/
theorem test_hline : opsAfter (.hline 3 25 0 7) base 4 =
    some [.rmw 0x1DFFC 0x3FFFFE00 0x3FFFFFFF, .wr 0 0x3FFFFFFF, .rmw 4 0x0003FFFF 0x3FFFFFFF] := by decide
/-- R236's corner case: both endpoints off the right side give the pixel (639, 7). -/
theorem test_hline_clamps : opsAfter (.hline 900 700 7 6) base 2 = some [.rmw 0x7F8 0x38000000 0x30000000] := by decide
/-- R239's example: words 30719, 63, 127, 191. -/
theorem test_vline : opsAfter (.vline 4 0 3 6) base 5 = some [.rmw 0x1DFFC 0x7000 0x6000, .rmw 0xFC 0x7000 0x6000,
    .rmw 0x1FC 0x7000 0x6000, .rmw 0x2FC 0x7000 0x6000] := by decide
theorem test_vline_out_of_range : (nextOf (exec (.vline 5 10 (-1) 1) base)).map State.statusWord = some 0x10 := by decide
/-- R210's example, on a base of 0x20000000. -/
theorem test_start : (nextOf (exec .start { base with regs := { base.regs with fbBaseHi := 0x08000000 } })).map
    (fun t => (t.hq, t.vq, t.pq, t.ch0, t.h.phase)) =
    some ([639], [479], [639], { busy := true, raddr := 0x20000000, count := 30720 }, .param) := by decide
theorem test_stop : (nextOf (exec .stop base.arm)).map (fun t => (t.run, t.pq, t.ch0.busy, t.h.phase)) =
    some (false, [], false, .idle) := by decide

/-- T8: acceptance and priority. -/
theorem test_status_after : statusAfter base 0x70000000 = some 0x08 ∧ statusAfter busyState 0xF0000000 = some 0x0A ∧
    statusAfter busyState 0x12000280 = some 0x06 ∧ statusAfter busyState 0x50000000 = some 0x03 ∧
    statusAfter base.arm 0x50000000 = some 0x21 ∧ statusAfter base 0x60000000 = some 0x20 := by decide

/-! ### Memory, mapping, engine, channels, ticks -/

/-- T1. -/
theorem test_mapping : (wordIndex 0 0, bitOffset 0 0) = (30719, 0) ∧ (wordIndex 9 0, bitOffset 9 0) = (30719, 27) ∧
    (wordIndex 10 0, bitOffset 10 0) = (0, 0) ∧ (wordIndex 639 479, bitOffset 639 479) = (30718, 27) := by decide
/-- R89's table. -/
theorem test_fillword : fillword 1 = 0x09249249 ∧ fillword 4 = 0x24924924 ∧ fillword 7 = 0x3FFFFFFF := by decide
/-- T4.1: a zero slot written in word 0x3FFFFFFF. -/
theorem test_rmw : rmwValue 0x3FFFFFFF 0x00038000 0x00010000 = 0x3FFD7FFF := by decide
theorem test_memory_canonical : (Memory.writeWord [] 4 0x00AA00BB) = [(4, 0xBB), (6, 0xAA)] ∧
    Memory.writeWord [(4, 0xBB), (6, 0xAA)] 4 0 = [] := by decide
/-- T9.3: the last word of the frame. -/
theorem test_ch0_last : ({ base with ch0 := { busy := true, raddr := 0x2001DFFC, count := 1 } }.ch0Step).ch0 =
    { busy := false, raddr := 0x2001E000, count := 0 } := by decide
/-- R163's example: 0xFAC shows 4 first. -/
theorem test_shift : (pixStep { phase := .run, cnt := 3, par := 3, osr := 0xFAC, avail := 10 } false []).rgb = 4 := by decide
/-- T11, tick 9: the underflow takes the line's start with it. -/
theorem test_underflow : ({ base with p := { base.p with phase := .wait, par := 3 }, awf := true, tickNo := 9 }.tick).history =
    [.underflow 9] := by decide
/-- T9.2, seen through SCAN_STATE: all in PARAM, CH0 busy, two words in PQ. -/
theorem test_scan_state : base.arm.ch0Step.readReg 0x20 = 0x1249 := by decide
theorem test_big_endian_byte : ({ base with platform := { plat with memEndian := .big }, mem := [(3, 0x12)] }.hostRd .byte
    (.mem 0)) = .next { base with platform := { plat with memEndian := .big }, mem := [(3, 0x12)], hostRead := some 0x12 } := by
  rfl
theorem test_unmapped : (base.hostRd .word (.mem 0x1E000)) = .fault (.hostUnmapped 0x1E000) := by rfl
/-- R101: a halfword at byte 1 of a framebuffer word; elsewhere it is only misaligned (log 9). -/
theorem test_misaligned : (base.hostWr .half (.mem 0x1001) 0) = .refused .hostSubWordWrite ∧
    (base.hostWr .half (.mem 0x20001001) 0) = .refused .hostMisaligned := ⟨rfl, rfl⟩
/-- R272: START on a base outside RAM, STOP, then START on a good base: CH0 is stuck until RESET (log 26). -/
def badStart : State := { base with regs := { base.regs with fbBaseHi := 0x0C000000 } }.arm
theorem test_stuck_until_reset : badStart.ch0Stuck = true ∧
    { badStart.disarm with regs := base.regs }.arm.ch0Stuck = true ∧ base.arm.disarm.arm.ch0Stuck = false ∧
    badStart.disarm.resetBlock.ch0Stuck = false := by decide
/-- R191: a stuck CH0 reads nothing, even from a good base. -/
theorem test_stuck_reads_nothing : { badStart.disarm with regs := base.regs }.arm.ch0Step.pq = [639] := by decide
/-- R41, R81: the base of an accepted command stays with it when the host writes FB_BASE. -/
theorem test_engine_base : (nextOf (exec (.fill 1) { base with regs := { base.regs with fbBaseHi := 0x08000000 } })).map
    (fun t => ({ t with regs := base.regs }.engBase, { t with regs := base.regs }.isFramebufferByte 0x2001DFFF)) =
    some (0x20000000, true) := by decide

/-! ### Witnesses: states and operands that meet the hypotheses of the statements -/

theorem witness_DecodeEncodeRoundTrip : (Instr.hline (-2048) 2047 (-2048) 7).wellFormed = true ∧
    (Instr.vline 2047 (-2048) 2047 0).wellFormed = true ∧ (Instr.pixel (-2048) 2047 7).wellFormed = true := by decide

theorem witness_EncodeDecodeKeepsUsedBits : decode 0x35FFDFFB 0xFFFFF2BC = .ok (.hline (-5) 700 (-3) 2) := by rfl

theorem witness_ReservedOpcodeOnlySetsCmdOpErr :
    7 ≤ ((0x70000000 : Word).extractLsb' 28 4).toNat ∧ 7 ≤ ((0xFFFFFFFF : Word).extractLsb' 28 4).toNat := by decide

/-- It is the host's turn and its next step writes a to CMD_A. -/
def issuing (a : Word) : State := { base with turns := [.host], program := [.write .word (.reg 0x14) a] }

theorem witness_StepRunsDecodedCommand : (issuing 0x14001005).turns = .host :: [] ∧
    (issuing 0x14001005).program = .write .word (.reg 0x14) 0x14001005 :: [] ∧
    decode 0x14001005 (issuing 0x14001005).cmdBWord = .ok (.pixel 5 1 2) := ⟨rfl, rfl, rfl⟩

theorem witness_StepIsSomeAgentsStep (u : Turn) : { base with turns := [u] }.turns = u :: [] ∧ base.turns = [] := ⟨rfl, rfl⟩

theorem witness_AssembledCommandRuns_one : Instr.start.wellFormed = true ∧
    { base with program := commandSteps .start, turns := [.host] }.program = commandSteps .start ++ [] ∧
    { base with program := commandSteps .start, turns := [.host] }.turns =
      List.replicate (commandSteps .start).length .host ++ [] := by decide
theorem witness_AssembledCommandRuns_two : (Instr.hline 3 25 0 7).wellFormed = true ∧
    { base with program := commandSteps (.hline 3 25 0 7), turns := [.host, .host] }.program =
      commandSteps (.hline 3 25 0 7) ++ [] ∧
    { base with program := commandSteps (.hline 3 25 0 7), turns := [.host, .host] }.turns =
      List.replicate (commandSteps (.hline 3 25 0 7)).length .host ++ [] := by decide

theorem witness_NopChangesNothing : (0x0FFFFFFF : Word).extractLsb' 28 4 = 0#4 := by decide

theorem witness_PixelLoadsOneRmw : base.eng.ops = [] ∧ 639 < 640 ∧ 479 < 480 := by decide
theorem witness_FillLoadsEveryWord : base.eng.ops = [] ∧ 30719 < 30720 := by decide
theorem witness_HlineWithinOneWord : base.eng.ops = [] ∧ 639 = min (clampX 700) (clampX 900) ∧
    639 = max (clampX 700) (clampX 900) ∧ 639 / 10 = 639 / 10 := by decide
theorem witness_HlineAcrossWords : base.eng.ops = [] ∧ 0 = min (clampX 700) (clampX (-5)) ∧
    639 = max (clampX 700) (clampX (-5)) ∧ 0 / 10 < 639 / 10 := by decide
theorem witness_HlineAcrossWords_narrow : 9 = min (clampX 9) (clampX 10) ∧ 10 = max (clampX 9) (clampX 10) ∧
    9 / 10 < 10 / 10 := by decide
theorem witness_VlineLoadsOneRmwPerRow : base.eng.ops = [] ∧ 639 < 640 ∧ 479 < 480 ∧ 0 < 480 := by decide
theorem witness_StartArmsTheScanout : base.run = false := by decide
theorem witness_StopDisablesTheScanout : base.arm.run = true := by decide
theorem witness_RepeatedStartOrStopOnlySetsSeqErr : base.arm.run = true ∧ base.run = false := by decide

/-- One word for each clause, at the edges of its range: opcodes 7 and F; START running, STOP stopped; the first and last draw
opcodes while busy; coordinates 640, −1 and 480. -/
theorem witness_CommandErrorPriority :
    7 ≤ ((0x70000000 : Word).extractLsb' 28 4).toNat ∧
    ((0x50000000 : Word).extractLsb' 28 4).toNat = 5 ∧ ((0x60000000 : Word).extractLsb' 28 4).toNat = 6 ∧
    ((0x10000000 : Word).extractLsb' 28 4).toNat = 1 ∧ ((0x40000000 : Word).extractLsb' 28 4).toNat = 4 :=
  ⟨by decide, rfl, rfl, rfl, rfl⟩
theorem witness_CommandErrorPriority_states : base.arm.run = true ∧ base.run = false ∧ busyState.eng.ops ≠ [] ∧
    base.eng.ops = [] := by decide
theorem witness_CommandErrorPriority_coordinates : fieldX 0x10000280 = 640 ∧ fieldY 0x10FFF000 = -1 ∧ fieldY 0x101E0000 = 480 :=
  ⟨rfl, rfl, rfl⟩
/-- The last clause: NOP, and PIXEL at the last in-range coordinates, report nothing. -/
theorem witness_CommandErrorPriority_none : ((0x101DF27F : Word).extractLsb' 28 4).toNat = 1 ∧ fieldX 0x101DF27F = 639 ∧
    fieldY 0x101DF27F = 479 ∧ statusAfter base 0x101DF27F = some 0x02 ∧ statusAfter base 0 = some 0 := by decide

theorem witness_RegisterReadsAndIgnoredWrites_poll : base.readReg 0x00 &&& 2 = 0 ∧ busyState.readReg 0x00 &&& 2 ≠ 0 := by decide

theorem witness_CommandFrame : Instr.start ≠ .stop ∧ Instr.fill 1 ≠ .start ∧ Instr.fill 1 ≠ .stop := by decide

theorem witness_RegisterReadsAndIgnoredWrites : ∀ off ∈ [(0x00 : BitVec 8), 0x14, 0x18, 0x20, 0x24, 0xFC], off.toNat % 4 = 0 := by
  decide
theorem witness_RegisterReadsAndIgnoredWrites_ranges : 0x18 ≤ (0x18 : BitVec 8).toNat ∧ 0x18 ≤ (0xFC : BitVec 8).toNat ∧
    0x24 ≤ (0x24 : BitVec 8).toNat := by decide

theorem witness_BadRegisterAccessRefused : Width.byte ≠ .word ∧ Width.half ≠ .word ∧ (1 : BitVec 8).toNat % 4 ≠ 0 ∧
    (0xFF : BitVec 8).toNat % 4 ≠ 0 := by decide

/-- `base` is stopped and meets the scanout's invariant. -/
theorem base_stopped : base.Stopped := by constructor <;> rfl
theorem base_scanInv : base.ScanInv where
  pqFits := by decide
  availFits := by decide
  raddrAligned := by decide
  hCount := fun h => absurd rfl h
  vCount := fun h => absurd rfl h
  pCount := fun h => absurd h (by decide)
  whenStopped := fun _ => base_stopped
  whenRunning := fun h => absurd h (by decide)

/-- So does the machine right after START. -/
theorem armed_scanInv : base.arm.ScanInv where
  pqFits := by decide
  availFits := by decide
  raddrAligned := by decide
  hCount := fun _ h => absurd rfl h
  vCount := fun _ h => absurd rfl h
  pCount := fun h => absurd h (by decide)
  whenStopped := fun h => absurd h (by decide)
  whenRunning := fun _ =>
    { hBusy := by decide, vBusy := by decide, pBusy := by decide, hqParam := by decide, vqParam := by decide
      pqParam := fun _ => by decide, oneChannel := by decide, ch0Count := fun _ => by decide
      ch1Count := fun h => absurd h (by decide) }

theorem witness_ScanStateFields : base.arm.ScanInv := armed_scanInv

theorem witness_HostWordWriteReadsBack : ramWord base.platform 0x2001DFFC = true ∧
    (0x2001DFFC : Word).extractLsb' 0 2 = 0#2 := by decide
theorem witness_LittleEndianByteView : base.platform.memEndian = .little ∧ (0x2001DFFC : Word).extractLsb' 0 2 = 0#2 ∧
    ramWord base.platform 0x2001DFFC = true ∧ 3 < 4 := by decide
theorem witness_SubWordFramebufferWriteRefused : Width.byte ≠ .word ∧ Width.half ≠ .word ∧ 0 < 30720 ∧ 30719 < 30720 ∧ 3 < 4 := by
  decide

/-- A frame streamed from 0x20000000 while FB_BASE is already 0, and an engine at a command there. -/
def flipped : State :=
  { base with
    ch0 := { busy := true, raddr := 0x2001DFFC, count := 1 }
    eng := { ops := [.wr 0x20000004 7], phase2 := false, tmp := 0 }
    engBase := 0x20000000 }
theorem witness_SubWordFramebufferWriteRefused_bases : flipped.ch0.busy = true ∧ flipped.frameBase = 0x20000000 ∧
    flipped.eng.ops ≠ [] ∧ (∃ o ∈ flipped.eng.ops, (0x20000007 : Word) = MicroOp.addr o + BitVec.ofNat 32 3) ∧
    (0x1DFFF : Word) = fbaddr flipped.fbBase 30719 + BitVec.ofNat 32 3 ∧ (0 : Word) + 1 = fbaddr flipped.fbBase 0 + BitVec.ofNat 32 1 :=
  ⟨by decide, by decide, by decide, ⟨_, .head _, by decide⟩, by decide, by decide⟩

/-- The engine between the two halves of an RMW. -/
def midRmw : State := { base with eng := { ops := [.rmw 0xFC 0x38000 0x10000], phase2 := true, tmp := 0 } }

theorem witness_EngineStepAccesses : ramWord busyState.platform 0 = true ∧ busyState.eng.ops = .wr 0 7 :: [] ∧
    ramWord midRmw.platform 0xFC = true ∧ midRmw.eng.ops = .rmw 0xFC 0x38000 0x10000 :: [] ∧ midRmw.eng.phase2 = true ∧
    { midRmw with eng := { midRmw.eng with phase2 := false } }.eng.phase2 = false := by decide
theorem witness_EngineStepFrame : busyState.engAddr = some 0 ∧ 4 ≠ (0 : Word).toNat ∧ 4 ≠ ((0 : Word) + 1).toNat ∧
    4 ≠ ((0 : Word) + 2).toNat ∧ 4 ≠ ((0 : Word) + 3).toNat := by decide
/-- An engine at an address outside RAM_REGIONS; its next step is a tick. -/
def stuckEngine : State := { base with eng := { ops := [.wr 0x30000000 7], phase2 := false, tmp := 0 }, turns := [.tick] }
theorem witness_StuckEngineStaysBusy : stuckEngine.engStuck = true ∧ stuckEngine.nextAgent ≠ .reset ∧
    step stuckEngine = .next { stuckEngine with turns := [] }.tick := ⟨by decide, by decide, rfl⟩

theorem witness_EngineRunsItsMicroOps :
    { busyState with turns := [.tick, .eng, .ch0] }.turns = [.tick, .eng, .ch0] ∧
    (∀ u ∈ [Turn.tick, .eng, .ch0], Turn.ofBlock u = true) ∧
    { busyState with turns := [.tick, .eng, .ch0] }.eng.phase2 = false ∧
    (∀ o ∈ busyState.eng.ops, ramWord busyState.platform (MicroOp.addr o) = true) ∧
    accessCount busyState.eng.ops ≤ [Turn.tick, .eng, .ch0].count .eng := by decide

/-- The run from s on which TICK, CH0, CH1 and ENG take turns for ever. -/
def roundSched (n : Nat) : Turn := if n % 4 = 0 then .tick else if n % 4 = 1 then .ch0 else if n % 4 = 2 then .ch1 else .eng
def roundRun (s : State) : Nat → State
  | 0 => s
  | n + 1 => (roundRun s n).blockTurn (roundSched n)
theorem roundSched_ofBlock (n : Nat) : Turn.ofBlock (roundSched n) = true := by
  unfold roundSched; split <;> (try split) <;> (try split) <;> rfl
theorem takeTurn_blockTurn (s : State) {u : Turn} (h : Turn.ofBlock u = true) : s.takeTurn u = .next (s.blockTurn u) := by
  cases u <;> first | rfl | cases h
theorem roundRun_isRun (s : State) : IsRun roundSched (roundRun s) :=
  fun n => ⟨(roundRun s n).turns, (roundRun s n).freeTurns, takeTurn_blockTurn _ (roundSched_ofBlock n)⟩
theorem roundRun_weaklyFair (s : State) : WeaklyFair roundSched (roundRun s) := by
  intro u hu n _
  cases u with
  | tick => exact ⟨4 * n, by omega, by rw [roundSched, if_pos (by omega)]⟩
  | ch0 => exact ⟨4 * n + 1, by omega, by rw [roundSched, if_neg (by omega), if_pos (by omega)]⟩
  | ch1 => exact ⟨4 * n + 2, by omega, by rw [roundSched, if_neg (by omega), if_neg (by omega), if_pos (by omega)]⟩
  | eng => exact ⟨4 * n + 3, by omega, by rw [roundSched, if_neg (by omega), if_neg (by omega), if_neg (by omega)]⟩
  | host => cases hu
  | reset => cases hu
theorem witness_EngineRunsItsMicroOps_fair : IsRun roundSched (roundRun busyState) ∧
    FairTo .eng roundSched (roundRun busyState) ∧ (roundRun busyState 0).eng.ops ≠ [] ∧
    (∀ o ∈ (roundRun busyState 0).eng.ops, ramWord (roundRun busyState 0).platform (MicroOp.addr o) = true) :=
  ⟨roundRun_isRun _, roundRun_weaklyFair _ .eng rfl, by decide, by decide⟩

theorem witness_AccessCounts : 9 ≤ 10 ∧ 10 < 640 ∧ 0 ≤ 479 ∧ 479 < 480 ∧
    (buildPixel 9 0 7 0).isSome = true ∧ (buildHline 9 10 0 7 0).isSome = true ∧ (buildHline 9 9 0 7 0).isSome = true ∧
    (buildVline 9 0 479 7 0).isSome = true ∧ (buildFill 7 0).isSome = true :=
  ⟨by decide, by decide, by decide, by decide, by decide, by decide, by decide, by decide, rfl⟩

theorem witness_FillReadBack : (0x20000000 : Word).extractLsb' 0 2 = 0#2 ∧
    buildFill 7 0x20000000 = some (fillFrom 0x20000000 (fillword 7) fbWords 0) := ⟨by decide, rfl⟩

theorem witness_HlineEqualsPixelLoop : Memory.wf [(0, 7)] = true ∧ (0 : Word).extractLsb' 0 2 = 0#2 ∧ 3 < 640 ∧ 25 < 640 ∧
    0 < 480 ∧ (buildHline 3 25 0 7 0).isSome = true := by decide
/-- Word 0 is the interior of that line, and has padding 0; word 30719 is not. -/
theorem witness_HlineEqualsPixelLoop_interior : (∃ j, min 3 25 / 10 < j ∧ j < max 3 25 / 10 ∧ 0 = gridWord (10 * j) 0) ∧
    (∀ k, (∃ j, min 3 25 / 10 < j ∧ j < max 3 25 / 10 ∧ k = gridWord (10 * j) 0) →
      (Memory.readWord [(0, 7)] (fbaddr 0 k)).extractLsb' 30 2 = 0#2) ∧
    (¬ ∃ j, min 3 25 / 10 < j ∧ j < max 3 25 / 10 ∧ 30719 = gridWord (10 * j) 0) := by
  have one : ∀ j, min 3 25 / 10 < j → j < max 3 25 / 10 → j = 1 := by omega
  refine ⟨⟨1, by omega, by omega, by simp [gridWord]⟩, ?_, ?_⟩
  · rintro k ⟨j, h1, h2, hk⟩
    rw [hk, one j h1 h2]
    decide
  · rintro ⟨j, h1, h2, h⟩
    obtain rfl := one j h1 h2
    exact absurd h (by decide)

theorem witness_VlineEqualsPixelLoop : 639 < 640 ∧ 479 < 480 ∧ 478 < 480 ∧ (buildVline 639 479 478 3 0).isSome = true := by decide

/-- PIXEL 5, 1, 2 issued, then two engine turns with a CH0 turn between. -/
def pixelRun : State := { issuing (Instr.pixel 5 1 2).encodeA with turns := [.host, .eng, .ch0, .eng] }
theorem witness_PixelReadBackOnTheMachine : 5 < 640 ∧ 1 < 480 ∧ pixelRun.eng.ops = [] ∧
    pixelRun.turns = .host :: [.eng, .ch0, .eng] ∧
    pixelRun.program = .write .word (.reg 0x14) (Instr.pixel 5 1 2).encodeA :: [] ∧
    (∀ u ∈ [Turn.eng, .ch0, .eng], Turn.ofBlock u = true) ∧ 2 ≤ [Turn.eng, .ch0, .eng].count .eng ∧
    ramWord pixelRun.platform (fbaddr pixelRun.fbBase (gridWord 5 1)) = true := by decide

theorem witness_PixelsAndSlotsAreOneToOne : 639 < 640 ∧ 479 < 480 ∧ 30719 < 30720 ∧ 9 < 10 := by decide

/-- `midRmw` meets the engine's invariant, and its word has padding 0. -/
theorem midRmw_engInv : midRmw.EngInv where
  opsBuilt := fun o ho => by
    have : o = .rmw 0xFC 0x38000 0x10000 := by simpa [midRmw] using ho
    subst this
    exact ⟨by decide, by decide⟩
  opsInFrame := fun o ho => by
    have : o = .rmw 0xFC 0x38000 0x10000 := by simpa [midRmw] using ho
    subst this
    exact ⟨63, by decide, by decide⟩
  phase2Head := fun _ => ⟨_, _, _, _, rfl⟩
theorem witness_BlockKeepsPaddingZero : (0xFC : Word).extractLsb' 0 2 = 0#2 ∧ midRmw.EngInv ∧ midRmw.PaddingZeroAt 0xFC ∧
    Turn.ofBlock .eng = true ∧ midRmw.takeTurn .eng = .next midRmw.engStep :=
  ⟨by decide, midRmw_engInv, ⟨by decide, fun _ _ _ _ _ => by decide⟩, rfl, rfl⟩

theorem witness_Ch0MovesOneWord : base.arm.ch0.busy = true ∧ 1 ≤ base.arm.ch0.count.toNat ∧
    base.arm.pq.length < base.arm.platform.fifoDepth ∧ ramWord base.arm.platform base.arm.ch0.raddr = true ∧
    base.arm.ch0StuckLatch = false := by decide
/-- Each way of waiting: idle, out of words, PQ full, outside RAM_REGIONS. -/
theorem witness_Ch0MovesOneWord_waits : base.ch0.busy = false ∧ base.ch0.count = 0 ∧
    plat.fifoDepth ≤ { base with pq := [1, 2, 3, 4] }.pq.length ∧ ramWord plat 0x1E000 = false := by decide

/-- A stuck CH0, and its STOP: a step that is not RESET. -/
theorem witness_Ch0MovesOneWord_stuck : badStart.ch0.busy = true ∧ 1 ≤ badStart.ch0.count.toNat ∧
    badStart.pq.length < badStart.platform.fifoDepth ∧ ramWord badStart.platform badStart.ch0.raddr = false ∧
    badStart.ch0Stuck = true ∧ badStart.disarm.ch0StuckLatch = true := by decide
theorem witness_Ch0MovesOneWord_stop : { badStart with turns := [.host], program := commandSteps .stop }.nextAgent ≠ .reset ∧
    step { badStart with turns := [.host], program := commandSteps .stop } =
      .next { badStart with turns := [], program := [] }.disarm := ⟨by decide, rfl⟩

theorem witness_Ch1ReloadsFromFbBase : { base with ch1Busy := true }.ch1Busy = true ∧ base.ch1Busy = false := by decide

theorem witness_RingStreamsTheFramebuffer : base.ScanInv ∧ base.run = false ∧
    (∀ u ∈ [Turn.ch0, .tick], Turn.ofBlock u = true) ∧ (base.arm.streamReads [.ch0, .tick])[0]? = some 0 :=
  ⟨base_scanInv, rfl, by decide, by decide⟩

theorem witness_RingStreamsTheFramebuffer_frame : base.arm.ScanInv ∧ base.arm.ch0.busy = true ∧
    step { base.arm with turns := [.ch0] } = .next { base.arm with turns := [] }.ch0Step ∧
    { base.arm with turns := [] }.ch0Step.ch0.busy = true := ⟨armed_scanInv, rfl, rfl, rfl⟩

/-- What a running frame at base 0 keeps: CH0's address and count always meet at the frame's end. -/
structure InFrame (s : State) : Prop where
  run : s.run = true
  latch : s.ch0StuckLatch = false
  platform : s.platform = plat
  fbBase : s.fbBase = 0
  frame : s.ch0.raddr.toNat + 4 * s.ch0.count.toNat = 0x1E000
theorem ramWord_plat {a : Word} (h : a.toNat + 4 ≤ 0x1E000) : ramWord plat a = true := by
  have byte : ∀ b : Word, b.toNat < 0x1E000 → ramByte plat b = true := by
    intro b hb
    have : inRegisterFile plat b = false := by
      simp only [inRegisterFile, plat, beq_eq_false_iff_ne]
      intro e
      have := congrArg BitVec.toNat e
      simp [Nat.shiftRight_eq_div_pow] at this
      omega
    simp only [ramByte, this]
    simp [plat, hb]
  have add : ∀ k : Nat, k < 4 → (a + BitVec.ofNat 32 k).toNat < 0x1E000 := by
    intro k hk
    simp only [BitVec.toNat_add, BitVec.toNat_ofNat]
    omega
  simp only [ramWord, Bool.and_eq_true]
  exact ⟨⟨⟨byte a (by omega), byte _ (add 1 (by omega))⟩, byte _ (add 2 (by omega))⟩, byte _ (add 3 (by omega))⟩
theorem InFrame.notStuck {s : State} (h : InFrame s) : s.ch0Stuck = false := by
  by_cases hc : 0 < s.ch0.count.toNat
  · have hf := h.frame
    simp [State.ch0Stuck, h.latch, h.platform, ramWord_plat (show s.ch0.raddr.toNat + 4 ≤ 0x1E000 by omega)]
  · simp [State.ch0Stuck, State.ch0Ready, h.latch, hc]
theorem InFrame.blockTurn {s : State} (h : InFrame s) (u : Turn) : InFrame (s.blockTurn u) := by
  obtain ⟨h1, h2, h3, h4, h5⟩ := h
  cases u with
  | host => exact ⟨h1, h2, h3, h4, h5⟩
  | reset => exact ⟨h1, h2, h3, h4, h5⟩
  | tick => exact ⟨h1, h2, h3, h4, h5⟩
  | ch0 =>
    rcases s.ch0Step_cases with e | ⟨-, hc, -, -, -, e⟩ <;> simp only [State.blockTurn, e]
    · exact ⟨h1, h2, h3, h4, h5⟩
    · refine ⟨h1, h2, h3, h4, ?_⟩
      have ha : (s.ch0.raddr + 4).toNat = (s.ch0.raddr.toNat + 4) % 4294967296 := by simp
      have hd : (s.ch0.count - 1).toNat = (4294967295 + s.ch0.count.toNat) % 4294967296 := by simp [BitVec.toNat_sub]
      change (s.ch0.raddr + 4).toNat + 4 * (s.ch0.count - 1).toNat = _
      omega
  | ch1 =>
    rcases s.ch1Step_cases with ⟨-, e⟩ | ⟨-, e⟩ <;> simp only [State.blockTurn, e]
    · exact ⟨h1, h2, h3, h4, h5⟩
    · refine ⟨h1, InFrame.notStuck ⟨h1, h2, h3, h4, h5⟩, h3, h4, ?_⟩
      simp [State.triggerCh0, h4, fbWords]
  | eng =>
    rcases s.engStep_cases with e | ⟨_, _, _, _, _, e⟩ | ⟨_, _, _, _, _, _, _, e⟩ | ⟨_, _, _, _, _, _, _, e⟩ <;>
      simp only [State.blockTurn, e] <;> exact ⟨h1, h2, h3, h4, h5⟩
theorem roundRun_inFrame (n : Nat) : InFrame (roundRun base.arm n) := by
  induction n with
  | zero => exact ⟨rfl, rfl, rfl, rfl, rfl⟩
  | succ n ih => exact ih.blockTurn _
/-- The scanout that START armed at base 0 runs on, with CH0 never stuck, on a weakly fair run. -/
theorem witness_RingStreamsTheFramebuffer_forever : IsRun roundSched (roundRun base.arm) ∧
    WeaklyFair roundSched (roundRun base.arm) ∧ (roundRun base.arm 0).ScanInv ∧
    ∀ m ≥ 0, (roundRun base.arm m).run = true ∧ (roundRun base.arm m).ch0Stuck = false :=
  ⟨roundRun_isRun _, roundRun_weaklyFair _, armed_scanInv, fun m _ => ⟨(roundRun_inFrame m).run, (roundRun_inFrame m).notStuck⟩⟩

theorem witness_TickDrivesThePins : base.p.phase = .idle ∧ base.arm.p.phase = .param ∧
    { base with p := { base.p with phase := .wait } }.awf = false := by decide
theorem witness_StoppedTickOnlyDrivesPins : base.Stopped := base_stopped
theorem witness_ParameterPulls : base.arm.h.phase = .param ∧ base.arm.hq = 639 :: [] ∧ base.arm.v.phase = .param ∧
    base.arm.vq = 479 :: [] ∧ base.arm.p.phase = .param ∧ base.arm.pq = 639 :: [] ∧
    { base.arm with hq := [], vq := [], pq := [] }.hq = [] := by decide
theorem witness_ActiveWindowLatch : base.v.phase = .idle ∧ base.arm.v.phase = .param := by decide
theorem witness_LineTiming : base.arm.h.phase = .param ∧ base.arm.hq = [639] := by decide
theorem witness_FrameTiming : base.arm.h.phase = .param ∧ base.arm.hq = [639] ∧ base.arm.v.phase = .param ∧
    base.arm.vq = [479] := by decide

/-- A picture of one pixel per line and one line per frame: five ticks to a line. -/
def tiny : State := { base with regs := { base.regs with hActiveM1 := 0, vActiveM1 := 0 }, mem := [(0, 5)] }
theorem tiny_scanInv : tiny.ScanInv where
  pqFits := by decide
  availFits := by decide
  raddrAligned := by decide
  hCount := fun h => absurd rfl h
  vCount := fun h => absurd rfl h
  pCount := fun h => absurd h (by decide)
  whenStopped := fun _ => by constructor <;> rfl
  whenRunning := fun h => absurd h (by decide)
/-- CH0 fetches one word, then six ticks: the seventh is the first pixel of the first line, and shows colour 5. -/
def tinyTurns : List Turn := [.ch0, .tick, .tick, .tick, .tick, .tick, .tick]
theorem witness_ScreenShowsTheFramebuffer : tiny.ScanInv ∧ tiny.run = false ∧ tiny.eng.ops = [] ∧
    (∀ u ∈ tinyTurns, Turn.ofBlock u = true) ∧ 0 ≤ tiny.regs.hActiveM1.toNat ∧ 0 ≤ tiny.regs.vActiveM1.toNat ∧
    (tinyTurns.foldl State.blockTurn tiny.arm).tickNo =
      (0 * framePeriod tiny.platform tiny.regs.vActiveM1 + 0 + 1) * linePeriod tiny.platform tiny.regs.hActiveM1 + 1 + 0 ∧
    (tinyTurns.foldl State.blockTurn tiny.arm).tick.history = tiny.history ∧
    (tinyTurns.foldl State.blockTurn tiny.arm).tick.pins.rgb = 5 :=
  ⟨tiny_scanInv, by decide, by decide, by decide, by decide, by decide, by decide, by decide, by decide⟩
theorem witness_ScreenShowsTheFramebuffer_full : base.regs.hActiveM1 = 639 ∧ base.regs.vActiveM1 = 479 := by decide

/-- P in RUN at a word's end, with a word waiting. -/
def running : State := { base with p := { phase := .run, cnt := 9, par := 639, osr := 0, avail := 0 }, pq := [0xC0000007] }
theorem witness_WordShowsItsTenSlots : running.p.phase = .run ∧ running.p.avail = 0 ∧ running.pq = 0xC0000007 :: [] ∧
    9 ≤ running.p.cnt.toNat := by decide
theorem witness_UnderflowStalls : { running with pq := [] }.p.avail = 0 ∧ { running with pq := [] }.pq = [] ∧
    running.p.phase = .run ∧ { base with p := { base.p with phase := .wait }, awf := true }.awf = true := by decide

theorem witness_NothingHappensBeforeTheFirstCommand : base.Stopped ∧ base.eng.ops = [] ∧
    base.pins = { hsync := !base.platform.hsyncActive, vsync := !base.platform.vsyncActive, rgb := 0 } ∧
    Turn.ofBlock { base with turns := [.tick] }.nextAgent = true ∧ { base with turns := [.host] }.nextAgent = .host ∧
    base.program = [] := ⟨base_stopped, by decide, by decide, by decide, by decide, by decide⟩
theorem witness_PowerOnMeetsInvariants : Memory.wf [] = true ∧ Memory.wf [(0, 1), (4294967295, 255)] = true := by decide
theorem witness_StepKeepsMemInv : { busyState with turns := [.eng] }.MemInv ∧
    step { busyState with turns := [.eng] } = .next { busyState with turns := [] }.engStep := ⟨rfl, rfl⟩
theorem witness_StepKeepsEngInv : midRmw.EngInv ∧ { midRmw with turns := [.eng] }.EngInv ∧
    step { midRmw with turns := [.eng] } = .next { midRmw with turns := [] }.engStep :=
  ⟨midRmw_engInv, ⟨midRmw_engInv.opsBuilt, midRmw_engInv.opsInFrame, midRmw_engInv.phase2Head⟩, rfl⟩
theorem witness_StepKeepsScanInv : base.arm.ScanInv ∧
    step { base.arm with turns := [.tick] } = .next { base.arm with turns := [] }.tick := ⟨armed_scanInv, rfl⟩
theorem witness_BlockAgentsKeepRegistersAndFlags : Turn.ofBlock .tick = true ∧ base.arm.takeTurn .tick = .next base.arm.tick ∧
    Turn.ofBlock .eng = true ∧ Turn.tick ≠ .eng := ⟨rfl, rfl, rfl, by decide⟩
theorem witness_BlockAgentsKeepRegistersAndFlags_ended : { base.arm with turns := [.ch0] }.Ended ∧
    { base.arm with turns := [.ch0] }.nextAgent ≠ .reset := ⟨⟨rfl, rfl⟩, by decide⟩

end Sys2Proof.Tests
end

section
/-! PROOFS. What the host reads at STATUS and at SCAN_STATE (spec/10_state.md R35, R36, R40, R48). Both words are concatenations
of fields; each lemma below takes one field out, and the two statements are put together from them. -/

namespace Sys2Proof

/-- FIFO_DEPTH fits the three bits of PQLEN (00_scope R10). -/
theorem Platform.fifoDepth_lt (pl : Platform) : pl.fifoDepth < 8 := by
  have := pl.fifoDepthM2.isLt
  unfold Platform.fifoDepth
  omega

end Sys2Proof

namespace Sys2Proof.Machine

/-! ### STATUS -/

section
variable (s : State)

@[simp] theorem State.readReg_status : s.readReg 0x00 = s.statusWord := rfl

theorem State.busy_iff : s.busy = true ↔ s.eng.ops ≠ [] := by
  simp [State.busy]

theorem State.statusWord_run : s.statusWord.getLsbD 0 = s.run := by
  simp only [State.statusWord, BitVec.getLsbD_append]
  simp
theorem State.statusWord_busy : s.statusWord.getLsbD 1 = s.busy := by
  simp only [State.statusWord, BitVec.getLsbD_append]
  simp
theorem State.statusWord_cmdBusyErr : s.statusWord.getLsbD 2 = s.flags.cmdBusyErr := by
  simp only [State.statusWord, BitVec.getLsbD_append]
  simp
theorem State.statusWord_cmdOpErr : s.statusWord.getLsbD 3 = s.flags.cmdOpErr := by
  simp only [State.statusWord, BitVec.getLsbD_append]
  simp
theorem State.statusWord_coordErr : s.statusWord.getLsbD 4 = s.flags.coordErr := by
  simp only [State.statusWord, BitVec.getLsbD_append]
  simp
theorem State.statusWord_seqErr : s.statusWord.getLsbD 5 = s.flags.seqErr := by
  simp only [State.statusWord, BitVec.getLsbD_append]
  simp
theorem State.statusWord_reserved : s.statusWord.extractLsb' 6 26 = 0#26 := by
  simp (disch := decide) only [State.statusWord, BitVec.extractLsb'_append_eq_of_le]
  simp

theorem State.statusWord_toNat_lt : s.statusWord.toNat < 64 := by
  have hzero := congrArg BitVec.toNat s.statusWord_reserved
  have hlt := s.statusWord.isLt
  rw [BitVec.extractLsb'_toNat, Nat.shiftRight_eq_div_pow, BitVec.toNat_zero] at hzero
  omega

end

/-- Settles O20: bit by bit, with BUSY by `State.busy_iff`. -/
theorem statusWordBits : Obligations.StatusWordBits := by
  unfold Obligations.StatusWordBits
  intro s
  rw [s.readReg_status, s.statusWord_busy]
  exact ⟨s.statusWord_toNat_lt, s.statusWord_run, s.busy_iff, s.statusWord_cmdBusyErr, s.statusWord_cmdOpErr,
    s.statusWord_coordErr, s.statusWord_seqErr⟩

/-! ### SCAN_STATE -/

section
variable (s : State)

@[simp] theorem State.readReg_scanState : s.readReg 0x20 = s.scanState := rfl

theorem State.scanState_hph : s.scanState.extractLsb' 0 3 = s.h.phase.code := by
  simp (disch := decide) only [State.scanState, BitVec.extractLsb'_append_eq_of_add_le]
  simp
theorem State.scanState_vph : s.scanState.extractLsb' 3 3 = s.v.phase.code := by
  simp (disch := decide) only [State.scanState, BitVec.extractLsb'_append_eq_of_add_le, BitVec.extractLsb'_append_eq_of_le]
  simp
theorem State.scanState_pph : s.scanState.extractLsb' 6 2 = s.p.phase.code := by
  simp (disch := decide) only [State.scanState, BitVec.extractLsb'_append_eq_of_add_le, BitVec.extractLsb'_append_eq_of_le]
  simp
theorem State.scanState_awf : s.scanState.getLsbD 8 = s.awf := by
  simp only [State.scanState, BitVec.getLsbD_append]
  simp
theorem State.scanState_ch0b : s.scanState.getLsbD 9 = s.ch0.busy := by
  simp only [State.scanState, BitVec.getLsbD_append]
  simp
theorem State.scanState_ch1b : s.scanState.getLsbD 10 = s.ch1Busy := by
  simp only [State.scanState, BitVec.getLsbD_append]
  simp
theorem State.scanState_pqlen : s.scanState.extractLsb' 11 3 = BitVec.ofNat 3 s.pq.length := by
  simp (disch := decide) only [State.scanState, BitVec.extractLsb'_append_eq_of_add_le, BitVec.extractLsb'_append_eq_of_le]
  simp
theorem State.scanState_pavail : s.scanState.extractLsb' 14 4 = BitVec.ofNat 4 s.p.avail := by
  simp (disch := decide) only [State.scanState, BitVec.extractLsb'_append_eq_of_add_le, BitVec.extractLsb'_append_eq_of_le]
  simp
theorem State.scanState_reserved : s.scanState.extractLsb' 18 14 = 0#14 := by
  simp (disch := decide) only [State.scanState, BitVec.extractLsb'_append_eq_of_le]
  simp

/-- The reset value of R48: the scanout that RESET leaves is idle and empty, and every field of it codes as 0. -/
theorem State.readReg_scanState_resetBlock : s.resetBlock.readReg 0x20 = 0 := by
  simp [State.scanState, Phase.code, PixPhase.code]

/-- The table of H's and V's codes in R48. -/
theorem Phase.toNat_code_eq_iff (ph : Phase) :
    ∀ e ∈ [(Phase.idle, 0), (.param, 1), (.active, 2), (.fp, 3), (.sync, 4), (.bp, 5)], ph.code.toNat = e.2 ↔ ph = e.1 := by
  cases ph <;> decide

/-- The table of P's codes in R48. -/
theorem PixPhase.toNat_code_eq_iff (ph : PixPhase) :
    ∀ e ∈ [(PixPhase.idle, 0), (.param, 1), (.wait, 2), (.run, 3)], ph.code.toNat = e.2 ↔ ph = e.1 := by
  cases ph <;> decide

variable {s}

theorem State.ScanInv.pqlen_toNat (hs : s.ScanInv) : (s.scanState.extractLsb' 11 3).toNat = s.pq.length := by
  have hfits := hs.pqFits
  have hdepth := s.platform.fifoDepth_lt
  rw [s.scanState_pqlen, BitVec.toNat_ofNat]
  exact Nat.mod_eq_of_lt (by omega)

theorem State.ScanInv.pavail_toNat (hs : s.ScanInv) : (s.scanState.extractLsb' 14 4).toNat = s.p.avail := by
  have hfits := hs.availFits
  rw [s.scanState_pavail, BitVec.toNat_ofNat]
  exact Nat.mod_eq_of_lt (by omega)

end

/-- Settles O26: the invariant is needed for P.avail and PQ alone, which then fit their 4 and 3 bits; that the phase codes
name one phase each is `Phase.toNat_code_eq_iff` and `PixPhase.toNat_code_eq_iff`. -/
theorem scanStateFields : Obligations.ScanStateFields := by
  unfold Obligations.ScanStateFields
  refine ⟨fun s hs => ?fields, fun s => s.readReg_scanState_resetBlock⟩
  case fields =>
    simp only [State.readReg_scanState, s.scanState_hph, s.scanState_vph, s.scanState_pph]
    exact ⟨s.scanState_reserved, hs.pavail_toNat, hs.pqlen_toNat, s.scanState_ch1b, s.scanState_ch0b, s.scanState_awf,
      s.p.phase.toNat_code_eq_iff,
      fun e he => ⟨s.h.phase.toNat_code_eq_iff e he, s.v.phase.toNat_code_eq_iff e he⟩⟩

end Sys2Proof.Machine
end

section
/-! PROOFS. The bits no command reads (spec/30_encoding.md R125, R126): a reserved opcode, bit 24 of CMD_A, and bits 31:24 of
CMD_B. The decoder sees a word only through its fields, so what leaves the fields alone leaves the command alone. -/

namespace Sys2Proof

/-! ### The decoder -/

/-- Two CMD_A words with the same four fields are the same command. -/
theorem decode_congr_fields {a a' : Word} (b : Word) (hop : fieldOp a = fieldOp a') (hc : fieldColor a = fieldColor a')
    (hy : fieldY a = fieldY a') (hx : fieldX a = fieldX a') : decode a b = decode a' b := by
  simp only [decode, hop, hc, hy, hx]

theorem decode_of_reserved {a : Word} (b : Word) (h : 7 ≤ (fieldOp a).toNat) :
    decode a b = .error (.reservedOpcode (fieldOp a)) := by
  unfold decode
  split
  case h_8 => rfl
  all_goals omega

/-! RSVA is bit 24, between COLOR and YA: no field of CMD_A holds it. -/

theorem fieldOp_xor_rsvA (a : Word) : fieldOp (a ^^^ 0x01000000) = fieldOp a := by
  simp [fieldOp, BitVec.extractLsb'_xor]
theorem fieldColor_xor_rsvA (a : Word) : fieldColor (a ^^^ 0x01000000) = fieldColor a := by
  simp [fieldColor, BitVec.extractLsb'_xor]
theorem fieldY_xor_rsvA (a : Word) : fieldY (a ^^^ 0x01000000) = fieldY a := by
  simp [fieldY, BitVec.extractLsb'_xor]
theorem fieldX_xor_rsvA (a : Word) : fieldX (a ^^^ 0x01000000) = fieldX a := by
  simp [fieldX, BitVec.extractLsb'_xor]

theorem decode_xor_rsvA (a b : Word) : decode (a ^^^ 0x01000000) b = decode a b :=
  decode_congr_fields b (fieldOp_xor_rsvA a) (fieldColor_xor_rsvA a) (fieldY_xor_rsvA a) (fieldX_xor_rsvA a)

end Sys2Proof

namespace Sys2Proof.Machine

/-! ### CMD_A -/

section
variable (s : State)

/-- A word write to offset 0x14 is admitted and is the register write that issues (R32, R45). -/
@[simp] theorem State.hostWr_cmdA (a : Word) : s.hostWr .word (.reg 0x14) a = s.issue a := rfl

theorem State.issue_of_reserved {a : Word} (h : 7 ≤ (fieldOp a).toNat) : s.issue a = .next (s.raise .cmdOp) := by
  simp only [State.issue, decode_of_reserved s.cmdBWord h]

theorem State.issue_xor_rsvA (a : Word) : s.issue (a ^^^ 0x01000000) = s.issue a := by
  simp only [State.issue, decode_xor_rsvA]

end

/-- Settles O4: a reserved opcode decodes to no command, so issuing it raises CMD_OP_ERR alone. -/
theorem reservedOpcodeOnlySetsCmdOpErr : Obligations.ReservedOpcodeOnlySetsCmdOpErr := by
  unfold Obligations.ReservedOpcodeOnlySetsCmdOpErr
  intro s a
  refine ⟨s.hostWr_cmdA a, fun hop => ?reserved⟩
  case reserved =>
    rw [s.hostWr_cmdA, s.issue_of_reserved hop]
    rfl

/-! ### CMD_B -/

section
variable (s : State)

@[simp] theorem State.readReg_cmdB : s.readReg 0x10 = s.cmdBWord := rfl
@[simp] theorem State.writeReg_cmdB (v : Word) :
    s.writeReg 0x10 v = .next { s with regs := { s.regs with cmdB := v.extractLsb' 0 24 } } := rfl

/-- RSVB is bits 31:24: what CMD_B stores of a word does not hold it. -/
theorem extractLsb'_xor_rsvB (v : Word) (hi : BitVec 8) : (v ^^^ (hi ++ 0#24)).extractLsb' 0 24 = v.extractLsb' 0 24 := by
  rw [BitVec.extractLsb'_xor, BitVec.extractLsb'_append_eq_right, BitVec.xor_zero]

theorem State.writeReg_cmdB_xor_rsvB (v : Word) (hi : BitVec 8) :
    s.writeReg 0x10 (v ^^^ (hi ++ 0#24)) = s.writeReg 0x10 v := by
  simp only [State.writeReg_cmdB, extractLsb'_xor_rsvB]

theorem State.cmdBWord_rsvB : s.cmdBWord.extractLsb' 24 8 = 0#8 :=
  BitVec.extractLsb'_append_eq_left

end

/-- Settles O5: bit 24 lies in no field of CMD_A, and CMD_B stores and reads back the bits below RSVB alone. -/
theorem reservedBitsIgnored : Obligations.ReservedBitsIgnored := by
  unfold Obligations.ReservedBitsIgnored
  refine ⟨State.issue_xor_rsvA, State.writeReg_cmdB_xor_rsvB, fun s => ?readsZero⟩
  case readsZero => rw [s.readReg_cmdB, s.cmdBWord_rsvB]

end Sys2Proof.Machine
end

section
/-! PROOFS. Line and frame timing (spec/40_timing_programs.md R155, R156, R159, R160, R167, R169, R170). H counts ticks and V
counts lines with one and the same `countStep`, so the timing is proved once, for any such sequencer: `Seq.At` gives it a place
in its period of phases, and `Seq.At.countStep` moves it to the next place. H's place after tick k is k mod L; V's is one place
further for every L ticks. -/

namespace Sys2Proof.Machine

/-! ### The pins of a tick -/

theorem syncLevel_eq_active_iff (level : Bool) (q : Seq) : syncLevel level q = level ↔ q.phase = .sync := by
  unfold syncLevel
  split <;> simp [*]

/-- P shows black before its first line and between two lines (R161, R162, R167). -/
theorem pixStep_rgb_outside_line {p : PixSeq} {awf : Bool} (pq : List Word)
    (h : p.phase = .idle ∨ p.phase = .param ∨ (p.phase = .wait ∧ awf = false)) : (pixStep p awf pq).rgb = 0 := by
  rcases h with hidle | hparam | ⟨hwait, hawf⟩
  · simp [pixStep, hidle]
  · cases pq <;> simp [pixStep, hparam]
  · simp [pixStep, hwait, hawf]

/-- Settles O44: a sync pin's level is `syncLevel` of its sequencer at the tick's start, and RGB is what P's step gives. -/
theorem tickDrivesThePins : Obligations.TickDrivesThePins := by
  unfold Obligations.TickDrivesThePins
  intro s
  exact ⟨rfl, rfl, pixStep_rgb_outside_line s.pq⟩

/-! ### The period of a sequencer -/

/-- The phases that count, those in the cycle of R151. -/
def Phase.counts : Phase → Bool
  | .idle => false
  | .param => false
  | .active => true
  | .fp => true
  | .sync => true
  | .bp => true

section
variable (load : Word → Phase → Word) (par : Word)

/-- The length of a phase: it loads its length minus one (R151). -/
def phaseLen (ph : Phase) : Nat := (load par ph).toNat + 1

/-- The place in the period, counted from the start of ACTIVE, at which a phase starts (R151). -/
def phaseStart : Phase → Nat
  | .idle => 0
  | .param => 0
  | .active => 0
  | .fp => phaseLen load par .active
  | .sync => phaseLen load par .active + phaseLen load par .fp
  | .bp => phaseLen load par .active + phaseLen load par .fp + phaseLen load par .sync

/-- The length of the whole cycle of phases. -/
def seqPeriod : Nat := phaseStart load par .bp + phaseLen load par .bp

/-- The phase at a place of the period. -/
def phaseAt (r : Nat) : Phase :=
  if r < phaseStart load par .fp then .active
  else if r < phaseStart load par .sync then .fp
  else if r < phaseStart load par .bp then .sync
  else .bp

/-- A sequencer with parameter `par` is at place r of its period: it is in a phase that counts, its count is one the phase can
have, and r and the count add up to the phase's last place. -/
structure Seq.At (q : Seq) (r : Nat) : Prop where
  counts : q.phase.counts = true
  par_eq : q.par = par
  fits : q.cnt.toNat ≤ (load par q.phase).toNat
  place : r + q.cnt.toNat = phaseStart load par q.phase + (load par q.phase).toNat

end

section
variable {load : Word → Phase → Word} {par : Word} {ph : Phase} {q : Seq} {r : Nat}

theorem Phase.counts_nextPhase (h : ph.counts = true) : (nextPhase ph).counts = true := by
  cases ph <;> exact h

theorem phaseLen_pos : 0 < phaseLen load par ph := Nat.succ_pos _

theorem seqPeriod_pos : 0 < seqPeriod load par := Nat.add_pos_right _ phaseLen_pos

theorem phaseStart_add_phaseLen_le (h : ph.counts = true) :
    phaseStart load par ph + phaseLen load par ph ≤ seqPeriod load par := by
  cases ph with
  | idle => cases h
  | param => cases h
  | active | fp | sync | bp => simp only [seqPeriod, phaseStart]; omega

/-- Where a phase ends the next one starts, and where BP ends the period starts again (R151). -/
theorem phaseStart_nextPhase (h : ph.counts = true) :
    (phaseStart load par ph + phaseLen load par ph) % seqPeriod load par = phaseStart load par (nextPhase ph) := by
  have hf := phaseLen_pos (load := load) (par := par) (ph := .fp)
  have hs := phaseLen_pos (load := load) (par := par) (ph := .sync)
  have hb := phaseLen_pos (load := load) (par := par) (ph := .bp)
  cases ph with
  | idle => cases h
  | param => cases h
  | active => exact (Nat.mod_eq_of_lt (by simp only [seqPeriod, phaseStart]; omega)).trans (Nat.zero_add _)
  | fp | sync => exact Nat.mod_eq_of_lt (by simp only [seqPeriod, phaseStart]; omega)
  | bp => exact Nat.mod_self _

theorem phaseAt_of_window (hc : ph.counts = true) (lo : phaseStart load par ph ≤ r)
    (hi : r < phaseStart load par ph + phaseLen load par ph) : phaseAt load par r = ph := by
  have past : ∀ {n}, n ≤ phaseStart load par ph → ¬ r < n := fun hn => Nat.not_lt.mpr (hn.trans lo)
  have hfp : phaseStart load par .fp ≤ phaseStart load par .sync := Nat.le_add_right _ _
  have hsync : phaseStart load par .sync ≤ phaseStart load par .bp := Nat.le_add_right _ _
  unfold phaseAt
  cases ph with
  | idle => cases hc
  | param => cases hc
  | active => exact if_pos (hi.trans_eq (Nat.zero_add _))
  | fp => rw [if_neg (past (Nat.le_refl _)), if_pos (show r < phaseStart load par .sync from hi)]
  | sync => rw [if_neg (past hfp), if_neg (past (Nat.le_refl _)), if_pos (show r < phaseStart load par .bp from hi)]
  | bp => rw [if_neg (past (hfp.trans hsync)), if_neg (past hsync), if_neg (past (Nat.le_refl _))]

theorem Seq.At.window (h : Seq.At load par q r) :
    phaseStart load par q.phase ≤ r ∧ r < phaseStart load par q.phase + phaseLen load par q.phase := by
  have hfits := h.fits
  have hplace := h.place
  unfold phaseLen
  omega

theorem Seq.At.phase_eq (h : Seq.At load par q r) : q.phase = phaseAt load par r := by
  obtain ⟨lo, hi⟩ := h.window
  exact (phaseAt_of_window h.counts lo hi).symm

theorem Seq.At.phase_eq_iff (h : Seq.At load par q r) (hc : ph.counts = true) :
    q.phase = ph ↔ phaseStart load par ph ≤ r ∧ r < phaseStart load par ph + phaseLen load par ph := by
  constructor
  · rintro rfl
    exact h.window
  · rintro ⟨lo, hi⟩
    exact h.phase_eq.trans (phaseAt_of_window hc lo hi)

/-- The period's last place is BP with count 0: for H, the tick of LB (R156). -/
theorem Seq.At.last_iff (h : Seq.At load par q r) : q.phase = .bp ∧ q.cnt = 0 ↔ r + 1 = seqPeriod load par := by
  have hplace := h.place
  constructor
  · rintro ⟨hphase, hcnt⟩
    rw [hphase, hcnt] at hplace
    rw [seqPeriod, phaseLen, ← Nat.add_assoc, ← hplace]
    rfl
  · intro hr
    unfold seqPeriod phaseLen at hr
    have hphase : q.phase = .bp := (h.phase_eq_iff rfl).mpr ⟨by omega, by unfold phaseLen; omega⟩
    rw [hphase] at hplace
    have hcnt : q.cnt.toNat = 0 := by omega
    exact ⟨hphase, BitVec.eq_of_toNat_eq hcnt⟩

theorem Seq.at_first : Seq.At load par { phase := .active, cnt := load par .active, par := par } 0 :=
  ⟨rfl, rfl, Nat.le_refl _, rfl⟩

theorem Seq.at_last : Seq.At load par { phase := .bp, cnt := 0, par := par } (seqPeriod load par - 1) :=
  ⟨rfl, rfl, Nat.zero_le _, rfl⟩

/-- One count is one place, cyclically: within a phase the count goes down, and a phase that is over gives way to the next with
its load (R154, R158). -/
theorem Seq.At.countStep (h : Seq.At load par q r) :
    Seq.At load par (countStep load q) ((r + 1) % seqPeriod load par) := by
  have hfits := h.fits
  have hplace := h.place
  rcases countStep_cases load q with ⟨hcnt, e⟩ | ⟨hcnt, e⟩
  · have hnext : (r + 1) % seqPeriod load par = phaseStart load par (nextPhase q.phase) := by
      rw [← phaseStart_nextPhase h.counts, phaseLen, ← Nat.add_assoc, ← hplace, hcnt]
      rfl
    rw [e, hnext, h.par_eq]
    exact ⟨Phase.counts_nextPhase h.counts, rfl, Nat.le_refl _, rfl⟩
  · have hpos : 0 < q.cnt.toNat := Nat.pos_of_ne_zero fun h0 => hcnt (BitVec.eq_of_toNat_eq h0)
    have hdown : (q.cnt - 1).toNat = q.cnt.toNat - 1 := BitVec.toNat_sub_of_le (by bv_omega)
    have hend := phaseStart_add_phaseLen_le (load := load) (par := par) h.counts
    rw [e, Nat.mod_eq_of_lt (by unfold phaseLen at hend; omega)]
    exact ⟨h.counts, h.par_eq, by simp only [hdown]; omega, by simp only [hdown]; omega⟩

end

/-! ### H and V in a tick -/

section
variable (pl : Platform)

theorem hStep_of_counts {h : Seq} (hq : List Word) (hc : h.phase.counts = true) :
    hStep pl h hq = (countStep (hLoad pl) h, hq) := by
  obtain ⟨phase, cnt, par⟩ := h
  cases phase with
  | idle => cases hc
  | param => cases hc
  | active | fp | sync | bp => rfl

theorem vStep_of_counts (lb : Bool) {v : Seq} (vq : List Word) (hc : v.phase.counts = true) :
    vStep pl lb v vq = vCount pl lb v vq := by
  obtain ⟨phase, cnt, par⟩ := v
  cases phase with
  | idle => cases hc
  | param => cases hc
  | active | fp | sync | bp => rfl

theorem hStep_param {h : Seq} (hp : Word) (hparam : h.phase = .param) :
    hStep pl h [hp] = ({ phase := .active, cnt := hp, par := hp }, []) := by
  simp only [hStep, hparam]

theorem vStep_param (lb : Bool) {v : Seq} (vp : Word) (vparam : v.phase = .param) :
    vStep pl lb v [vp] = ({ phase := .bp, cnt := 0, par := vp }, [], false) := by
  simp only [vStep, vparam]

@[simp] theorem phaseLen_hLoad_active (hp : Word) : phaseLen (hLoad pl) hp .active = hp.toNat + 1 := rfl
@[simp] theorem phaseLen_hLoad_fp (hp : Word) : phaseLen (hLoad pl) hp .fp = pl.hFpM1.toNat + 1 :=
  congrArg (· + 1) (BitVec.toNat_setWidth_of_le (by decide))
@[simp] theorem phaseLen_hLoad_sync (hp : Word) : phaseLen (hLoad pl) hp .sync = pl.hSyncM1.toNat + 1 :=
  congrArg (· + 1) (BitVec.toNat_setWidth_of_le (by decide))
@[simp] theorem phaseLen_hLoad_bp (hp : Word) : phaseLen (hLoad pl) hp .bp = pl.hBpM1.toNat + 1 :=
  congrArg (· + 1) (BitVec.toNat_setWidth_of_le (by decide))

@[simp] theorem phaseLen_vLoad_active (vp : Word) : phaseLen (vLoad pl) vp .active = vp.toNat + 1 := rfl
@[simp] theorem phaseLen_vLoad_fp (vp : Word) : phaseLen (vLoad pl) vp .fp = 10 := rfl
@[simp] theorem phaseLen_vLoad_sync (vp : Word) : phaseLen (vLoad pl) vp .sync = pl.vSyncM1.toNat + 1 :=
  congrArg (· + 1) (BitVec.toNat_setWidth_of_le (by decide))
@[simp] theorem phaseLen_vLoad_bp (vp : Word) : phaseLen (vLoad pl) vp .bp = 2 := rfl

/-- The line period of R169 is the period of H. -/
theorem seqPeriod_hLoad (hp : Word) : seqPeriod (hLoad pl) hp = linePeriod pl hp := by
  simp [seqPeriod, phaseStart, linePeriod]

/-- The frame period of R170 is the period of V, in lines. -/
theorem seqPeriod_vLoad (vp : Word) : seqPeriod (vLoad pl) vp = framePeriod pl vp := by
  simp only [seqPeriod, phaseStart, phaseLen_vLoad_active, phaseLen_vLoad_fp, phaseLen_vLoad_sync, phaseLen_vLoad_bp,
    framePeriod]

theorem lineBoundary_iff (h : Seq) : lineBoundary h = true ↔ h.phase = .bp ∧ h.cnt = 0 := by
  simp [lineBoundary]

theorem State.tick_v_of_lineBoundary {s : State} (hlb : lineBoundary s.h = true) (hc : s.v.phase.counts = true) :
    s.tick.v = countStep (vLoad s.platform) s.v := by
  rw [State.tick_v, vStep_of_counts _ _ _ hc, vCount, if_pos hlb]

theorem State.tick_v_of_not_lineBoundary {s : State} (hlb : ¬ lineBoundary s.h = true) (hc : s.v.phase.counts = true) :
    s.tick.v = s.v := by
  rw [State.tick_v, vStep_of_counts _ _ _ hc, vCount, if_neg hlb]

/-- The tick that starts an active line sets AWF (R159). -/
theorem State.tick_awf_of_lineBoundary {s : State} (hlb : lineBoundary s.h = true) (hc : s.v.phase.counts = true)
    (hactive : s.tick.v.phase = .active) : s.tick.awf = true := by
  rw [State.tick_v_of_lineBoundary hlb hc] at hactive
  rw [State.tick_awf, vStep_of_counts _ _ _ hc, vCount, if_pos hlb]
  simp [hactive]

end

/-! ### Runs of ticks -/

/-- A window of places, met again in every period. -/
theorem exists_period_window_iff {L a b k : Nat} (hb : b ≤ L) :
    (∃ m, m * L + a ≤ k ∧ k < m * L + b) ↔ a ≤ k % L ∧ k % L < b := by
  constructor
  · rintro ⟨m, lo, hi⟩
    obtain ⟨r, rfl⟩ := Nat.exists_eq_add_of_le (Nat.le_of_add_right_le lo)
    rw [Nat.mul_add_mod_self_right, Nat.mod_eq_of_lt (by omega)]
    omega
  · intro hwin
    have hsplit := Nat.div_add_mod' k L
    exact ⟨k / L, by omega, by omega⟩

theorem mod_add_one_eq_iff_dvd {L : Nat} (hL : 0 < L) (k : Nat) : k % L + 1 = L ↔ L ∣ k + 1 := by
  obtain ⟨n, rfl⟩ := Nat.exists_eq_add_one_of_ne_zero hL.ne'
  rw [Nat.dvd_iff_mod_eq_zero, Nat.succ_mod_succ_eq_zero_iff, Nat.add_right_cancel_iff]

theorem linePeriod_pos (pl : Platform) (hp : Word) : 0 < linePeriod pl hp :=
  seqPeriod_hLoad pl hp ▸ seqPeriod_pos

theorem framePeriod_pos (pl : Platform) (vp : Word) : 0 < framePeriod pl vp :=
  seqPeriod_vLoad pl vp ▸ seqPeriod_pos

theorem State.platform_ticks (s : State) (t : Nat) : (State.tick^[t] s).platform = s.platform := by
  induction t with
  | zero => rfl
  | succ t ih => rw [Function.iterate_succ_apply', State.tick_platform, ih]

theorem State.hsync_ticks_iff (s : State) (t : Nat) :
    (State.tick^[t + 1] s).pins.hsync = s.platform.hsyncActive ↔ (State.tick^[t] s).h.phase = .sync := by
  rw [Function.iterate_succ_apply', State.tick_pins, ← s.platform_ticks t]
  exact syncLevel_eq_active_iff _ _

theorem State.vsync_ticks_iff (s : State) (t : Nat) :
    (State.tick^[t + 1] s).pins.vsync = s.platform.vsyncActive ↔ (State.tick^[t] s).v.phase = .sync := by
  rw [Function.iterate_succ_apply', State.tick_pins, ← s.platform_ticks t]
  exact syncLevel_eq_active_iff _ _

section
variable {s : State} {hp : Word} (hparam : s.h.phase = .param) (hqueue : s.hq = [hp])
include hparam hqueue

/-- Tick 0 pulls HP; after tick k, H is at place k mod L. -/
theorem State.h_at_ticks (k : Nat) :
    Seq.At (hLoad s.platform) hp (State.tick^[k + 1] s).h (k % linePeriod s.platform hp) := by
  induction k with
  | zero =>
    rw [Nat.zero_mod, Function.iterate_one, State.tick_h, hqueue, hStep_param _ hp hparam]
    exact Seq.at_first
  | succ k ih =>
    have hstep := ih.countStep
    rw [seqPeriod_hLoad, Nat.mod_add_mod] at hstep
    rwa [Function.iterate_succ_apply', State.tick_h, hStep_of_counts _ _ ih.counts, s.platform_ticks]

/-- The ticks of a phase of H, line by line (R169). -/
theorem State.h_phase_ticks_iff {ph : Phase} (hc : ph.counts = true) (t : Nat) :
    (State.tick^[t] s).h.phase = ph ↔
      ∃ m, m * linePeriod s.platform hp + phaseStart (hLoad s.platform) hp ph + 1 ≤ t ∧
        t ≤ m * linePeriod s.platform hp + (phaseStart (hLoad s.platform) hp ph + phaseLen (hLoad s.platform) hp ph) := by
  cases t with
  | zero =>
    have hne : s.h.phase ≠ ph := by
      rintro rfl
      simp [hparam, Phase.counts] at hc
    simp [hne]
  | succ k =>
    have hend := seqPeriod_hLoad s.platform hp ▸ phaseStart_add_phaseLen_le (load := hLoad s.platform) (par := hp) hc
    rw [(State.h_at_ticks hparam hqueue k).phase_eq_iff hc, ← exists_period_window_iff hend]
    simp only [Nat.succ_le_iff, Nat.lt_succ_iff]

theorem State.lineBoundary_ticks_iff (k : Nat) :
    lineBoundary (State.tick^[k + 1] s).h = true ↔ linePeriod s.platform hp ∣ k + 1 := by
  rw [lineBoundary_iff, (State.h_at_ticks hparam hqueue k).last_iff, seqPeriod_hLoad,
    mod_add_one_eq_iff_dvd (linePeriod_pos _ _)]

end

/-- Settles O49: HSYNC goes with H's phase, a phase's ticks are `State.h_phase_ticks_iff`, and LB is the last tick of the
period. -/
theorem lineTiming : Obligations.LineTiming := by
  unfold Obligations.LineTiming
  intro s hp hparam hqueue t L q
  refine ⟨?active, ?hsync, ?boundary⟩
  case active =>
    rw [State.h_phase_ticks_iff hparam hqueue rfl]
    simp [phaseStart, L, Nat.add_assoc]
  case hsync =>
    rw [s.hsync_ticks_iff, State.h_phase_ticks_iff hparam hqueue rfl]
    refine exists_congr fun m => ?_
    simp only [phaseStart, phaseLen_hLoad_active, phaseLen_hLoad_fp, phaseLen_hLoad_sync, L]
    omega
  case boundary =>
    cases t with
    | zero =>
      have hL : 0 < L := linePeriod_pos _ _
      have hq : lineBoundary q = false := by simp [q, lineBoundary, hparam]
      simp only [hq, Bool.false_eq_true, false_iff]
      rintro ⟨m, hm, h0⟩
      exact (Nat.mul_pos hm hL).ne h0
    | succ k =>
      rw [State.lineBoundary_ticks_iff hparam hqueue, dvd_iff_exists_eq_mul_left]
      refine exists_congr fun m => ⟨fun hk => ⟨Nat.pos_of_ne_zero fun hm => ?_, hk⟩, And.right⟩
      simp [hm] at hk

section
variable {s : State} {hp vp : Word} (hparam : s.h.phase = .param) (hqueue : s.hq = [hp]) (vparam : s.v.phase = .param)
  (vqueue : s.vq = [vp])
include hparam hqueue vparam vqueue

/-- Tick 0 puts V at the last line of a frame, the last of BP; from then on each LB, every L ticks, is one line. -/
theorem State.v_at_ticks (k : Nat) :
    Seq.At (vLoad s.platform) vp (State.tick^[k + 1] s).v
      ((k / linePeriod s.platform hp + (framePeriod s.platform vp - 1)) % framePeriod s.platform vp) := by
  induction k with
  | zero =>
    have hF := framePeriod_pos s.platform vp
    rw [Nat.zero_div, Nat.zero_add (framePeriod s.platform vp - 1), Nat.mod_eq_of_lt (by omega), ← seqPeriod_vLoad,
      Nat.zero_add, Function.iterate_one, State.tick_v, vqueue, vStep_param _ _ vp vparam]
    exact Seq.at_last
  | succ k ih =>
    rw [Function.iterate_succ_apply']
    have hlb := State.lineBoundary_ticks_iff hparam hqueue k
    by_cases hdvd : linePeriod s.platform hp ∣ k + 1
    · have hstep := ih.countStep
      rw [seqPeriod_vLoad, Nat.mod_add_mod, Nat.add_right_comm, ← Nat.succ_div_of_dvd hdvd] at hstep
      rwa [State.tick_v_of_lineBoundary (hlb.mpr hdvd) ih.counts, s.platform_ticks]
    · rwa [State.tick_v_of_not_lineBoundary (mt hlb.mp hdvd) ih.counts, Nat.succ_div_of_not_dvd hdvd]

/-- In the start-up line V is in PARAM or BP (R157, R170). -/
theorem State.v_phase_startup {t : Nat} (ht : t ≤ linePeriod s.platform hp) :
    (State.tick^[t] s).v.phase = .param ∨ (State.tick^[t] s).v.phase = .bp := by
  cases t with
  | zero => exact .inl vparam
  | succ k =>
    have hF := framePeriod_pos s.platform vp
    have hat := State.v_at_ticks hparam hqueue vparam vqueue k
    rw [Nat.div_eq_of_lt ht, Nat.zero_add, Nat.mod_eq_of_lt (by omega), ← seqPeriod_vLoad] at hat
    exact .inr (hat.last_iff.mpr (Nat.sub_add_cancel seqPeriod_pos)).1

/-- In line m, V is at place (m − 1) mod F. -/
theorem State.v_at_line {m t : Nat} (hm : 1 ≤ m) (lo : m * linePeriod s.platform hp + 1 ≤ t)
    (hi : t ≤ (m + 1) * linePeriod s.platform hp) :
    Seq.At (vLoad s.platform) vp (State.tick^[t] s).v ((m - 1) % framePeriod s.platform vp) := by
  obtain ⟨k, rfl⟩ : ∃ k, t = k + 1 := ⟨t - 1, by omega⟩
  have hF := framePeriod_pos s.platform vp
  have hat := State.v_at_ticks hparam hqueue vparam vqueue k
  rwa [Nat.div_eq_of_lt_le (Nat.le_of_succ_le_succ lo) hi,
    show m + (framePeriod s.platform vp - 1) = m - 1 + framePeriod s.platform vp by omega, Nat.add_mod_right] at hat

/-- The tick before line m has LB, and if line m is active it sets AWF (R159). -/
theorem State.awf_at_line {m : Nat} (hm : 1 ≤ m)
    (hactive : (State.tick^[m * linePeriod s.platform hp + 1] s).v.phase = .active) :
    (State.tick^[m * linePeriod s.platform hp + 1] s).awf = true := by
  obtain ⟨k, hk⟩ : ∃ k, m * linePeriod s.platform hp = k + 1 :=
    ⟨_, (Nat.sub_add_cancel (Nat.mul_pos hm (linePeriod_pos _ _))).symm⟩
  rw [hk] at hactive ⊢
  have hlb := (State.lineBoundary_ticks_iff hparam hqueue k).mpr (hk ▸ Nat.dvd_mul_left _ m)
  rw [Function.iterate_succ_apply'] at hactive ⊢
  exact State.tick_awf_of_lineBoundary hlb (State.v_at_ticks hparam hqueue vparam vqueue k).counts hactive

end

/-- The phases of V over the lines of a frame, as R170 lists them. -/
theorem Seq.At.vPhase_eq {pl : Platform} {vp : Word} {q : Seq} {r : Nat} (h : Seq.At (vLoad pl) vp q r) :
    q.phase =
      if r ≤ vp.toNat then .active
      else if r ≤ vp.toNat + 10 then .fp
      else if r ≤ vp.toNat + 10 + (pl.vSyncM1.toNat + 1) then .sync
      else .bp := by
  have hsync : r < vp.toNat + 1 + 10 ↔ r ≤ vp.toNat + 10 := by omega
  have hbp : r < vp.toNat + 1 + 10 + (pl.vSyncM1.toNat + 1) ↔ r ≤ vp.toNat + 10 + (pl.vSyncM1.toNat + 1) := by omega
  simp only [h.phase_eq, phaseAt, phaseStart, phaseLen_vLoad_active, phaseLen_vLoad_fp, phaseLen_vLoad_sync,
    Nat.lt_succ_iff, hsync, hbp]

/-- Settles O50: V's place is the line's number, one less, modulo the frame, and the place says phase and VSYNC. -/
theorem frameTiming : Obligations.FrameTiming := by
  unfold Obligations.FrameTiming
  intro s hp vp hparam hqueue vparam vqueue L F
  refine ⟨fun t ht => ?startup, fun m t hm lo hi => ?line⟩
  case startup =>
    have hphase := State.v_phase_startup hparam hqueue vparam vqueue ht
    have hne : (State.tick^[t] s).v.phase ≠ .active ∧ (State.tick^[t] s).v.phase ≠ .sync := by
      rcases hphase with h | h <;> simp [h]
    exact ⟨hne.1, Bool.eq_not_of_ne (mt (s.vsync_ticks_iff t).mp hne.2)⟩
  case line =>
    have hat := State.v_at_line hparam hqueue vparam vqueue hm lo hi
    refine ⟨hat.vPhase_eq, ?vsync, fun hr => ?awf⟩
    case vsync =>
      rw [s.vsync_ticks_iff, hat.phase_eq_iff rfl]
      simp only [phaseStart, phaseLen_vLoad_active, phaseLen_vLoad_fp, phaseLen_vLoad_sync, F]
      omega
    case awf =>
      have hfirst := State.v_at_line hparam hqueue vparam vqueue hm (Nat.le_refl _)
        (Nat.succ_mul m L ▸ Nat.add_le_add_left (linePeriod_pos _ _) _)
      exact State.awf_at_line hparam hqueue vparam vqueue hm (hfirst.vPhase_eq.trans (if_pos hr))

end Sys2Proof.Machine
end


section
/-! PROOFS. Sync commands out of sequence (spec/42_sync_controller.md R211, R213): RUN decides between the transition and
SEQ_ERR, and reporting SEQ_ERR writes one flag. -/

namespace Sys2Proof.Machine

theorem State.raise_seq (s : State) : s.raise .seq = { s with flags := { s.flags with seqErr := true } } := rfl

section
variable {s : State}

/-- A second START is reported, not carried out (R211). -/
theorem exec_start_of_running (hrun : s.run = true) : exec .start s = .next (s.raise .seq) := by
  simp only [exec, execStart, if_pos hrun]

/-- A second STOP is reported, not carried out (R213). -/
theorem exec_stop_of_stopped (hrun : s.run = false) : exec .stop s = .next (s.raise .seq) := by
  simp only [exec, execStop, hrun, Bool.false_eq_true, if_false]

end

/-- Settles O17: each of the two takes the branch that raises SEQ_ERR, and raising it writes that flag alone. -/
theorem repeatedStartOrStopOnlySetsSeqErr : Obligations.RepeatedStartOrStopOnlySetsSeqErr := by
  unfold Obligations.RepeatedStartOrStopOnlySetsSeqErr
  refine ⟨fun s hrun => ?start, fun s hrun => ?stop⟩
  case start => rw [exec_start_of_running hrun, s.raise_seq]
  case stop => rw [exec_stop_of_stopped hrun, s.raise_seq]

end Sys2Proof.Machine
end

section
/-! PROOFS. NOP (spec/43_framebuffer_commands.md R233): OP alone selects it, and its arm answers the state it is given, with no
test of BUSY or RUN. -/

namespace Sys2Proof

/-- With OP = 0 the other fields of CMD_A and all of CMD_B are ignored (R124, R127). -/
theorem decode_of_fieldOp_zero {a : Word} (b : Word) (hop : fieldOp a = 0#4) : decode a b = .ok .nop := by
  unfold decode
  rw [hop]
  rfl

end Sys2Proof

namespace Sys2Proof.Machine

theorem exec_nop (s : State) : exec .nop s = .next s := rfl

/-- Settles O9: the NOP arm answers the state it is given, and the decoder's first case looks at OP alone. -/
theorem nopChangesNothing : Obligations.NopChangesNothing := by
  unfold Obligations.NopChangesNothing
  refine ⟨exec_nop, fun a b hop => ?opZero⟩
  case opZero => exact decode_of_fieldOp_zero b hop

end Sys2Proof.Machine
end

section
/-! PROOFS. The order of the checks a CMD_A write makes (spec/60_exceptions.md R271, R273). OP settles the first two checks; the
last two are those of `acceptDraw`, where a command is rejected for its coordinates exactly when it builds no micro-ops. -/

namespace Sys2Proof

/-! ### The decoder -/

section
variable {a : Word}

theorem decode_of_op_pixel (b : Word) (hop : (fieldOp a).toNat = 1) :
    decode a b = .ok (.pixel (fieldX a) (fieldY a) (fieldColor a)) := by
  simp only [decode, hop]

theorem decode_of_op_fill (b : Word) (hop : (fieldOp a).toNat = 2) : decode a b = .ok (.fill (fieldColor a)) := by
  simp only [decode, hop]

theorem decode_of_op_hline (b : Word) (hop : (fieldOp a).toNat = 3) :
    decode a b = .ok (.hline (fieldX a) (fieldX b) (fieldY a) (fieldColor a)) := by
  simp only [decode, hop]

theorem decode_of_op_vline (b : Word) (hop : (fieldOp a).toNat = 4) :
    decode a b = .ok (.vline (fieldX a) (fieldY a) (fieldY b) (fieldColor a)) := by
  simp only [decode, hop]

theorem decode_of_op_start (b : Word) (hop : (fieldOp a).toNat = 5) : decode a b = .ok .start := by
  simp only [decode, hop]

theorem decode_of_op_stop (b : Word) (hop : (fieldOp a).toNat = 6) : decode a b = .ok .stop := by
  simp only [decode, hop]

end

end Sys2Proof

namespace Sys2Proof.Machine

/-! ### The coordinate check -/

/-- The pixels (x, y1) to (x, y2) are not all on the screen (R271). -/
def OffScreen (x y1 y2 : Int) : Prop := ¬ (0 ≤ x ∧ x < 640 ∧ 0 ≤ min y1 y2 ∧ max y1 y2 < 480)

/-- The words of a PIXEL or VLINE with an operand off the screen, the two commands whose coordinates are checked (R271). -/
def CoordRejected (a b : Word) : Prop :=
  ((fieldOp a).toNat = 1 ∧ OffScreen (fieldX a) (fieldY a) (fieldY a)) ∨
  ((fieldOp a).toNat = 4 ∧ OffScreen (fieldX a) (fieldY a) (fieldY b))

theorem xInRange_iff (x : Int) : xInRange x = true ↔ 0 ≤ x ∧ x < 640 := by
  simp only [xInRange, Bool.and_eq_true, decide_eq_true_eq]
  rfl

theorem yInRange_iff (y : Int) : yInRange y = true ↔ 0 ≤ y ∧ y < 480 := by
  simp only [yInRange, Bool.and_eq_true, decide_eq_true_eq]
  rfl

theorem buildPixel_eq_none_iff (x y : Int) (c : Color) (base : Word) :
    buildPixel x y c base = none ↔ OffScreen x y y := by
  simp only [buildPixel, ite_eq_right_iff, reduceCtorEq, imp_false, Bool.and_eq_true, xInRange_iff, yInRange_iff, OffScreen,
    min_self, max_self, and_assoc]

/-- The model tests both bounds of either end: the lower end's upper bound and the upper end's lower bound follow from the
other two. -/
theorem buildVline_eq_none_iff (x y1 y2 : Int) (c : Color) (base : Word) :
    buildVline x y1 y2 c base = none ↔ OffScreen x y1 y2 := by
  simp only [buildVline, ite_eq_right_iff, reduceCtorEq, imp_false, Bool.and_eq_true, xInRange_iff, yInRange_iff, OffScreen]
  omega

theorem buildHline_ne_none (x1 x2 y : Int) (c : Color) (base : Word) : buildHline x1 x2 y c base ≠ none := by
  simp only [buildHline]
  split <;> exact Option.some_ne_none _

theorem exec_of_build {s : State} {i : Instr} {build : Word → Option (List MicroOp)} (hb : Instr.build i = some build) :
    exec i s = .next (s.acceptDraw build) := by
  cases i with
  | nop | start | stop => cases hb
  | pixel | fill | hline | vline => cases hb; rfl

/-- OP 1 to 4 is a draw command, and of the four PIXEL and VLINE alone can build no micro-ops. -/
theorem decode_of_op_draw {a : Word} (b : Word) (lo : 1 ≤ (fieldOp a).toNat) (hi : (fieldOp a).toNat ≤ 4) :
    ∃ i build, decode a b = .ok i ∧ Instr.build i = some build ∧ ∀ base, build base = none ↔ CoordRejected a b := by
  have hop : (fieldOp a).toNat = 1 ∨ (fieldOp a).toNat = 2 ∨ (fieldOp a).toNat = 3 ∨ (fieldOp a).toNat = 4 := by omega
  rcases hop with hpixel | hfill | hhline | hvline
  · exact ⟨_, _, decode_of_op_pixel b hpixel, rfl, fun base => by simp [buildPixel_eq_none_iff, CoordRejected, hpixel]⟩
  · exact ⟨_, _, decode_of_op_fill b hfill, rfl, fun base => by simp [buildFill, CoordRejected, hfill]⟩
  · exact ⟨_, _, decode_of_op_hline b hhline, rfl, fun base => by simp [buildHline_ne_none, CoordRejected, hhline]⟩
  · exact ⟨_, _, decode_of_op_vline b hvline, rfl, fun base => by simp [buildVline_eq_none_iff, CoordRejected, hvline]⟩

/-! ### What issuing a word answers -/

section
variable (s : State) {a : Word}

theorem State.issue_of_decode {i : Instr} (hd : decode a s.cmdBWord = .ok i) : s.issue a = exec i s := by
  simp only [State.issue, hd]

/-- The second check (R211, R213). -/
theorem State.issue_of_outOfSequence
    (h : ((fieldOp a).toNat = 5 ∧ s.run = true) ∨ ((fieldOp a).toNat = 6 ∧ s.run = false)) :
    s.issue a = .next (s.raise .seq) := by
  rcases h with ⟨hop, hrun⟩ | ⟨hop, hrun⟩
  · rw [s.issue_of_decode (decode_of_op_start _ hop), exec_start_of_running hrun]
  · rw [s.issue_of_decode (decode_of_op_stop _ hop), exec_stop_of_stopped hrun]

/-- The third and the fourth check, in this order, and what is left (R230). -/
theorem State.issue_of_op_draw (lo : 1 ≤ (fieldOp a).toNat) (hi : (fieldOp a).toNat ≤ 4) :
    (s.eng.ops ≠ [] ∧ s.issue a = .next (s.raise .cmdBusy)) ∨
    (s.eng.ops = [] ∧ CoordRejected a s.cmdBWord ∧ s.issue a = .next (s.raise .coord)) ∨
    (s.eng.ops = [] ∧ ¬ CoordRejected a s.cmdBWord ∧ ∃ ops, s.issue a = .next (s.loadEngine ops)) := by
  obtain ⟨i, build, hd, hb, hnone⟩ := decode_of_op_draw s.cmdBWord lo hi
  rw [s.issue_of_decode hd, exec_of_build hb, ← hnone s.fbBase]
  rcases s.acceptDraw_cases build with ⟨hbusy, hs⟩ | ⟨hidle, hrej, hs⟩ | ⟨ops, hidle, hacc, hs⟩
  · exact .inl ⟨hbusy, by rw [hs]⟩
  · exact .inr (.inl ⟨hidle, hrej, by rw [hs]⟩)
  · exact .inr (.inr ⟨hidle, by simp [hacc], ops, by rw [hs]⟩)

theorem State.issue_of_busy (lo : 1 ≤ (fieldOp a).toNat) (hi : (fieldOp a).toNat ≤ 4) (hbusy : s.eng.ops ≠ []) :
    s.issue a = .next (s.raise .cmdBusy) := by
  rcases s.issue_of_op_draw lo hi with ⟨-, hs⟩ | ⟨hidle, -, -⟩ | ⟨hidle, -, -⟩
  · exact hs
  · exact absurd hidle hbusy
  · exact absurd hidle hbusy

theorem State.issue_of_coordRejected (hidle : s.eng.ops = []) (hrej : CoordRejected a s.cmdBWord) :
    s.issue a = .next (s.raise .coord) := by
  have hop : (fieldOp a).toNat = 1 ∨ (fieldOp a).toNat = 4 := hrej.imp And.left And.left
  rcases s.issue_of_op_draw (a := a) (by omega) (by omega) with ⟨hbusy, -⟩ | ⟨-, -, hs⟩ | ⟨-, hacc, -⟩
  · exact absurd hidle hbusy
  · exact hs
  · exact absurd hrej hacc

/-- A word that no check stops is NOP, START, STOP or a loaded draw command, and none of these touches the flags. -/
theorem State.issue_keeps_flags (hop : ¬ 7 ≤ (fieldOp a).toNat)
    (hseq : ¬ (((fieldOp a).toNat = 5 ∧ s.run = true) ∨ ((fieldOp a).toNat = 6 ∧ s.run = false)))
    (hbusy : ¬ (1 ≤ (fieldOp a).toNat ∧ (fieldOp a).toNat ≤ 4 ∧ s.eng.ops ≠ []))
    (hcoord : ¬ (s.eng.ops = [] ∧ CoordRejected a s.cmdBWord)) :
    ∃ t, s.issue a = .next t ∧ t.flags = s.flags := by
  have hkind : (fieldOp a).toNat = 0 ∨ (1 ≤ (fieldOp a).toNat ∧ (fieldOp a).toNat ≤ 4) ∨ (fieldOp a).toNat = 5 ∨
      (fieldOp a).toNat = 6 := by omega
  rcases hkind with hnop | ⟨lo, hi⟩ | hstart | hstop
  case inl =>
    have hd := decode_of_fieldOp_zero s.cmdBWord (BitVec.eq_of_toNat_eq hnop)
    exact ⟨s, s.issue_of_decode hd, rfl⟩
  case inr.inl =>
    rcases s.issue_of_op_draw lo hi with ⟨hb, -⟩ | ⟨hidle, hrej, -⟩ | ⟨-, -, ops, hs⟩
    · exact absurd ⟨lo, hi, hb⟩ hbusy
    · exact absurd ⟨hidle, hrej⟩ hcoord
    · exact ⟨_, hs, s.loadEngine_flags ops⟩
  case inr.inr.inl =>
    have hrun : ¬ s.run = true := fun h => hseq (.inl ⟨hstart, h⟩)
    refine ⟨s.arm, ?_, s.arm_flags⟩
    rw [s.issue_of_decode (decode_of_op_start _ hstart)]
    simp only [exec, execStart, if_neg hrun]
  case inr.inr.inr =>
    have hrun : s.run = true := Bool.of_not_eq_false fun h => hseq (.inr ⟨hstop, h⟩)
    refine ⟨s.disarm, ?_, s.disarm_flags⟩
    rw [s.issue_of_decode (decode_of_op_stop _ hstop)]
    simp only [exec, execStop, if_pos hrun]

end

/-- Settles O18: each check, with those before it passed, answers with its own flag raised and nothing else, and a word that
passes all four answers with the flags it found. -/
theorem commandErrorPriority : Obligations.CommandErrorPriority := by
  unfold Obligations.CommandErrorPriority
  intro s a
  refine ⟨?opErr, ?seqErr, ?busyErr, ?coordErr, ?accepted⟩
  case opErr => exact fun hop => s.issue_of_reserved hop
  case seqErr => exact s.issue_of_outOfSequence
  case busyErr => exact fun ⟨lo, hi, hbusy⟩ => s.issue_of_busy lo hi hbusy
  case coordErr => exact fun ⟨hidle, hrej⟩ => s.issue_of_coordRejected hidle hrej
  case accepted => exact s.issue_keeps_flags

end Sys2Proof.Machine
end

section
/-! PROOFS. The encoding (spec/30_encoding.md R121 to R131). A command word is the concatenation of its fields: a field of a
packed word is the operand it was packed from, and a word with the fields it does not use made 0 is packed from its fields. -/

namespace Sys2Proof

/-! ### The fields of a packed word -/

section
variable (op : BitVec 4) (c : Color) {xa ya xb yb : Int}

theorem coordFits_iff (v : Int) : coordFits v = true ↔ -2048 ≤ v ∧ v ≤ 2047 := by
  simp [coordFits]

/-- A 12-bit two's complement field holds every coordinate that fits it (R123). -/
theorem toInt_ofInt_of_coordFits {v : Int} (h : coordFits v = true) : (BitVec.ofInt 12 v).toInt = v := by
  obtain ⟨lo, hi⟩ := (coordFits_iff v).mp h
  exact BitVec.toInt_ofInt_eq_self (by decide) lo (Int.lt_add_one_of_le hi)

theorem coordFits_toInt (w : BitVec 12) : coordFits w.toInt = true :=
  (coordFits_iff _).mpr ⟨BitVec.le_toInt w, Int.le_of_lt_add_one BitVec.toInt_lt⟩

theorem coordFits_fieldX (w : Word) : coordFits (fieldX w) = true := coordFits_toInt _
theorem coordFits_fieldY (w : Word) : coordFits (fieldY w) = true := coordFits_toInt _

theorem fieldColor_packA (ya xa : Int) : fieldColor (packA op c ya xa) = c := by
  simp (disch := decide) only [fieldColor, packA, BitVec.extractLsb'_append_eq_of_add_le, BitVec.extractLsb'_append_eq_of_le]
  simp

theorem fieldY_packA (hy : coordFits ya = true) : fieldY (packA op c ya xa) = ya := by
  simp (disch := decide) only [fieldY, packA, BitVec.extractLsb'_append_eq_of_add_le, BitVec.extractLsb'_append_eq_of_le]
  simpa using toInt_ofInt_of_coordFits hy

theorem fieldX_packA (hx : coordFits xa = true) : fieldX (packA op c ya xa) = xa := by
  simp (disch := decide) only [fieldX, packA, BitVec.extractLsb'_append_eq_of_add_le]
  simpa using toInt_ofInt_of_coordFits hx

theorem fieldY_packB (hy : coordFits yb = true) : fieldY (packB yb xb) = yb := by
  simp (disch := decide) only [fieldY, packB, BitVec.extractLsb'_append_eq_of_add_le, BitVec.extractLsb'_append_eq_of_le]
  simpa using toInt_ofInt_of_coordFits hy

theorem fieldX_packB (hx : coordFits xb = true) : fieldX (packB yb xb) = xb := by
  simp (disch := decide) only [fieldX, packB, BitVec.extractLsb'_append_eq_of_add_le]
  simpa using toInt_ofInt_of_coordFits hx

end

/-! ### From a command to its words and back -/

/-- The OP of an encoded command is the one of its row. -/
theorem fieldOp_encodeA (i : Instr) : fieldOp i.encodeA = Laws.OpcodeMatches.op i := by
  cases i with
  | nop | pixel | fill | hline | vline | start | stop => exact Laws.OpcodeMatches.fieldOp_packA _ _ _ _

/-- Settles O1: OP selects the command's row, and each operand is the field it was packed into. -/
theorem decodeEncodeRoundTrip : Obligations.DecodeEncodeRoundTrip := by
  unfold Obligations.DecodeEncodeRoundTrip
  intro i hi
  have hop := congrArg BitVec.toNat (fieldOp_encodeA i)
  cases i with
  | nop => exact decode_of_fieldOp_zero _ (fieldOp_encodeA .nop)
  | pixel x y c =>
    obtain ⟨hx, hy⟩ := Bool.and_eq_true_iff.mp hi
    rw [decode_of_op_pixel _ hop, Instr.encodeA, fieldX_packA _ _ hx, fieldY_packA _ _ hy, fieldColor_packA]
  | fill c => rw [decode_of_op_fill _ hop, Instr.encodeA, fieldColor_packA]
  | hline x1 x2 y c =>
    obtain ⟨hx, hy⟩ := Bool.and_eq_true_iff.mp hi
    obtain ⟨hx1, hx2⟩ := Bool.and_eq_true_iff.mp hx
    rw [decode_of_op_hline _ hop, Instr.encodeA, Instr.encodeB, fieldX_packA _ _ hx1, fieldX_packB hx2,
      fieldY_packA _ _ hy, fieldColor_packA]
  | vline x y1 y2 c =>
    obtain ⟨hxy, hy2⟩ := Bool.and_eq_true_iff.mp hi
    obtain ⟨hx, hy1⟩ := Bool.and_eq_true_iff.mp hxy
    rw [decode_of_op_vline _ hop, Instr.encodeA, Instr.encodeB, fieldX_packA _ _ hx, fieldY_packA _ _ hy1,
      fieldY_packB hy2, fieldColor_packA]
  | start => exact decode_of_op_start _ hop
  | stop => exact decode_of_op_stop _ hop

/-! ### From words to a command and back -/

/-- A CMD_A word is its five fields, highest first (R121). -/
theorem cmdA_eq_fields (a : Word) :
    a = fieldOp a ++ fieldColor a ++ a.extractLsb' 24 1 ++ a.extractLsb' 12 12 ++ a.extractLsb' 0 12 := by
  simp (disch := rfl) only [fieldOp, fieldColor, BitVec.extractLsb'_append_extractLsb'_eq_extractLsb']
  exact BitVec.extractLsb'_eq_self.symm

/-- A CMD_B word is its three fields, highest first (R122). -/
theorem cmdB_eq_fields (b : Word) : b = b.extractLsb' 24 8 ++ b.extractLsb' 12 12 ++ b.extractLsb' 0 12 := by
  simp (disch := rfl) only [BitVec.extractLsb'_append_extractLsb'_eq_extractLsb']
  exact BitVec.extractLsb'_eq_self.symm

/-- A CMD_A word without RSVA and the bits its masks leave out is packed from its masked fields. -/
theorem cmdA_and_fields (a : Word) (mop : BitVec 4) (mc : Color) (my mx : BitVec 12) :
    a &&& (mop ++ mc ++ 0#1 ++ my ++ mx) =
      (fieldOp a &&& mop) ++ (fieldColor a &&& mc) ++ 0#1 ++ (a.extractLsb' 12 12 &&& my) ++ (a.extractLsb' 0 12 &&& mx) := by
  have hand : ∀ (o : BitVec 4) (c : Color) (r : BitVec 1) (y x : BitVec 12),
      (o ++ c ++ r ++ y ++ x) &&& (mop ++ mc ++ 0#1 ++ my ++ mx) =
        (o &&& mop) ++ (c &&& mc) ++ 0#1 ++ (y &&& my) ++ (x &&& mx) := by
    intro o c r y x
    simp only [BitVec.and_append, BitVec.and_zero]
  exact (congrArg (· &&& (mop ++ mc ++ 0#1 ++ my ++ mx)) (cmdA_eq_fields a)).trans (hand _ _ _ _ _)

/-- A CMD_B word without RSVB and the bits its masks leave out is packed from its masked fields. -/
theorem cmdB_and_fields (b : Word) (my mx : BitVec 12) :
    b &&& (0#8 ++ my ++ mx) = 0#8 ++ (b.extractLsb' 12 12 &&& my) ++ (b.extractLsb' 0 12 &&& mx) := by
  have hand : ∀ (r : BitVec 8) (y x : BitVec 12),
      (r ++ y ++ x) &&& (0#8 ++ my ++ mx) = 0#8 ++ (y &&& my) ++ (x &&& mx) := by
    intro r y x
    simp only [BitVec.and_append, BitVec.and_zero]
  exact (congrArg (· &&& (0#8 ++ my ++ mx)) (cmdB_eq_fields b)).trans (hand _ _ _)

section
variable {a : Word} {op : BitVec 4} (hop : fieldOp a = op)
include hop

theorem packA_fields : packA op (fieldColor a) (fieldY a) (fieldX a) = a &&& 0xFEFFFFFF#32 := by
  subst hop
  refine Eq.trans ?_ (cmdA_and_fields a 15#4 7#3 4095#12 4095#12).symm
  simp only [packA, fieldY, fieldX, BitVec.ofInt_toInt]
  congr <;> exact BitVec.and_allOnes.symm

theorem packA_op_color : packA op (fieldColor a) 0 0 = a &&& 0xFE000000#32 := by
  subst hop
  refine Eq.trans ?_ (cmdA_and_fields a 15#4 7#3 0#12 0#12).symm
  simp only [packA, BitVec.and_zero]
  congr <;> exact BitVec.and_allOnes.symm

theorem packA_op : packA op 0 0 0 = a &&& 0xF0000000#32 := by
  subst hop
  refine Eq.trans ?_ (cmdA_and_fields a 15#4 0#3 0#12 0#12).symm
  simp only [packA, BitVec.and_zero]
  congr
  exact BitVec.and_allOnes.symm

end

theorem packB_fieldX (b : Word) : packB 0 (fieldX b) = b &&& 0x00000FFF#32 := by
  refine Eq.trans ?_ (cmdB_and_fields b 0#12 4095#12).symm
  simp only [packB, fieldX, BitVec.ofInt_toInt, BitVec.and_zero]
  congr
  exact BitVec.and_allOnes.symm

theorem packB_fieldY (b : Word) : packB (fieldY b) 0 = b &&& 0x00FFF000#32 := by
  refine Eq.trans ?_ (cmdB_and_fields b 4095#12 0#12).symm
  simp only [packB, fieldY, BitVec.ofInt_toInt, BitVec.and_zero]
  congr
  exact BitVec.and_allOnes.symm

/-- What a word that decodes to a command is, row by row of the opcode table (R124). -/
theorem decode_ok_cases {a b : Word} {i : Instr} (h : decode a b = .ok i) :
    (fieldOp a = 0 ∧ i = .nop) ∨ (fieldOp a = 1 ∧ i = .pixel (fieldX a) (fieldY a) (fieldColor a)) ∨
    (fieldOp a = 2 ∧ i = .fill (fieldColor a)) ∨
    (fieldOp a = 3 ∧ i = .hline (fieldX a) (fieldX b) (fieldY a) (fieldColor a)) ∨
    (fieldOp a = 4 ∧ i = .vline (fieldX a) (fieldY a) (fieldY b) (fieldColor a)) ∨
    (fieldOp a = 5 ∧ i = .start) ∨ (fieldOp a = 6 ∧ i = .stop) := by
  have hop : ∀ op : BitVec 4, (fieldOp a).toNat = op.toNat → fieldOp a = op := fun _ => BitVec.eq_of_toNat_eq
  unfold decode at h
  split at h
  case h_1 hn => cases h; exact .inl ⟨hop 0 hn, rfl⟩
  case h_2 hn => cases h; exact .inr (.inl ⟨hop 1 hn, rfl⟩)
  case h_3 hn => cases h; exact .inr (.inr (.inl ⟨hop 2 hn, rfl⟩))
  case h_4 hn => cases h; exact .inr (.inr (.inr (.inl ⟨hop 3 hn, rfl⟩)))
  case h_5 hn => cases h; exact .inr (.inr (.inr (.inr (.inl ⟨hop 4 hn, rfl⟩))))
  case h_6 hn => cases h; exact .inr (.inr (.inr (.inr (.inr (.inl ⟨hop 5 hn, rfl⟩)))))
  case h_7 hn => cases h; exact .inr (.inr (.inr (.inr (.inr (.inr ⟨hop 6 hn, rfl⟩)))))
  case h_8 => cases h

/-- Settles O2: the decoded operands are fields, which fit, and packing the fields of a word gives the word back, masked. -/
theorem encodeDecodeKeepsUsedBits : Obligations.EncodeDecodeKeepsUsedBits := by
  unfold Obligations.EncodeDecodeKeepsUsedBits
  intro a b i h
  have hx := coordFits_fieldX
  have hy := coordFits_fieldY
  have hb : (0 : Word) = b &&& 0 := (BitVec.and_zero).symm
  rcases decode_ok_cases h with ⟨hop, rfl⟩ | ⟨hop, rfl⟩ | ⟨hop, rfl⟩ | ⟨hop, rfl⟩ | ⟨hop, rfl⟩ | ⟨hop, rfl⟩ | ⟨hop, rfl⟩
  case inl => exact ⟨rfl, packA_op hop, hb⟩
  case inr.inl => exact ⟨by simp [Instr.wellFormed, hx, hy], packA_fields hop, hb⟩
  case inr.inr.inl => exact ⟨rfl, packA_op_color hop, hb⟩
  case inr.inr.inr.inl => exact ⟨by simp [Instr.wellFormed, hx, hy], packA_fields hop, packB_fieldX b⟩
  case inr.inr.inr.inr.inl => exact ⟨by simp [Instr.wellFormed, hx, hy], packA_fields hop, packB_fieldY b⟩
  case inr.inr.inr.inr.inr.inl => exact ⟨rfl, packA_op hop, hb⟩
  case inr.inr.inr.inr.inr.inr => exact ⟨rfl, packA_op hop, hb⟩

/-- Settles O3: the decoder evaluated at the eight pairs of words. -/
theorem sampleWordsDecode : Obligations.SampleWordsDecode := by
  unfold Obligations.SampleWordsDecode
  refine ⟨rfl, rfl, rfl, rfl, rfl, rfl, rfl, rfl⟩

end Sys2Proof
end

section
/-! PROOFS. Addresses, masks and the micro-op lists of the draw commands (spec/20_memory.md R81 to R90,
spec/43_framebuffer_commands.md R231 to R239). The word index and bit offset are brought to closed form once; each builder is
then given as a list over a range, and all its micro-ops lie in the framebuffer. -/

namespace Sys2Proof.Machine

/-! ### Pixels, words and slots -/

section
variable {x y : Nat}

theorem linearOffset_div (x y : Nat) : linearOffset x y / ubits = 64 * y + x / 10 := by
  simp only [linearOffset, hRes, bpp, ubits]
  omega

theorem bitOffset_eq (x y : Nat) : bitOffset x y = 3 * (x % 10) := by
  simp only [bitOffset, linearOffset, hRes, bpp, ubits]
  omega

theorem gridWord_lt (x y : Nat) : gridWord x y < 30720 := Nat.mod_lt _ (by decide)

theorem wordIndex_eq (hx : x < 640) (hy : y < 480) : wordIndex x y = gridWord x y := by
  simp only [wordIndex, linearOffset_div, gridWord, fbWords]
  split <;> omega

/-- The pixel in slot j of word k. -/
def slotPixel (k j : Nat) : Nat × Nat := ((10 * ((k + 1) % 30720) + j) % 640, (10 * ((k + 1) % 30720) + j) / 640)

theorem eq_slotPixel_iff {k j : Nat} (hk : k < 30720) (hj : j < 10) (hx : x < 640) (hy : y < 480) :
    gridWord x y = k ∧ x % 10 = j ↔ (x, y) = slotPixel k j := by
  simp only [gridWord, slotPixel, Prod.mk.injEq]
  omega

end

/-- Settles O40: `slotPixel` is the one pixel of a slot. -/
theorem pixelsAndSlotsAreOneToOne : Obligations.PixelsAndSlotsAreOneToOne := by
  unfold Obligations.PixelsAndSlotsAreOneToOne
  refine ⟨fun x y hx hy => ⟨wordIndex_eq hx hy, bitOffset_eq x y⟩, fun k j hk hj => ⟨slotPixel k j, ?exists_, ?unique⟩⟩
  case exists_ =>
    have hx : (slotPixel k j).1 < 640 := Nat.mod_lt _ (by decide)
    have hy : (slotPixel k j).2 < 480 := by simp only [slotPixel]; omega
    obtain ⟨hword, hslot⟩ := (eq_slotPixel_iff hk hj hx hy).mpr rfl
    exact ⟨hx, hy, (wordIndex_eq hx hy).trans hword, by rw [bitOffset_eq, hslot]⟩
  case unique =>
    rintro ⟨x, y⟩ ⟨hx, hy, hword, hslot⟩
    rw [wordIndex_eq hx hy] at hword
    rw [bitOffset_eq] at hslot
    exact (eq_slotPixel_iff hk hj hx hy).mp ⟨hword, by omega⟩

/-! ### Addresses -/

section
variable {a b base : Word}

theorem aligned_iff : a.extractLsb' 0 2 = 0#2 ↔ a.toNat % 4 = 0 := by
  rw [← BitVec.toNat_inj, BitVec.extractLsb'_toNat]
  simp

theorem aligned_fbBase (s : State) : s.fbBase.extractLsb' 0 2 = 0#2 := BitVec.extractLsb'_append_eq_right

theorem and_alignMask_of_aligned (ha : a.extractLsb' 0 2 = 0#2) : a &&& 0xFFFFFFFC = a := by
  apply BitVec.eq_of_getLsbD_eq
  intro i hi
  rcases Nat.lt_or_ge i 2 with h | h
  · have hbit := congrArg (·.getLsbD i) ha
    have hzero : a.getLsbD i = false := by simpa [h] using hbit
    simp [hzero]
  · have hmask : ∀ i < 32, 2 ≤ i → (0xFFFFFFFC : Word).getLsbD i = true := by decide
    rw [BitVec.getLsbD_and, hmask i hi h, Bool.and_true]

theorem aligned_and_alignMask (a : Word) : (a &&& 0xFFFFFFFC).extractLsb' 0 2 = 0#2 := by
  rw [BitVec.extractLsb'_and]
  exact BitVec.and_zero

theorem fbaddr_toNat (base : Word) (k : Nat) : (fbaddr base k).toNat = (base.toNat + 4 * k) % 2 ^ 32 := by
  simp [fbaddr]

theorem aligned_fbaddr (hbase : base.extractLsb' 0 2 = 0#2) (k : Nat) : (fbaddr base k).extractLsb' 0 2 = 0#2 := by
  rw [aligned_iff] at hbase ⊢
  rw [fbaddr_toNat]
  omega

theorem fbaddr_inj {k l : Nat} (hk : k < 30720) (hl : l < 30720) : fbaddr base k = fbaddr base l ↔ k = l := by
  refine ⟨fun h => ?_, fun h => h ▸ rfl⟩
  have hnat := congrArg BitVec.toNat h
  rw [fbaddr_toNat, fbaddr_toNat] at hnat
  have := base.isLt
  omega

end

/-! ### Masks and fill words -/

theorem fillword_eq (c : Color) : fillword c = 0x09249249#32 * c.setWidth 32 := by
  revert c
  decide

theorem maskFrom_slot {j : Nat} (hj : j < 10) : maskFrom (3 * j) = 0x3FFFFFFF#32 &&& (0xFFFFFFFF#32 <<< (3 * j)) := by
  have h : ∀ j < 10, maskFrom (3 * j) = 0x3FFFFFFF#32 &&& (0xFFFFFFFF#32 <<< (3 * j)) := by decide
  exact h j hj

theorem maskUpTo_slot {j : Nat} (hj : j < 10) : maskUpTo (3 * j) = 0x3FFFFFFF#32 >>> (27 - 3 * j) := by
  have h : ∀ j < 10, maskUpTo (3 * j) = 0x3FFFFFFF#32 >>> (27 - 3 * j) := by decide
  exact h j hj

theorem slotMask_padding {j : Nat} (hj : j < 10) : (7#32 <<< (3 * j)).extractLsb' 30 2 = 0#2 := by
  have h : ∀ j < 10, (7#32 <<< (3 * j)).extractLsb' 30 2 = 0#2 := by decide
  exact h j hj

theorem maskFrom_padding {j : Nat} (hj : j < 10) : (maskFrom (3 * j)).extractLsb' 30 2 = 0#2 := by
  have h : ∀ j < 10, (maskFrom (3 * j)).extractLsb' 30 2 = 0#2 := by decide
  exact h j hj

theorem maskUpTo_padding {j : Nat} (hj : j < 10) : (maskUpTo (3 * j)).extractLsb' 30 2 = 0#2 := by
  have h : ∀ j < 10, (maskUpTo (3 * j)).extractLsb' 30 2 = 0#2 := by decide
  exact h j hj

/-! ### The micro-op lists in closed form -/

section
variable (base : Word) (c : Color)

/-- The RMW of slot j of word k. -/
def pixelRmw (k j : Nat) : MicroOp := .rmw (fbaddr base k) (7#32 <<< (3 * j)) (c.setWidth 32 <<< (3 * j))

theorem slotRmw_eq (k j : Nat) : slotRmw base k (3 * j) c = pixelRmw base c k j := rfl

theorem buildPixel_of_inRange {x y : Nat} (hx : x < 640) (hy : y < 480) :
    buildPixel x y c base = some [pixelRmw base c (gridWord x y) (x % 10)] := by
  have hin : (xInRange x && yInRange y) = true := by
    rw [Bool.and_eq_true, xInRange_iff, yInRange_iff]
    omega
  rw [buildPixel, if_pos hin, Int.toNat_natCast, Int.toNat_natCast, wordIndex_eq hx hy, bitOffset_eq, slotRmw_eq]

theorem fillFrom_eq_map (f : Word) (n k : Nat) :
    fillFrom base f n k = (List.range n).map fun j => .wr (fbaddr base (k + j)) f := by
  induction n generalizing k with
  | zero => rfl
  | succ n ih =>
    rw [fillFrom, ih, List.range_succ_eq_map, List.map_cons, List.map_map]
    refine congrArg _ (List.map_congr_left fun j _ => ?_)
    simp only [Function.comp_apply, Nat.succ_eq_add_one, show k + 1 + j = k + (j + 1) by omega]

theorem buildFill_eq_map :
    buildFill c base = some ((List.range 30720).map fun k => .wr (fbaddr base k) (fillword c)) := by
  rw [buildFill, fillFrom_eq_map]
  simp only [Nat.zero_add]
  rfl

theorem nextWord_eq {i : Nat} (hi : i < 30720) : nextWord i = (i + 1) % 30720 := by
  have hwords : fbWords = 30720 := rfl
  by_cases h : i + 1 = fbWords
  · rw [nextWord, if_pos h]
    omega
  · rw [nextWord, if_neg h]
    omega

/-- HLINE's interior loop makes as many rounds as there are words up to k2, cyclically. -/
theorem hlineInterior_eq_map (f : Word) (n fuel i : Nat) (hn : n < 30720) (hfuel : n ≤ fuel) (hi : i < 30720) :
    hlineInterior base f ((i + n) % 30720) fuel i =
      (List.range n).map fun j => .wr (fbaddr base ((i + j) % 30720)) f := by
  induction n generalizing fuel i with
  | zero =>
    cases fuel with
    | zero => rfl
    | succ fuel => rw [hlineInterior, if_pos (by omega)]; rfl
  | succ n ih =>
    obtain ⟨fuel, rfl⟩ := Nat.exists_eq_add_one_of_ne_zero (Nat.ne_of_gt (Nat.lt_of_lt_of_le n.succ_pos hfuel))
    have hend : (i + (n + 1)) % 30720 = ((i + 1) % 30720 + n) % 30720 := by omega
    rw [hlineInterior, if_neg (by omega), nextWord_eq hi, hend,
      ih fuel _ (by omega) (by omega) (Nat.mod_lt _ (by decide)), List.range_succ_eq_map, List.map_cons, List.map_map]
    congr 1
    · rw [Nat.add_zero, Nat.mod_eq_of_lt hi]
    · refine List.map_congr_left fun j _ => ?_
      simp only [Function.comp_apply, Nat.mod_add_mod, show i + 1 + j = i + (j + 1) by omega]

theorem clampX_lt (v : Int) : clampX v < 640 := by
  unfold clampX
  omega

theorem clampY_lt (v : Int) : clampY v < 480 := by
  unfold clampY
  omega

theorem gridWord_eq_iff {x x' y : Nat} (hx : x < 640) (hx' : x' < 640) :
    gridWord x y = gridWord x' y ↔ x / 10 = x' / 10 := by
  unfold gridWord
  omega

/-- HLINE's micro-ops for ordered endpoints within one word (R237). -/
def hlineWordOps (lo hi y : Nat) : List MicroOp :=
  (List.range (hi + 1 - lo)).map fun d => pixelRmw base c (gridWord lo y) ((lo + d) % 10)

/-- HLINE's interior writes (R238). -/
def hlineInteriorOps (lo hi y : Nat) : List MicroOp :=
  (List.range (hi / 10 - lo / 10 - 1)).map fun j => .wr (fbaddr base ((64 * y + lo / 10 + j) % 30720)) (fillword c)

/-- HLINE's micro-ops for ordered endpoints in different words (R238). -/
def hlineAcrossOps (lo hi y : Nat) : List MicroOp :=
  .rmw (fbaddr base (gridWord lo y)) (maskFrom (3 * (lo % 10))) (fillword c) :: hlineInteriorOps base c lo hi y ++
    [.rmw (fbaddr base (gridWord hi y)) (maskUpTo (3 * (hi % 10))) (fillword c)]

theorem hlineSpan_eq {lo hi y : Nat} (hhi : hi < 640) (hy : y < 480) (h : lo / 10 < hi / 10) :
    hlineSpan base (gridWord lo y) (3 * (lo % 10)) (gridWord hi y) (3 * (hi % 10)) c = hlineAcrossOps base c lo hi y := by
  have hfirst : nextWord (gridWord lo y) = 64 * y + lo / 10 := by
    rw [nextWord_eq (gridWord_lt lo y), gridWord]
    omega
  have hlast : gridWord hi y = (64 * y + lo / 10 + (hi / 10 - lo / 10 - 1)) % 30720 := by unfold gridWord; omega
  have hinterior : hlineInterior base (fillword c) (gridWord hi y) fbWords (nextWord (gridWord lo y)) =
      hlineInteriorOps base c lo hi y := by
    rw [hfirst, hlast]
    exact hlineInterior_eq_map base _ _ _ _ (by omega) (by simp only [fbWords]; omega) (by omega)
  rw [hlineSpan, hinterior]
  rfl

/-- HLINE clamps and orders its endpoints, and is then within one word or across words (R236). -/
theorem buildHline_cases (x1 x2 y : Int) :
    let lo := min (clampX x1) (clampX x2)
    let hi := max (clampX x1) (clampX x2)
    (lo / 10 = hi / 10 ∧ buildHline x1 x2 y c base = some (hlineWordOps base c lo hi (clampY y))) ∨
    (lo / 10 < hi / 10 ∧ buildHline x1 x2 y c base = some (hlineAcrossOps base c lo hi (clampY y))) := by
  intro lo hi
  have hx1 := clampX_lt x1
  have hx2 := clampX_lt x2
  have hy := clampY_lt y
  have hlo : lo < 640 := by omega
  have hhi : hi < 640 := by omega
  have hle : lo ≤ hi := by omega
  have hbuild : buildHline x1 x2 y c base =
      if wordIndex lo (clampY y) = wordIndex hi (clampY y) then
        some (hlineSlots base (wordIndex lo (clampY y)) lo hi c)
      else some (hlineSpan base (wordIndex lo (clampY y)) (bitOffset lo (clampY y)) (wordIndex hi (clampY y))
        (bitOffset hi (clampY y)) c) := rfl
  rw [hbuild, wordIndex_eq hlo hy, wordIndex_eq hhi hy, bitOffset_eq, bitOffset_eq]
  by_cases h : lo / 10 = hi / 10
  · exact .inl ⟨h, if_pos ((gridWord_eq_iff hlo hhi).mpr h)⟩
  · have hlt : lo / 10 < hi / 10 := Nat.lt_of_le_of_ne (Nat.div_le_div_right hle) h
    exact .inr ⟨hlt, by
      rw [if_neg (mt (gridWord_eq_iff hlo hhi).mp h), hlineSpan_eq base c hhi hy hlt]⟩

theorem buildVline_of_inRange {x y1 y2 : Nat} (hx : x < 640) (hy1 : y1 < 480) (hy2 : y2 < 480) :
    buildVline x y1 y2 c base = some ((List.range (max y1 y2 + 1 - min y1 y2)).map fun i =>
      pixelRmw base c (gridWord x (min y1 y2 + i)) (x % 10)) := by
  have hlo : (min (y1 : Int) y2).toNat = min y1 y2 := by omega
  have hhi : (max (y1 : Int) y2).toNat = max y1 y2 := by omega
  have hin : (xInRange x && yInRange (min (y1 : Int) y2) && yInRange (max (y1 : Int) y2)) = true := by
    rw [Bool.and_eq_true, Bool.and_eq_true, xInRange_iff, yInRange_iff, yInRange_iff]
    omega
  simp only [buildVline, if_pos hin, hlo, hhi, Int.toNat_natCast, wordIndex_eq hx (show min y1 y2 < 480 by omega),
    bitOffset_eq, slotRmw_eq]
  refine congrArg some (List.map_congr_left fun i hi => ?_)
  have hrow : (gridWord x (min y1 y2) + stride * i) % fbWords = gridWord x (min y1 y2 + i) := by
    simp only [gridWord, stride, fbWords]
    omega
  rw [hrow]

end

/-! ### Every micro-op lies in the framebuffer -/

/-- A built micro-op on a word of the framebuffer at `base` (20_memory R81; 43_framebuffer_commands R231). -/
def MicroOp.InFrame (base : Word) (o : MicroOp) : Prop :=
  MicroOp.Built o ∧ ∃ k < fbWords, MicroOp.addr o = fbaddr base k

section
variable {base : Word} (hbase : base.extractLsb' 0 2 = 0#2) {c : Color} {k : Nat} (hk : k < 30720)
include hbase hk

theorem inFrame_wr : MicroOp.InFrame base (.wr (fbaddr base k) (fillword c)) :=
  ⟨⟨aligned_fbaddr hbase k, c, rfl⟩, k, hk, rfl⟩

theorem inFrame_rmw {m b : Word} (hm : m.extractLsb' 30 2 = 0#2) : MicroOp.InFrame base (.rmw (fbaddr base k) m b) :=
  ⟨⟨aligned_fbaddr hbase k, hm⟩, k, hk, rfl⟩

theorem inFrame_pixelRmw (x : Nat) : MicroOp.InFrame base (pixelRmw base c k (x % 10)) :=
  inFrame_rmw hbase hk (slotMask_padding (Nat.mod_lt _ (by decide)))

end

section
variable {base : Word} (hbase : base.extractLsb' 0 2 = 0#2) {c : Color} {ops : List MicroOp}
include hbase

theorem buildPixel_inFrame {x y : Int} (h : buildPixel x y c base = some ops) :
    ∀ o ∈ ops, MicroOp.InFrame base o := by
  have hon : ¬ OffScreen x y y := mt (buildPixel_eq_none_iff x y c base).mpr (by simp [h])
  have hin := not_not.mp hon
  lift x to Nat using by omega
  lift y to Nat using by omega
  rw [buildPixel_of_inRange base c (by omega) (by omega)] at h
  cases h
  simpa using inFrame_pixelRmw hbase (gridWord_lt x y) x

theorem buildFill_inFrame (h : buildFill c base = some ops) : ∀ o ∈ ops, MicroOp.InFrame base o := by
  rw [buildFill_eq_map, Option.some_inj] at h
  subst h
  intro o ho
  obtain ⟨k, hk, rfl⟩ := List.mem_map.mp ho
  exact inFrame_wr hbase (List.mem_range.mp hk)

theorem hlineWordOps_inFrame (lo hi y : Nat) : ∀ o ∈ hlineWordOps base c lo hi y, MicroOp.InFrame base o := by
  simpa [hlineWordOps] using fun d _ => inFrame_pixelRmw hbase (gridWord_lt lo y) (lo + d)

theorem hlineAcrossOps_inFrame (lo hi y : Nat) : ∀ o ∈ hlineAcrossOps base c lo hi y, MicroOp.InFrame base o := by
  have hslot : ∀ x, x % 10 < 10 := fun x => Nat.mod_lt x (by decide)
  have hinterior : ∀ o ∈ hlineInteriorOps base c lo hi y, MicroOp.InFrame base o := by
    simpa [hlineInteriorOps] using fun j _ =>
      inFrame_wr (c := c) hbase (Nat.mod_lt (64 * y + lo / 10 + j) (show 0 < 30720 by decide))
  intro o ho
  rw [hlineAcrossOps, List.mem_append, List.mem_cons, List.mem_singleton] at ho
  rcases ho with (rfl | ho) | rfl
  · exact inFrame_rmw hbase (gridWord_lt lo y) (maskFrom_padding (hslot lo))
  · exact hinterior o ho
  · exact inFrame_rmw hbase (gridWord_lt hi y) (maskUpTo_padding (hslot hi))

theorem buildHline_inFrame {x1 x2 y : Int} (h : buildHline x1 x2 y c base = some ops) :
    ∀ o ∈ ops, MicroOp.InFrame base o := by
  rcases buildHline_cases base c x1 x2 y with ⟨-, e⟩ | ⟨-, e⟩
  · cases e.symm.trans h
    exact hlineWordOps_inFrame hbase _ _ _
  · cases e.symm.trans h
    exact hlineAcrossOps_inFrame hbase _ _ _

theorem buildVline_inFrame {x y1 y2 : Int} (h : buildVline x y1 y2 c base = some ops) :
    ∀ o ∈ ops, MicroOp.InFrame base o := by
  have hon : ¬ OffScreen x y1 y2 := mt (buildVline_eq_none_iff x y1 y2 c base).mpr (by simp [h])
  have hin := not_not.mp hon
  lift x to Nat using by omega
  lift y1 to Nat using by omega
  lift y2 to Nat using by omega
  rw [buildVline_of_inRange base c (by omega) (by omega) (by omega)] at h
  cases h
  simpa using fun i _ => inFrame_pixelRmw hbase (gridWord_lt x (min y1 y2 + i)) x

/-- Whatever a draw command builds lies in the framebuffer at the base it was given. -/
theorem build_inFrame {i : Instr} {build : Word → Option (List MicroOp)} (hb : Instr.build i = some build)
    (h : build base = some ops) : ∀ o ∈ ops, MicroOp.InFrame base o := by
  cases i with
  | nop | start | stop => cases hb
  | pixel => cases hb; exact buildPixel_inFrame hbase h
  | fill => cases hb; exact buildFill_inFrame hbase h
  | hline => cases hb; exact buildHline_inFrame hbase h
  | vline => cases hb; exact buildVline_inFrame hbase h

end

end Sys2Proof.Machine
end

section
/-! PROOFS. What one step can do. Each block agent's step is the state with a few fields changed, a host step has one of five
effects, and every step is one of these or RESET; the invariants of the memory, the engine and the scanout are then kept effect
by effect. -/

namespace Sys2Proof.Machine

/-! ### The frames of the block agents -/

section
variable (s : State)

theorem State.ch0Step_eq : s.ch0Step = { s with pq := s.ch0Step.pq, ch0 := s.ch0Step.ch0, ch1Busy := s.ch0Step.ch1Busy } := by
  rcases s.ch0Step_cases with e | ⟨-, -, -, -, -, e⟩
  · rw [e]
  · rw [e]; rfl

theorem State.ch1Step_eq :
    s.ch1Step = { s with
      ch0 := s.ch1Step.ch0, ch0StuckLatch := s.ch1Step.ch0StuckLatch, ch1Busy := s.ch1Step.ch1Busy } := by
  rcases s.ch1Step_cases with ⟨-, e⟩ | ⟨-, e⟩
  · rw [e]
  · rw [e]; rfl

theorem State.engStep_eq : s.engStep = { s with mem := s.engStep.mem, eng := s.engStep.eng } := by
  rcases s.engStep_cases with e | ⟨_, _, _, _, _, e⟩ | ⟨_, _, _, _, _, _, _, e⟩ | ⟨_, _, _, _, _, _, _, e⟩ <;> rw [e]

@[simp] theorem State.ch0Step_eng : s.ch0Step.eng = s.eng := by rw [s.ch0Step_eq]
@[simp] theorem State.ch0Step_engBase : s.ch0Step.engBase = s.engBase := by rw [s.ch0Step_eq]
@[simp] theorem State.ch0Step_mem : s.ch0Step.mem = s.mem := by rw [s.ch0Step_eq]
@[simp] theorem State.ch0Step_platform : s.ch0Step.platform = s.platform := by rw [s.ch0Step_eq]
@[simp] theorem State.ch0Step_ch0StuckLatch : s.ch0Step.ch0StuckLatch = s.ch0StuckLatch := by rw [s.ch0Step_eq]

@[simp] theorem State.ch1Step_eng : s.ch1Step.eng = s.eng := by rw [s.ch1Step_eq]
@[simp] theorem State.ch1Step_engBase : s.ch1Step.engBase = s.engBase := by rw [s.ch1Step_eq]
@[simp] theorem State.ch1Step_mem : s.ch1Step.mem = s.mem := by rw [s.ch1Step_eq]
@[simp] theorem State.ch1Step_platform : s.ch1Step.platform = s.platform := by rw [s.ch1Step_eq]
@[simp] theorem State.ch1Step_pq : s.ch1Step.pq = s.pq := by rw [s.ch1Step_eq]

@[simp] theorem State.engStep_engBase : s.engStep.engBase = s.engBase := by rw [s.engStep_eq]
@[simp] theorem State.engStep_platform : s.engStep.platform = s.platform := by rw [s.engStep_eq]

/-! The turns a step uses up are no concern of the agents. -/

theorem State.ch0Step_retimed (ts : List Turn) (k : Nat) :
    { s with turns := ts, freeTurns := k }.ch0Step = { s.ch0Step with turns := ts, freeTurns := k } := by
  by_cases h : (s.ch0Ready && !s.ch0Stuck) = true
  · rw [State.ch0Step, if_pos (by exact h), State.ch0Step, if_pos h]
    rfl
  · rw [State.ch0Step, if_neg (by exact h), State.ch0Step, if_neg h]

theorem State.ch1Step_retimed (ts : List Turn) (k : Nat) :
    { s with turns := ts, freeTurns := k }.ch1Step = { s.ch1Step with turns := ts, freeTurns := k } := by
  by_cases h : s.ch1Busy = true
  · rw [State.ch1Step, if_pos (by exact h), State.ch1Step, if_pos h]
    rfl
  · rw [State.ch1Step, if_neg (by exact h), State.ch1Step, if_neg h]

theorem State.engAccess_retimed (ts : List Turn) (k : Nat) :
    { s with turns := ts, freeTurns := k }.engAccess = { s.engAccess with turns := ts, freeTurns := k } := by
  simp only [State.engAccess]
  rcases s.eng.ops with _ | ⟨⟨a, m, b⟩ | ⟨a, v⟩, rest⟩
  · rfl
  · cases s.eng.phase2 <;> rfl
  · rfl

theorem State.engStep_retimed (ts : List Turn) (k : Nat) :
    { s with turns := ts, freeTurns := k }.engStep = { s.engStep with turns := ts, freeTurns := k } := by
  by_cases h : s.engAdmitted = true
  · rw [State.engStep, if_pos (by exact h), State.engStep, if_pos h, s.engAccess_retimed]
  · rw [State.engStep, if_neg (by exact h), State.engStep, if_neg h]

end

/-! ### The effects of a host step -/

/-- What a host's step can do to the block and to memory (R32, R45, R98). The turns are those the step left. -/
inductive HostEffect (s t : State) : Prop where
  /-- No more than the stored registers, the flags and the host's own side change. -/
  | side (regs : Regs) (flags : ErrFlags) (program : List HostStep) (hostRead : Option Word) (turns : List Turn)
      (freeTurns : Nat)
      (eq : t = { s with
        regs := regs, flags := flags, program := program, hostRead := hostRead, turns := turns, freeTurns := freeTurns })
  /-- Memory is written. -/
  | store (w : Width) (a v : Word) (program : List HostStep) (turns : List Turn) (freeTurns : Nat)
      (eq : t = { s with mem := s.mem.writeWidth w a v, program := program, turns := turns, freeTurns := freeTurns })
  /-- A draw command is accepted. -/
  | load (i : Instr) (build : Word → Option (List MicroOp)) (ops : List MicroOp) (program : List HostStep)
      (turns : List Turn) (freeTurns : Nat) (draws : Instr.build i = some build) (idle : s.eng.ops = [])
      (built : build s.fbBase = some ops)
      (eq : t = { s.loadEngine ops with program := program, turns := turns, freeTurns := freeTurns })
  /-- START is accepted. -/
  | arm (program : List HostStep) (turns : List Turn) (freeTurns : Nat) (stopped : s.run = false)
      (eq : t = { s.arm with program := program, turns := turns, freeTurns := freeTurns })
  /-- STOP is accepted. -/
  | disarm (program : List HostStep) (turns : List Turn) (freeTurns : Nat) (running : s.run = true)
      (eq : t = { s.disarm with program := program, turns := turns, freeTurns := freeTurns })

section
variable {s t : State} {u : Turn} {program : List HostStep} {turns : List Turn} {freeTurns : Nat}

theorem HostEffect.of_exec {i : Instr}
    (h : exec i { s with program := program, turns := turns, freeTurns := freeTurns } = .next t) : HostEffect s t := by
  rcases exec_cases i { s with program := program, turns := turns, freeTurns := freeTurns } with
    ⟨-, e⟩ | ⟨c, e⟩ | ⟨build, ops, hb, hidle, hops, e⟩ | ⟨-, hrun, e⟩ | ⟨-, hrun, e⟩
  · cases e.symm.trans h; exact .side _ _ _ _ _ _ rfl
  · cases e.symm.trans h; exact .side _ _ _ _ _ _ rfl
  · cases e.symm.trans h; exact .load i build ops _ _ _ hb hidle hops rfl
  · cases e.symm.trans h; exact .arm _ _ _ hrun rfl
  · cases e.symm.trans h; exact .disarm _ _ _ hrun rfl

theorem HostEffect.of_writeReg {off : Nat} {v : Word}
    (h : { s with program := program, turns := turns, freeTurns := freeTurns }.writeReg off v = .next t) :
    HostEffect s t := by
  rcases State.writeReg_cases h with ⟨-, rfl⟩ | ⟨-, rfl⟩ | ⟨-, rfl⟩ | ⟨-, rfl⟩ | ⟨-, rfl⟩ | ⟨-, h⟩ | rfl
  case inr.inr.inr.inr.inr.inl =>
    rcases State.issue_cases _ v with ⟨i, -, e⟩ | ⟨r, -, e⟩
    · exact .of_exec (e ▸ h)
    · cases e.symm.trans h; exact .side _ _ _ _ _ _ rfl
  all_goals exact .side _ _ _ _ _ _ rfl

theorem HostEffect.of_hostTurn (h : { s with turns := turns, freeTurns := freeTurns }.hostTurn = .next t) :
    HostEffect s t := by
  rcases State.hostTurn_next h with ⟨-, rfl⟩ | ⟨w, tg, rest, -, h⟩ | ⟨w, tg, v, rest, -, h⟩ | ⟨off, m, v, rest, -, h⟩
  · exact .side _ _ _ _ _ _ rfl
  · obtain ⟨v, rfl⟩ := State.hostRd_next h; exact .side _ _ _ _ _ _ rfl
  · rcases State.hostWr_next h with ⟨off, h⟩ | ⟨a, rfl⟩
    · exact .of_writeReg h
    · exact .store _ _ _ _ _ _ rfl
  · rcases State.hostPoll_next h with ⟨-, rfl⟩ | ⟨-, rfl⟩ <;> exact .side _ _ _ _ _ _ rfl

/-- A block agent's step, whatever turns are left after it. -/
theorem State.takeTurn_of_ofBlock (hu : Turn.ofBlock u = true) (s : State) (ts : List Turn) (k : Nat) :
    { s with turns := ts, freeTurns := k }.takeTurn u = .next { s.blockTurn u with turns := ts, freeTurns := k } := by
  cases u with
  | host => cases hu
  | reset => cases hu
  | tick => rfl
  | ch0 => exact congrArg _ (s.ch0Step_retimed ts k)
  | ch1 => exact congrArg _ (s.ch1Step_retimed ts k)
  | eng => exact congrArg _ (s.engStep_retimed ts k)

/-- Every step has a host's effect, is a block agent's step, or is RESET (R6). -/
theorem CanStep.effects (h : CanStep u s t) :
    (u = .host ∧ HostEffect s t) ∨
    (∃ ts k, Turn.ofBlock u = true ∧ t = { s.blockTurn u with turns := ts, freeTurns := k }) ∨
    (∃ ts k, u = .reset ∧ t = { s.resetBlock with turns := ts, freeTurns := k }) := by
  obtain ⟨ts, k, h⟩ := h
  by_cases hu : Turn.ofBlock u = true
  · rw [State.takeTurn_of_ofBlock hu] at h
    cases h
    exact .inr (.inl ⟨ts, k, hu, rfl⟩)
  · cases u with
    | host => exact .inl ⟨rfl, .of_hostTurn h⟩
    | reset => cases h; exact .inr (.inr ⟨ts, k, rfl, rfl⟩)
    | tick | ch0 | ch1 | eng => exact absurd rfl hu

/-- A property of states that is kept by every effect is kept by every step. -/
theorem step_keeps {P : State → Prop} (retime : ∀ {s : State} (ts : List Turn) (k : Nat), P s → P { s with turns := ts, freeTurns := k })
    (host : ∀ {s t : State}, HostEffect s t → P s → P t)
    (block : ∀ {s : State} (u : Turn), Turn.ofBlock u = true → P s → P (s.blockTurn u))
    (reset : ∀ {s : State}, P s → P s.resetBlock) (hs : P s) (h : step s = .next t) : P t := by
  rcases (canStep_of_step h).effects with ⟨-, he⟩ | ⟨ts, k, hu, rfl⟩ | ⟨ts, k, -, rfl⟩
  · exact host he hs
  · exact retime ts k (block _ hu hs)
  · exact retime ts k (reset hs)

end

/-! ### The memory's canonical form -/

section
variable {s t : State}

theorem State.MemInv.engStep (h : s.MemInv) : s.engStep.MemInv := by
  rcases s.engStep_cases with e | ⟨a, v, rest, -, -, e⟩ | ⟨a, m, b, rest, -, -, -, e⟩ | ⟨a, m, b, rest, -, -, -, e⟩
  · rw [e]; exact h
  · rw [e]; exact Memory.writeWord_wf a v h
  · rw [e]; exact h
  · rw [e]; exact Memory.writeWord_wf a _ h

theorem State.MemInv.blockTurn (h : s.MemInv) {u : Turn} (hu : Turn.ofBlock u = true) : (s.blockTurn u).MemInv := by
  cases u with
  | host | reset => cases hu
  | tick => exact h
  | ch0 => exact (congrArg Memory.wf s.ch0Step_mem).trans h
  | ch1 => exact (congrArg Memory.wf s.ch1Step_mem).trans h
  | eng => exact h.engStep

theorem HostEffect.memInv (he : HostEffect s t) (h : s.MemInv) : t.MemInv := by
  cases he with
  | side | load | arm | disarm => subst t; exact h
  | store w a v => subst t; exact Memory.writeWidth_wf w a v h

end

/-- Settles O57: only a host's store and ENG's write-back touch memory, and both keep the form. -/
theorem stepKeepsMemInv : Obligations.StepKeepsMemInv := by
  unfold Obligations.StepKeepsMemInv
  intro s t hs h
  exact step_keeps (P := State.MemInv) (fun _ _ hs => hs) HostEffect.memInv (fun _ hu hs => hs.blockTurn hu)
    (fun hs => hs) hs h

/-! ### The engine's invariant -/

section
variable {s t : State}

theorem State.EngInv.congr (h : s.EngInv) (heng : t.eng = s.eng) (hbase : t.engBase = s.engBase) : t.EngInv :=
  ⟨by rw [heng]; exact h.opsBuilt, by rw [heng, hbase]; exact h.opsInFrame, by rw [heng]; exact h.phase2Head⟩

theorem State.engInv_of_idle (hops : s.eng.ops = []) (hphase : s.eng.phase2 = false) : s.EngInv :=
  ⟨by simp [hops], by simp [hops], by simp [hphase]⟩

/-- Accepting a draw command loads micro-ops of the framebuffer at the latched base (R230). -/
theorem State.engInv_loadEngine {ops : List MicroOp} (h : ∀ o ∈ ops, MicroOp.InFrame s.fbBase o) :
    (s.loadEngine ops).EngInv :=
  ⟨fun o ho => (h o ho).1, fun o ho => (h o ho).2, fun hp => by cases hp⟩

/-- Dropping the head micro-op with phase2 = 0, and turning to the second half of an RMW (R232). -/
theorem State.EngInv.engStep (h : s.EngInv) : s.engStep.EngInv := by
  obtain ⟨hbuilt, hframe, hphase⟩ := h
  rcases s.engStep_cases with e | ⟨a, v, rest, ho, -, e⟩ | ⟨a, m, b, rest, ho, -, -, e⟩ | ⟨a, m, b, rest, ho, -, -, e⟩
  case inl =>
    rw [e]
    exact ⟨hbuilt, hframe, hphase⟩
  case inr.inl =>
    have hread : s.eng.phase2 = false := by
      by_contra hp
      obtain ⟨_, _, _, _, hop⟩ := hphase (Bool.of_not_eq_false hp)
      simp [ho] at hop
    rw [ho] at hbuilt hframe
    rw [e]
    exact ⟨fun o h => hbuilt o (.tail _ h), fun o h => hframe o (.tail _ h), fun hp => by simp [hread] at hp⟩
  case inr.inr.inl =>
    rw [e]
    exact ⟨hbuilt, hframe, fun _ => ⟨a, m, b, rest, ho⟩⟩
  case inr.inr.inr =>
    rw [ho] at hbuilt hframe
    rw [e]
    exact ⟨fun o h => hbuilt o (.tail _ h), fun o h => hframe o (.tail _ h), fun hp => by cases hp⟩

theorem State.EngInv.blockTurn (h : s.EngInv) {u : Turn} (hu : Turn.ofBlock u = true) : (s.blockTurn u).EngInv := by
  cases u with
  | host | reset => cases hu
  | tick => exact h.congr rfl rfl
  | ch0 => exact h.congr s.ch0Step_eng s.ch0Step_engBase
  | ch1 => exact h.congr s.ch1Step_eng s.ch1Step_engBase
  | eng => exact h.engStep

theorem HostEffect.engInv (he : HostEffect s t) (h : s.EngInv) : t.EngInv := by
  cases he with
  | side | store | arm | disarm => subst t; exact h.congr rfl rfl
  | load i build ops program turns freeTurns draws idle built =>
    subst t
    exact (State.engInv_loadEngine (build_inFrame (aligned_fbBase s) draws built)).congr rfl rfl

end

/-- Settles O58: an accepted draw command meets the invariant by `build_inFrame`, and ENG only takes micro-ops away. -/
theorem stepKeepsEngInv : Obligations.StepKeepsEngInv := by
  unfold Obligations.StepKeepsEngInv
  intro s t hs h
  exact step_keeps (P := State.EngInv) (fun _ _ hs => hs.congr rfl rfl) HostEffect.engInv (fun _ hu hs => hs.blockTurn hu)
    (fun _ => State.engInv_of_idle rfl rfl) hs h

end Sys2Proof.Machine
end

section
/-! PROOFS. The scanout's invariant (spec/10_state.md R52, R54, R55; spec/41_scanout_dma.md R191 to R194), and what a tick does
to the queues. A tick of a running scanout is a step of H, of V and of P, each of which keeps its own part of the invariant. -/

namespace Sys2Proof.Machine

/-! ### H and V in one tick -/

section
variable {pl : Platform} {load : Word → Phase → Word} {q : Seq} {queue : List Word} {lb : Bool}

theorem Phase.counts_iff (ph : Phase) : ph.counts = true ↔ ph ≠ .idle ∧ ph ≠ .param := by
  cases ph <;> simp [Phase.counts]

/-- A sequencer's count is one its phase can have (R151). -/
def Seq.Within (load : Word → Phase → Word) (q : Seq) : Prop := q.phase ≠ .idle → q.phase ≠ .param → q.cnt ≤ load q.par q.phase

theorem Seq.Within.countStep (h : q.Within load) (hc : q.phase.counts = true) :
    (countStep load q).Within load ∧ (countStep load q).phase.counts = true := by
  rcases countStep_cases load q with ⟨-, e⟩ | ⟨hcnt, e⟩
  · rw [e]
    exact ⟨fun _ _ => BitVec.le_refl _, Phase.counts_nextPhase hc⟩
  · rw [e]
    refine ⟨fun hi hp => ?_, hc⟩
    have hle : q.cnt ≤ load q.par q.phase := h hi hp
    have hdown : q.cnt - 1 ≤ q.cnt := by bv_omega
    exact BitVec.le_trans hdown hle

@[simp] theorem hStep_idle (h : q.phase = .idle) : hStep pl q queue = (q, queue) := by
  simp only [hStep, h]

@[simp] theorem vStep_idle (h : q.phase = .idle) : vStep pl lb q queue = (q, queue, false) := by
  simp only [vStep, h]

theorem hStep_param_cons {w : Word} (h : q.phase = .param) :
    hStep pl q (w :: queue) = ({ phase := .active, cnt := w, par := w }, queue) := by
  simp only [hStep, h]

theorem hStep_param_nil (h : q.phase = .param) : hStep pl q [] = (q, []) := by
  simp only [hStep, h]

theorem vStep_param_cons {w : Word} (h : q.phase = .param) :
    vStep pl lb q (w :: queue) = ({ phase := .bp, cnt := 0, par := w }, queue, false) := by
  simp only [vStep, h]

theorem vStep_param_nil (h : q.phase = .param) : vStep pl lb q [] = (q, [], false) := by
  simp only [vStep, h]

/-- H in a tick is idle, waits for its parameter, pulls it, or counts (R152 to R154). -/
theorem hStep_cases (pl : Platform) (q : Seq) (queue : List Word) :
    (q.phase = .idle ∧ hStep pl q queue = (q, queue)) ∨
    (q.phase = .param ∧ queue = [] ∧ hStep pl q queue = (q, [])) ∨
    (∃ w rest, q.phase = .param ∧ queue = w :: rest ∧
      hStep pl q queue = ({ phase := .active, cnt := w, par := w }, rest)) ∨
    (q.phase.counts = true ∧ hStep pl q queue = (countStep (hLoad pl) q, queue)) := by
  by_cases hi : q.phase = .idle
  · exact .inl ⟨hi, hStep_idle hi⟩
  by_cases hp : q.phase = .param
  · cases queue with
    | nil => exact .inr (.inl ⟨hp, rfl, hStep_param_nil hp⟩)
    | cons w rest => exact .inr (.inr (.inl ⟨w, rest, hp, rfl, hStep_param_cons hp⟩))
  · have hc := q.phase.counts_iff.mpr ⟨hi, hp⟩
    exact .inr (.inr (.inr ⟨hc, hStep_of_counts pl queue hc⟩))

/-- V in a tick is idle, waits for its parameter, pulls it, counts a line, or holds (R157, R158). -/
theorem vStep_cases (pl : Platform) (lb : Bool) (q : Seq) (queue : List Word) :
    (q.phase = .idle ∧ vStep pl lb q queue = (q, queue, false)) ∨
    (q.phase = .param ∧ queue = [] ∧ vStep pl lb q queue = (q, [], false)) ∨
    (∃ w rest, q.phase = .param ∧ queue = w :: rest ∧
      vStep pl lb q queue = ({ phase := .bp, cnt := 0, par := w }, rest, false)) ∨
    (q.phase.counts = true ∧ lb = true ∧
      vStep pl lb q queue = (countStep (vLoad pl) q, queue, (countStep (vLoad pl) q).phase == .active)) ∨
    (q.phase.counts = true ∧ lb = false ∧ vStep pl lb q queue = (q, queue, false)) := by
  by_cases hi : q.phase = .idle
  · exact .inl ⟨hi, vStep_idle hi⟩
  by_cases hp : q.phase = .param
  · cases queue with
    | nil => exact .inr (.inl ⟨hp, rfl, vStep_param_nil hp⟩)
    | cons w rest => exact .inr (.inr (.inl ⟨w, rest, hp, rfl, vStep_param_cons hp⟩))
  · have hc := q.phase.counts_iff.mpr ⟨hi, hp⟩
    cases lb with
    | true => exact .inr (.inr (.inr (.inl ⟨hc, rfl, vStep_of_counts pl true queue hc⟩)))
    | false => exact .inr (.inr (.inr (.inr ⟨hc, rfl, vStep_of_counts pl false queue hc⟩)))

/-- What the invariant says of a sequencer that runs: its parameter waits for it exactly in PARAM, and its count is in range. -/
structure Seq.Runs (load : Word → Phase → Word) (q : Seq) (queue : List Word) : Prop where
  busy : q.phase ≠ .idle
  waiting : queue.length = if q.phase = .param then 1 else 0
  within : q.Within load

theorem Seq.runs_of_counts (hc : q.phase.counts = true) (hq : queue = []) (hw : q.Within load) : q.Runs load queue := by
  obtain ⟨hi, hp⟩ := q.phase.counts_iff.mp hc
  exact ⟨hi, by simp [hq, hp], hw⟩

theorem Seq.Runs.queue_of_param (h : q.Runs load queue) (hp : q.phase = .param) : ∃ w, queue = [w] := by
  have hlen := h.waiting
  rw [if_pos hp] at hlen
  exact List.length_eq_one_iff.mp hlen

theorem Seq.Runs.queue_of_counts (h : q.Runs load queue) (hc : q.phase.counts = true) : queue = [] := by
  have hlen := h.waiting
  rw [if_neg (q.phase.counts_iff.mp hc).2] at hlen
  exact List.eq_nil_of_length_eq_zero hlen

theorem Seq.Runs.hStep (h : q.Runs (hLoad pl) queue) : (hStep pl q queue).1.Runs (hLoad pl) (hStep pl q queue).2 := by
  rcases hStep_cases pl q queue with ⟨hi, -⟩ | ⟨hp, hq, -⟩ | ⟨w, rest, hp, hq, e⟩ | ⟨hc, e⟩
  · exact absurd hi h.busy
  · obtain ⟨w, hw⟩ := h.queue_of_param hp
    simp [hq] at hw
  · obtain ⟨w', hw⟩ := h.queue_of_param hp
    obtain ⟨-, rfl⟩ := List.cons.inj (hq.symm.trans hw)
    rw [e]
    exact Seq.runs_of_counts rfl rfl fun _ _ => BitVec.le_refl _
  · rw [e]
    exact Seq.runs_of_counts (h.within.countStep hc).2 (h.queue_of_counts hc) (h.within.countStep hc).1

theorem Seq.Runs.vStep (h : q.Runs (vLoad pl) queue) :
    (vStep pl lb q queue).1.Runs (vLoad pl) (vStep pl lb q queue).2.1 := by
  rcases vStep_cases pl lb q queue with ⟨hi, -⟩ | ⟨hp, hq, -⟩ | ⟨w, rest, hp, hq, e⟩ | ⟨hc, -, e⟩ | ⟨-, -, e⟩
  · exact absurd hi h.busy
  · obtain ⟨w, hw⟩ := h.queue_of_param hp
    simp [hq] at hw
  · obtain ⟨w', hw⟩ := h.queue_of_param hp
    obtain ⟨-, rfl⟩ := List.cons.inj (hq.symm.trans hw)
    rw [e]
    exact Seq.runs_of_counts rfl rfl fun _ _ => by bv_omega
  · rw [e]
    exact Seq.runs_of_counts (h.within.countStep hc).2 (h.queue_of_counts hc) (h.within.countStep hc).1
  · rw [e]
    exact h

theorem hStep_queue_suffix (pl : Platform) (q : Seq) (queue : List Word) : (hStep pl q queue).2 <:+ queue := by
  rcases hStep_cases pl q queue with ⟨-, e⟩ | ⟨-, rfl, e⟩ | ⟨w, rest, -, rfl, e⟩ | ⟨-, e⟩ <;> rw [e]
  exact List.suffix_cons w rest

theorem vStep_queue_suffix (pl : Platform) (lb : Bool) (q : Seq) (queue : List Word) :
    (vStep pl lb q queue).2.1 <:+ queue := by
  rcases vStep_cases pl lb q queue with ⟨-, e⟩ | ⟨-, rfl, e⟩ | ⟨w, rest, -, rfl, e⟩ | ⟨-, -, e⟩ | ⟨-, -, e⟩ <;> rw [e]
  exact List.suffix_cons w rest

end

/-! ### P in one tick -/

section
variable {p : PixSeq} {awf clearP : Bool} {pq : List Word}

@[simp] theorem pixStep_idle (h : p.phase = .idle) :
    pixStep p awf pq = { p := p, pq := pq, clearP := false, rgb := 0, underflow := false } := by
  simp only [pixStep, h]

theorem pixStep_param_nil (h : p.phase = .param) :
    pixStep p awf [] = { p := p, pq := [], clearP := false, rgb := 0, underflow := false } := by
  simp only [pixStep, h]

theorem pixStep_param_cons {w : Word} (h : p.phase = .param) :
    pixStep p awf (w :: pq) =
      { p := { p with phase := .wait, par := w, avail := 0 }, pq := pq, clearP := false, rgb := 0, underflow := false } := by
  simp only [pixStep, h]

theorem pixStep_wait (h : p.phase = .wait) :
    pixStep p false pq = { p := p, pq := pq, clearP := false, rgb := 0, underflow := false } := by
  simp [pixStep, h]

theorem pixStep_line (h : p.phase = .wait) : pixStep p true pq = pixShift { p with phase := .run, cnt := p.par } pq true := by
  simp [pixStep, h]

theorem pixStep_run (h : p.phase = .run) : pixStep p awf pq = pixShift p pq false := by
  simp only [pixStep, h]

/-- P in a tick is idle, waits for its parameter, pulls it, waits for a line, starts one, or is in one (R161 to R166). -/
theorem pixStep_cases (p : PixSeq) (awf : Bool) (pq : List Word) :
    ((p.phase = .idle ∨ (p.phase = .param ∧ pq = []) ∨ (p.phase = .wait ∧ awf = false)) ∧
      pixStep p awf pq = { p := p, pq := pq, clearP := false, rgb := 0, underflow := false }) ∨
    (∃ w rest, p.phase = .param ∧ pq = w :: rest ∧ pixStep p awf pq =
      { p := { p with phase := .wait, par := w, avail := 0 }, pq := rest, clearP := false, rgb := 0, underflow := false }) ∨
    (p.phase = .wait ∧ awf = true ∧ pixStep p awf pq = pixShift { p with phase := .run, cnt := p.par } pq true) ∨
    (p.phase = .run ∧ pixStep p awf pq = pixShift p pq false) := by
  cases hp : p.phase with
  | idle => exact .inl ⟨.inl rfl, pixStep_idle hp⟩
  | param =>
    cases pq with
    | nil => exact .inl ⟨.inr (.inl ⟨rfl, rfl⟩), pixStep_param_nil hp⟩
    | cons w rest => exact .inr (.inl ⟨w, rest, rfl, rfl, pixStep_param_cons hp⟩)
  | wait =>
    cases awf with
    | false => exact .inl ⟨.inr (.inr ⟨rfl, rfl⟩), pixStep_wait hp⟩
    | true => exact .inr (.inr (.inl ⟨rfl, rfl, pixStep_line hp⟩))
  | run => exact .inr (.inr (.inr ⟨rfl, pixStep_run hp⟩))

theorem pixShift_pq (p : PixSeq) (pq : List Word) (clearP : Bool) :
    (pixShift p pq clearP).pq <:+ pq ∧ pq.length ≤ (pixShift p pq clearP).pq.length + 1 := by
  rcases pixShift_cases p pq clearP with ⟨-, rfl, e⟩ | ⟨-, e⟩ | ⟨w, rest, -, rfl, e⟩ <;> rw [e]
  · exact ⟨List.suffix_rfl, Nat.le_succ _⟩
  · exact ⟨List.suffix_rfl, Nat.le_succ _⟩
  · exact ⟨List.suffix_cons w rest, Nat.le_refl _⟩

/-- P takes at most the head of PQ in a tick. -/
theorem pixStep_pq (p : PixSeq) (awf : Bool) (pq : List Word) :
    (pixStep p awf pq).pq <:+ pq ∧ pq.length ≤ (pixStep p awf pq).pq.length + 1 := by
  rcases pixStep_cases p awf pq with ⟨-, e⟩ | ⟨w, rest, -, rfl, e⟩ | ⟨-, -, e⟩ | ⟨-, e⟩ <;> rw [e]
  · exact ⟨List.suffix_rfl, Nat.le_succ _⟩
  · exact ⟨List.suffix_cons w rest, Nat.le_refl _⟩
  · exact pixShift_pq _ _ _
  · exact pixShift_pq _ _ _

/-- What the invariant says of P when it runs: its parameter waits for it in PARAM, and its counts are in range. -/
structure PixSeq.Runs (p : PixSeq) (pq : List Word) : Prop where
  busy : p.phase ≠ .idle
  waiting : p.phase = .param → pq ≠ []
  avail : p.avail ≤ 10
  within : p.phase = .run → p.cnt ≤ p.par

/-- The last pixel of a line (R163, R166). -/
theorem shiftPixel_last (hcnt : p.cnt = 0) :
    shiftPixel p = { p with osr := p.osr >>> 3, avail := p.avail - 1, phase := .wait } := by
  simp only [shiftPixel, if_pos hcnt]

/-- A pixel of a line before its last (R163). -/
theorem shiftPixel_inside (hcnt : p.cnt ≠ 0) :
    shiftPixel p = { p with osr := p.osr >>> 3, avail := p.avail - 1, cnt := p.cnt - 1 } := by
  simp only [shiftPixel, if_neg hcnt]

theorem PixSeq.Runs.shiftPixel (hp : p.Runs pq) (hrun : p.phase = .run) (pq' : List Word) : (shiftPixel p).Runs pq' := by
  have hav : p.avail - 1 ≤ 10 := (Nat.sub_le _ _).trans hp.avail
  have hle := hp.within hrun
  by_cases hcnt : p.cnt = 0
  · rw [shiftPixel_last hcnt]
    exact ⟨by simp, by simp, hav, by simp⟩
  · rw [shiftPixel_inside hcnt]
    exact ⟨hp.busy, by simp [hrun], hav, fun _ => by bv_omega⟩

theorem PixSeq.Runs.pixShift (hp : p.Runs pq) (hrun : p.phase = .run) :
    (pixShift p pq clearP).p.Runs (pixShift p pq clearP).pq := by
  rcases pixShift_cases p pq clearP with ⟨-, rfl, e⟩ | ⟨-, e⟩ | ⟨w, rest, -, rfl, e⟩ <;> rw [e]
  · exact hp
  · exact hp.shiftPixel hrun _
  · have hpulled : PixSeq.Runs { p with osr := w, avail := 10 } rest :=
      ⟨hp.busy, by simp [hrun], Nat.le_refl _, hp.within⟩
    exact hpulled.shiftPixel hrun _

theorem PixSeq.Runs.pixStep (hp : p.Runs pq) : (pixStep p awf pq).p.Runs (pixStep p awf pq).pq := by
  rcases pixStep_cases p awf pq with ⟨-, e⟩ | ⟨w, rest, -, -, e⟩ | ⟨-, -, e⟩ | ⟨hrun, e⟩ <;> rw [e]
  · exact hp
  · exact ⟨by simp, by simp, Nat.zero_le _, by simp⟩
  · have hstart : PixSeq.Runs { p with phase := .run, cnt := p.par } pq :=
      ⟨by simp, by simp, hp.avail, fun _ => BitVec.le_refl _⟩
    exact hstart.pixShift rfl
  · exact hp.pixShift hrun

end

/-! ### The invariant, part by part -/

section
variable {s t : State}

theorem State.Stopped.congr (h : s.Stopped) (e : SameScanout s t) : t.Stopped := by
  obtain ⟨h1, h2, h3, h4, h5, h6, h7, h8, h9, h10, h11⟩ := h
  constructor <;> simp only [e.h, e.v, e.p, e.awf, e.hq, e.vq, e.pq, e.ch0, e.ch1Busy] <;> assumption

theorem State.Running.congr (h : s.Running) (e : SameScanout s t) : t.Running := by
  obtain ⟨h1, h2, h3, h4, h5, h6, h7, h8, h9⟩ := h
  constructor <;> simp only [e.h, e.v, e.p, e.hq, e.vq, e.pq, e.ch0, e.ch1Busy] <;> assumption

theorem State.ScanInv.congr (h : s.ScanInv) (e : SameScanout s t) : t.ScanInv := by
  refine ⟨?_, ?_, ?_, ?_, ?_, ?_, fun hr => (h.whenStopped (e.run ▸ hr)).congr e,
    fun hr => (h.whenRunning (e.run ▸ hr)).congr e⟩ <;>
    simp only [e.h, e.v, e.p, e.pq, e.ch0, e.platform]
  · exact h.pqFits
  · exact h.availFits
  · exact h.raddrAligned
  · exact h.hCount
  · exact h.vCount
  · exact h.pCount

/-- Between stopped and running the invariant needs only what both say. -/
theorem State.scanInv_of_stopped (hrun : s.run = false) (h : s.Stopped) (hraddr : s.ch0.raddr.extractLsb' 0 2 = 0#2) :
    s.ScanInv where
  pqFits := by simp [h.pqEmpty]
  availFits := by simp [h.availZero]
  raddrAligned := hraddr
  hCount hi := absurd h.hIdle hi
  vCount hi := absurd h.vIdle hi
  pCount hp := by simp [h.pIdle] at hp
  whenStopped _ := h
  whenRunning hr := by simp [hrun] at hr

/-- The channels of a running scanout (R191 to R194). -/
structure State.Channels (s : State) : Prop where
  raddrAligned : s.ch0.raddr.extractLsb' 0 2 = 0#2
  oneChannel : s.ch0.busy = !s.ch1Busy
  ch0Count : s.ch0.busy = true → 1 ≤ s.ch0.count.toNat ∧ s.ch0.count.toNat ≤ fbWords
  ch1Count : s.ch1Busy = true → s.ch0.count = 0

/-- The running scanout's invariant is that of its three sequencers, of PQ and of its channels. -/
theorem State.scanInv_of_running (hrun : s.run = true) (hh : s.h.Runs (hLoad s.platform) s.hq)
    (hv : s.v.Runs (vLoad s.platform) s.vq) (hp : s.p.Runs s.pq) (hpq : s.pq.length ≤ s.platform.fifoDepth)
    (hch : s.Channels) : s.ScanInv where
  pqFits := hpq
  availFits := hp.avail
  raddrAligned := hch.raddrAligned
  hCount := hh.within
  vCount := hv.within
  pCount := hp.within
  whenStopped hr := by simp [hrun] at hr
  whenRunning _ := ⟨hh.busy, hv.busy, hp.busy, hh.waiting, hv.waiting, hp.waiting, hch.oneChannel, hch.ch0Count, hch.ch1Count⟩

section
variable (h : s.ScanInv) (hrun : s.run = true)
include h hrun

theorem State.ScanInv.hRuns : s.h.Runs (hLoad s.platform) s.hq :=
  ⟨(h.whenRunning hrun).hBusy, (h.whenRunning hrun).hqParam, h.hCount⟩

theorem State.ScanInv.vRuns : s.v.Runs (vLoad s.platform) s.vq :=
  ⟨(h.whenRunning hrun).vBusy, (h.whenRunning hrun).vqParam, h.vCount⟩

theorem State.ScanInv.pRuns : s.p.Runs s.pq :=
  ⟨(h.whenRunning hrun).pBusy, (h.whenRunning hrun).pqParam, h.availFits, h.pCount⟩

theorem State.ScanInv.channels : s.Channels :=
  ⟨h.raddrAligned, (h.whenRunning hrun).oneChannel, (h.whenRunning hrun).ch0Count, (h.whenRunning hrun).ch1Count⟩

end

theorem State.ScanInv.run_of_ch0Busy (h : s.ScanInv) (hb : s.ch0.busy = true) : s.run = true := by
  by_contra hr
  simp [(h.whenStopped (Bool.of_not_eq_true hr)).ch0Idle] at hb

theorem State.ScanInv.run_of_ch1Busy (h : s.ScanInv) (hb : s.ch1Busy = true) : s.run = true := by
  by_contra hr
  simp [(h.whenStopped (Bool.of_not_eq_true hr)).ch1Idle] at hb

/-! ### TICK -/

theorem State.Stopped.tick_eq (h : s.Stopped) :
    s.tick = { s with
      pins := { hsync := !s.platform.hsyncActive, vsync := !s.platform.vsyncActive, rgb := 0 }, tickNo := s.tickNo + 1 } := by
  simp [State.tick, h.hIdle, h.vIdle, h.pIdle, h.awfClear, syncLevel]

theorem State.ScanInv.tick (h : s.ScanInv) : s.tick.ScanInv := by
  cases hrun : s.run with
  | false =>
    have e := (h.whenStopped hrun).tick_eq
    exact h.congr (by rw [e]; constructor <;> rfl)
  | true =>
    exact State.scanInv_of_running hrun (h.hRuns hrun).hStep (h.vRuns hrun).vStep (h.pRuns hrun).pixStep
      ((pixStep_pq s.p s.awf s.pq).1.length_le.trans h.pqFits)
      ⟨h.raddrAligned, (h.channels hrun).oneChannel, (h.channels hrun).ch0Count, (h.channels hrun).ch1Count⟩

/-! ### The channels -/

theorem count_sub_one_eq_zero_iff (count : Word) : (count - 1 == 0) = true ↔ count.toNat = 1 := by
  rw [beq_iff_eq]
  bv_omega

theorem aligned_add_four {a : Word} (ha : a.extractLsb' 0 2 = 0#2) : (a + 4).extractLsb' 0 2 = 0#2 := by
  rw [aligned_iff] at ha ⊢
  bv_omega

/-- The count CH0 is armed with (R194). -/
theorem frameCount_range : 1 ≤ (BitVec.ofNat 32 fbWords).toNat ∧ (BitVec.ofNat 32 fbWords).toNat ≤ fbWords := by
  decide

theorem State.ScanInv.ch0Step (h : s.ScanInv) : s.ch0Step.ScanInv := by
  rcases s.ch0Step_cases with e | ⟨hbusy, hcount, hroom, -, -, e⟩
  · rwa [e]
  have hrun := h.run_of_ch0Busy hbusy
  have hch := h.channels hrun
  have hch1 : s.ch1Busy = false := by simpa [hbusy] using hch.oneChannel.symm
  have hp := h.pRuns hrun
  rw [e]
  refine State.scanInv_of_running hrun (h.hRuns hrun) (h.vRuns hrun)
    ⟨hp.busy, fun _ => by simp, hp.avail, hp.within⟩ (by simpa using hroom)
    ⟨aligned_add_four hch.raddrAligned, ?one, ?count, ?last⟩
  case one => simp [hbusy, hch1]
  case count =>
    intro hb
    obtain ⟨-, hle⟩ := hch.ch0Count hbusy
    have hlast : ¬ (s.ch0.count - 1 == 0) = true := by simpa [hbusy] using hb
    rw [count_sub_one_eq_zero_iff] at hlast
    have hdown : (s.ch0.count - 1).toNat = s.ch0.count.toNat - 1 := by bv_omega
    simp only [State.ch0Transfer_ch0, hdown]
    omega
  case last =>
    intro hb
    simpa [hch1] using hb

theorem State.ScanInv.ch1Step (h : s.ScanInv) : s.ch1Step.ScanInv := by
  rcases s.ch1Step_cases with ⟨-, e⟩ | ⟨hbusy, e⟩
  · rwa [e]
  have hrun := h.run_of_ch1Busy hbusy
  rw [e]
  exact State.scanInv_of_running hrun (h.hRuns hrun) (h.vRuns hrun) (h.pRuns hrun) h.pqFits
    ⟨aligned_and_alignMask _, rfl, fun _ => frameCount_range, fun hb => by cases hb⟩

/-! ### START, STOP and the rest -/

theorem two_le_fifoDepth (pl : Platform) : 2 ≤ pl.fifoDepth := Nat.le_add_left _ _

theorem State.ScanInv.arm (h : s.ScanInv) (hrun : s.run = false) : s.arm.ScanInv := by
  have hst := h.whenStopped hrun
  have hdepth := two_le_fifoDepth s.platform
  refine State.scanInv_of_running rfl ⟨by simp, by simp [hst.hqEmpty], by simp [Seq.Within]⟩
    ⟨by simp, by simp [hst.vqEmpty], by simp [Seq.Within]⟩ ⟨by simp, by simp, by simp [hst.availZero], by simp⟩ ?fits
    ⟨aligned_and_alignMask _, by simp [hst.ch1Idle], fun _ => frameCount_range, by simp [hst.ch1Idle]⟩
  case fits =>
    simp only [State.arm_pq, hst.pqEmpty, State.arm_platform, List.nil_append, List.length_singleton]
    omega

theorem State.ScanInv.disarm (h : s.ScanInv) : s.disarm.ScanInv :=
  State.scanInv_of_stopped rfl ⟨rfl, rfl, rfl, rfl, rfl, rfl, rfl, rfl, rfl, rfl, rfl⟩ h.raddrAligned

theorem State.scanInv_resetBlock (s : State) : s.resetBlock.ScanInv :=
  State.scanInv_of_stopped rfl ⟨rfl, rfl, rfl, rfl, rfl, rfl, rfl, rfl, rfl, rfl, rfl⟩ rfl

theorem State.ScanInv.blockTurn (h : s.ScanInv) {u : Turn} (hu : Turn.ofBlock u = true) : (s.blockTurn u).ScanInv := by
  cases u with
  | host | reset => cases hu
  | tick => exact h.tick
  | ch0 => exact h.ch0Step
  | ch1 => exact h.ch1Step
  | eng => exact h.congr (by rw [State.blockTurn, s.engStep_eq]; constructor <;> rfl)

theorem HostEffect.scanInv (he : HostEffect s t) (h : s.ScanInv) : t.ScanInv := by
  cases he with
  | side | store | load => subst t; exact h.congr (by constructor <;> rfl)
  | arm program turns freeTurns stopped => subst t; exact (h.arm stopped).congr (by constructor <;> rfl)
  | disarm => subst t; exact h.disarm.congr (by constructor <;> rfl)

end

/-- Settles O59: TICK, CH0, CH1, START and STOP each keep it, and no other effect touches the scanout. -/
theorem stepKeepsScanInv : Obligations.StepKeepsScanInv := by
  unfold Obligations.StepKeepsScanInv
  intro s t hs h
  exact step_keeps (P := State.ScanInv) (fun _ _ hs => hs.congr (by constructor <;> rfl)) HostEffect.scanInv
    (fun _ hu hs => hs.blockTurn hu) (fun _ => State.scanInv_resetBlock _) hs h

/-- Settles O46. -/
theorem stoppedTickOnlyDrivesPins : Obligations.StoppedTickOnlyDrivesPins := by
  unfold Obligations.StoppedTickOnlyDrivesPins
  intro s hs
  exact hs.tick_eq

/-- Settles O45: the queues by `hStep_queue_suffix`, `vStep_queue_suffix` and `pixStep_pq`. -/
theorem tickFrame : Obligations.TickFrame := by
  unfold Obligations.TickFrame
  intro s
  obtain ⟨hsuffix, hone⟩ := pixStep_pq s.p s.awf s.pq
  refine ⟨_, _, _, _, _, _, _, _, _, rfl, hStep_queue_suffix _ _ _, vStep_queue_suffix _ _ _ _, hsuffix, hone, ?history⟩
  case history =>
    split
    · exact List.prefix_append _ _
    · exact List.prefix_rfl

/-- Settles O47: each sequencer in PARAM, with a queue that has a head and with an empty one. -/
theorem parameterPulls : Obligations.ParameterPulls := by
  unfold Obligations.ParameterPulls
  intro s w rest
  refine ⟨fun hp hq => ?hPull, fun hp hq => ?hBlocked, fun hp hq => ?vPull, fun hp hq => ?vBlocked, fun hp hq => ?pPull,
    fun hp hq => ?pBlocked⟩
  case hPull => rw [State.tick_h, State.tick_hq, hq, hStep_param_cons hp]; exact ⟨rfl, rfl⟩
  case hBlocked => rw [State.tick_h, State.tick_hq, hq, hStep_param_nil hp]; exact ⟨rfl, rfl⟩
  case vPull => rw [State.tick_v, State.tick_vq, hq, vStep_param_cons hp]; exact ⟨rfl, rfl⟩
  case vBlocked => rw [State.tick_v, State.tick_vq, hq, vStep_param_nil hp]; exact ⟨rfl, rfl⟩
  case pPull => rw [State.tick_p, State.tick_pq, hq, pixStep_param_cons hp]; exact ⟨rfl, rfl⟩
  case pBlocked => rw [State.tick_p, State.tick_pq, hq, pixStep_param_nil hp]; exact ⟨rfl, rfl⟩

/-! ### AWF and the stall -/

section
variable (s : State)

theorem vStep_setV_iff (pl : Platform) (lb : Bool) (q : Seq) (queue : List Word) :
    (vStep pl lb q queue).2.2 = true ↔ lb = true ∧ (vStep pl lb q queue).1.phase = .active := by
  rcases vStep_cases pl lb q queue with
    ⟨hi, e⟩ | ⟨hp, -, e⟩ | ⟨w, rest, -, -, e⟩ | ⟨-, hlb, e⟩ | ⟨-, hlb, e⟩ <;> rw [e]
  · simp [hi]
  · simp [hp]
  · simp
  · simp [hlb]
  · simp [hlb]

theorem pixShift_clearP (p : PixSeq) (pq : List Word) (clearP : Bool) : (pixShift p pq clearP).clearP = clearP := by
  rcases pixShift_cases p pq clearP with ⟨-, -, e⟩ | ⟨-, e⟩ | ⟨_, _, -, -, e⟩ <;> rw [e]

/-- P clears AWF in the tick in which it starts a line (R162). -/
theorem pixStep_clearP_iff (p : PixSeq) (awf : Bool) (pq : List Word) :
    (pixStep p awf pq).clearP = true ↔ p.phase = .wait ∧ awf = true := by
  rcases pixStep_cases p awf pq with ⟨hq, e⟩ | ⟨w, rest, hp, -, e⟩ | ⟨hw, ha, e⟩ | ⟨hr, e⟩ <;> rw [e]
  · rcases hq with h | ⟨h, -⟩ | ⟨-, h⟩ <;> simp [h]
  · simp [hp]
  · simp [pixShift_clearP, hw, ha]
  · simp [pixShift_clearP, hr]

theorem State.tick_awf_iff :
    s.tick.awf = true ↔
      ((s.h.phase = .bp ∧ s.h.cnt = 0) ∧ s.tick.v.phase = .active) ∨ (s.awf = true ∧ s.p.phase ≠ .wait) := by
  rw [State.tick_awf, Bool.or_eq_true, vStep_setV_iff, lineBoundary_iff, Bool.and_eq_true, Bool.not_eq_true',
    ← Bool.not_eq_true, pixStep_clearP_iff]
  refine or_congr Iff.rfl (and_congr_right fun ha => ?_)
  simp [ha]

end

/-- Settles O48: setV is `vStep_setV_iff`, clearP `pixStep_clearP_iff`. -/
theorem activeWindowLatch : Obligations.ActiveWindowLatch := by
  unfold Obligations.ActiveWindowLatch
  refine fun s => ⟨s.tick_awf_iff, fun hv => ?notActive⟩
  case notActive =>
    rw [State.tick_v]
    rcases vStep_cases s.platform (lineBoundary s.h) s.v s.vq with
      ⟨hi, e⟩ | ⟨hp, -, e⟩ | ⟨w, rest, -, -, e⟩ | ⟨hc, -, -⟩ | ⟨hc, -, -⟩
    · simp [hi]
    · simp [e, hp]
    · simp [e]
    · rcases hv with hv | hv <;> simp [hv, Phase.counts] at hc
    · rcases hv with hv | hv <;> simp [hv, Phase.counts] at hc

theorem pixShift_stall {p : PixSeq} (clearP : Bool) (hav : p.avail = 0) :
    pixShift p [] clearP = { p := p, pq := [], clearP := clearP, rgb := 0, underflow := true } := by
  simp [pixShift, hav]

/-- Settles O53: `pixShift_stall`, in a line and at the start of one. -/
theorem underflowStalls : Obligations.UnderflowStalls := by
  unfold Obligations.UnderflowStalls
  intro s hav hpq
  refine ⟨fun hrun => ?inLine, fun hwait hawf => ?atStart⟩
  case inLine =>
    have e : pixStep s.p s.awf s.pq = { p := s.p, pq := [], clearP := false, rgb := 0, underflow := true } := by
      rw [pixStep_run hrun, hpq, pixShift_stall _ hav]
    rw [State.tick_p, State.tick_pins, State.tick_history, e]
    exact ⟨rfl, rfl, rfl⟩
  case atStart =>
    have e : pixStep s.p s.awf s.pq =
        { p := { s.p with phase := .run, cnt := s.p.par }, pq := [], clearP := true, rgb := 0, underflow := true } := by
      rw [hawf, pixStep_line hwait, hpq, pixShift_stall (p := { s.p with phase := .run, cnt := s.p.par }) _ hav]
    refine ⟨by rw [State.tick_p, e], by rw [State.tick_pins, e], by rw [State.tick_history, e]; rfl, ?_⟩
    rw [s.tick_awf_iff]
    exact or_iff_left fun h => h.2 hwait

end Sys2Proof.Machine
end

section
/-! PROOFS. The step and the commands (spec/30_encoding.md R120, R131; spec/42_sync_controller.md R210, R212;
spec/43_framebuffer_commands.md R230, R234 to R239). A draw command on an idle engine loads the list its builder gives, which
is in closed form already; what each command leaves alone is read off `exec_cases`. -/

namespace Sys2Proof.Machine

/-! ### Whose step it is -/

section
variable {s t : State} {u : Turn} {ts : List Turn} {ps : List HostStep} {i : Instr}

theorem step_of_turns (h : s.turns = u :: ts) : step s = { s with turns := ts }.takeTurn u := by
  simp only [step, State.nextTurn, h]

theorem step_of_no_turns (h : s.turns = []) :
    step s = { s with freeTurns := s.freeTurns + 1 }.takeTurn (Config.freeTurn s.freeTurns) := by
  simp only [step, State.nextTurn, h]

theorem State.hostTurn_write {w : Width} {tg : Target} {v : Word} (h : s.program = .write w tg v :: ps) :
    s.hostTurn = { s with program := ps }.hostWr w tg v := by
  simp only [State.hostTurn, h]

/-- A host turn with a write next is that write. -/
theorem step_of_hostWrite {w : Width} {tg : Target} {v : Word} (ht : s.turns = .host :: ts)
    (hp : s.program = .write w tg v :: ps) : step s = { s with turns := ts, program := ps }.hostWr w tg v := by
  rw [step_of_turns ht]
  exact State.hostTurn_write hp

theorem step_of_cmdA {a : Word} (ht : s.turns = .host :: ts) (hp : s.program = .write .word (.reg 0x14) a :: ps)
    (hd : decode a s.cmdBWord = .ok i) : step s = exec i { s with turns := ts, program := ps } := by
  rw [step_of_hostWrite ht hp, State.hostWr_cmdA]
  exact State.issue_of_decode _ hd

end

/-- Settles O6. -/
theorem stepRunsDecodedCommand : Obligations.StepRunsDecodedCommand := by
  unfold Obligations.StepRunsDecodedCommand
  intro s a i ts ps ht hp hd
  exact step_of_cmdA ht hp hd

/-- Settles O7: `step_of_turns` at each agent. -/
theorem stepIsSomeAgentsStep : Obligations.StepIsSomeAgentsStep := by
  unfold Obligations.StepIsSomeAgentsStep
  exact fun s => ⟨fun _ h => step_of_turns h, fun _ h => step_of_turns h, fun _ h => step_of_turns h,
    fun _ h => step_of_turns h, fun _ h => step_of_turns h, fun _ h => step_of_turns h, fun h => ⟨_, step_of_no_turns h⟩⟩

/-! ### Runs -/

section
variable {s t : State}

theorem coreRun_succ (M : Host.Core) {s t : M.State} (k : Nat) (h : M.step s = .next t) : M.run (k + 1) s = M.run k t := by
  rw [Host.Core.run, h]

theorem coreRun_one (M : Host.Core) (s : M.State) : M.run 1 s = M.step s := by
  rw [Host.Core.run]
  cases M.step s <;> rfl

theorem run_succ_of_step (k : Nat) (h : step s = .next t) : Host.Core.run core (k + 1) s = Host.Core.run core k t :=
  coreRun_succ core k h

theorem run_one (s : State) : Host.Core.run core 1 s = step s := coreRun_one core s

end

/-! ### Assembled commands -/

section
variable {s : State} {ts : List Turn} {ps : List HostStep} {i : Instr}

/-- CMD_A alone decides a command that is not HLINE or VLINE (R122, R124). -/
theorem decode_of_ok_ignoring_cmdB {a b : Word} (b' : Word) (h : decode a b = .ok i) (h3 : fieldOp a ≠ 3)
    (h4 : fieldOp a ≠ 4) : decode a b' = .ok i := by
  rcases decode_ok_cases h with ⟨hop, rfl⟩ | ⟨hop, rfl⟩ | ⟨hop, rfl⟩ | ⟨hop, -⟩ | ⟨hop, -⟩ | ⟨hop, rfl⟩ | ⟨hop, rfl⟩
  · exact decode_of_fieldOp_zero b' hop
  · exact decode_of_op_pixel b' (congrArg BitVec.toNat hop)
  · exact decode_of_op_fill b' (congrArg BitVec.toNat hop)
  · exact absurd hop h3
  · exact absurd hop h4
  · exact decode_of_op_start b' (congrArg BitVec.toNat hop)
  · exact decode_of_op_stop b' (congrArg BitVec.toNat hop)

/-- CMD_B holds every bit of an assembled CMD_B word (R44, R130). -/
theorem packB_stored (yb xb : Int) : 0#8 ++ (packB yb xb).extractLsb' 0 24 = packB yb xb := by
  have hlow : (packB yb xb).extractLsb' 0 24 = BitVec.ofInt 12 yb ++ BitVec.ofInt 12 xb := by
    have happ : packB yb xb = 0#8 ++ (BitVec.ofInt 12 yb ++ BitVec.ofInt 12 xb) :=
      (BitVec.append_assoc (x₁ := 0#8) (x₂ := BitVec.ofInt 12 yb) (x₃ := BitVec.ofInt 12 xb)).trans (BitVec.cast_eq _ _)
    rw [happ]
    exact BitVec.extractLsb'_append_eq_right
  rw [hlow]
  exact ((BitVec.append_assoc (x₁ := 0#8) (x₂ := BitVec.ofInt 12 yb) (x₃ := BitVec.ofInt 12 xb)).trans
    (BitVec.cast_eq _ _)).symm

/-- One bus write runs a command that reads no CMD_B. -/
theorem run_command_of_cmdA (hi : i.wellFormed = true) (hsteps : commandSteps i = [regWrite 0x14 i.encodeA])
    (h3 : Laws.OpcodeMatches.op i ≠ 3) (h4 : Laws.OpcodeMatches.op i ≠ 4) (hp : s.program = commandSteps i ++ ps)
    (ht : s.turns = List.replicate (commandSteps i).length .host ++ ts) :
    Host.Core.run core (commandSteps i).length s = exec i { s with program := ps, turns := ts } := by
  rw [hsteps] at hp ht ⊢
  rw [← fieldOp_encodeA] at h3 h4
  have hd := decode_of_ok_ignoring_cmdB s.cmdBWord (decodeEncodeRoundTrip i hi) h3 h4
  exact (run_one s).trans (step_of_cmdA ht hp hd)

/-- Two bus writes run a command that reads CMD_B, which they store first. -/
theorem run_command_of_cmdB_cmdA (hi : i.wellFormed = true) {yb xb : Int} (hb : i.encodeB = packB yb xb)
    (hsteps : commandSteps i = [regWrite 0x10 i.encodeB, regWrite 0x14 i.encodeA]) (hp : s.program = commandSteps i ++ ps)
    (ht : s.turns = List.replicate (commandSteps i).length .host ++ ts) :
    Host.Core.run core (commandSteps i).length s =
      exec i { s with program := ps, turns := ts, regs := { s.regs with cmdB := i.encodeB.extractLsb' 0 24 } } := by
  rw [hsteps] at hp ht ⊢
  have hfirst : step s = .next { s with
      turns := .host :: ts, program := regWrite 0x14 i.encodeA :: ps
      regs := { s.regs with cmdB := i.encodeB.extractLsb' 0 24 } } :=
    step_of_hostWrite (v := i.encodeB) ht hp
  refine (run_succ_of_step 1 hfirst).trans ((run_one _).trans (step_of_cmdA rfl rfl ?_))
  rw [State.cmdBWord, hb, packB_stored, ← hb]
  exact decodeEncodeRoundTrip i hi

end

/-- Settles O8: HLINE and VLINE write CMD_B first, the others CMD_A alone. -/
theorem assembledCommandRuns : Obligations.AssembledCommandRuns := by
  unfold Obligations.AssembledCommandRuns
  intro s i ts ps hi hp ht
  cases i with
  | hline | vline => exact run_command_of_cmdB_cmdA hi rfl rfl hp ht
  | nop | pixel | fill | start | stop => exact run_command_of_cmdA hi rfl (by simp [Laws.OpcodeMatches.op]) (by simp [Laws.OpcodeMatches.op]) hp ht

/-! ### Draw commands on an idle engine -/

section
variable {s : State} {i : Instr} {build : Word → Option (List MicroOp)} {ops : List MicroOp}

theorem exec_draw_of_idle (hb : Instr.build i = some build) (hidle : s.eng.ops = []) (hops : build s.fbBase = some ops) :
    exec i s = .next (s.loadEngine ops) := by
  rw [exec_of_build hb, State.acceptDraw, State.busy_eq_false.mpr hidle, if_neg Bool.false_ne_true, hops]

theorem exec_draw_of_busy (hb : Instr.build i = some build) (hbusy : s.eng.ops ≠ []) :
    exec i s = .next { s with flags := { s.flags with cmdBusyErr := true } } := by
  rw [exec_of_build hb, State.acceptDraw, if_pos (State.busy_eq_true.mpr hbusy)]
  rfl

end

/-- Settles O10. -/
theorem pixelLoadsOneRmw : Obligations.PixelLoadsOneRmw := by
  unfold Obligations.PixelLoadsOneRmw
  intro s x y c hidle hx hy
  exact exec_draw_of_idle rfl hidle (buildPixel_of_inRange s.fbBase c hx hy)

/-- Settles O11. -/
theorem fillLoadsEveryWord : Obligations.FillLoadsEveryWord := by
  unfold Obligations.FillLoadsEveryWord
  intro s c hidle
  refine ⟨_, exec_draw_of_idle rfl hidle (buildFill_eq_map s.fbBase c), ?length, fun k hk => ?word⟩
  case length => rw [List.length_map, List.length_range]
  case word => rw [List.getElem?_map, List.getElem?_range hk, Option.map_some, fillword_eq]

/-- Settles O12: endpoints that share a word take the first case of `buildHline_cases`. -/
theorem hlineWithinOneWord : Obligations.HlineWithinOneWord := by
  unfold Obligations.HlineWithinOneWord
  intro s x1 x2 y c lo hi hidle hlo hhi hword
  subst hlo hhi
  rcases buildHline_cases s.fbBase c x1 x2 y with ⟨-, e⟩ | ⟨hlt, -⟩
  · exact exec_draw_of_idle rfl hidle e
  · exact absurd hword (Nat.ne_of_lt hlt)

/-- Settles O13: endpoints in different words take the second case of `buildHline_cases`. -/
theorem hlineAcrossWords : Obligations.HlineAcrossWords := by
  unfold Obligations.HlineAcrossWords
  intro s x1 x2 y c lo hi hidle hlo hhi hwords
  subst hlo hhi
  rcases buildHline_cases s.fbBase c x1 x2 y with ⟨heq, -⟩ | ⟨-, e⟩
  · exact absurd heq (Nat.ne_of_lt hwords)
  · rw [exec_draw_of_idle rfl hidle e, hlineAcrossOps, hlineInteriorOps, maskFrom_slot (Nat.mod_lt _ (by decide)),
      maskUpTo_slot (Nat.mod_lt _ (by decide)), fillword_eq]
    rfl

/-- Settles O14. -/
theorem vlineLoadsOneRmwPerRow : Obligations.VlineLoadsOneRmwPerRow := by
  unfold Obligations.VlineLoadsOneRmwPerRow
  intro s x y1 y2 c hidle hx hy1 hy2
  exact exec_draw_of_idle rfl hidle (buildVline_of_inRange s.fbBase c hx hy1 hy2)

/-! ### START, STOP and CH1's reload -/

section
variable (s : State)

theorem fbBase_and_alignMask : s.fbBase &&& 0xFFFFFFFC = s.fbBase := and_alignMask_of_aligned (aligned_fbBase s)

theorem exec_start_of_stopped {s : State} (hrun : s.run = false) : exec .start s = .next s.arm := by
  simp only [exec, execStart, hrun, Bool.false_eq_true, if_false]

theorem exec_stop_of_running {s : State} (hrun : s.run = true) : exec .stop s = .next s.disarm := by
  simp only [exec, execStop, hrun, if_true]

end

/-- Settles O15: FB_BASE is word-aligned, so CH0 is armed at FB_BASE itself. -/
theorem startArmsTheScanout : Obligations.StartArmsTheScanout := by
  unfold Obligations.StartArmsTheScanout
  intro s hrun
  rw [exec_start_of_stopped hrun, State.arm, State.triggerCh0, fbBase_and_alignMask]
  rfl

/-- Settles O16. -/
theorem stopDisablesTheScanout : Obligations.StopDisablesTheScanout := by
  unfold Obligations.StopDisablesTheScanout
  intro s hrun
  exact exec_stop_of_running hrun

/-- Settles O42: FB_BASE is word-aligned, as for START. -/
theorem ch1ReloadsFromFbBase : Obligations.Ch1ReloadsFromFbBase := by
  unfold Obligations.Ch1ReloadsFromFbBase
  refine ⟨fun s hbusy => ?reload, fun s hidle => ?pass⟩
  case reload =>
    rw [State.ch1Step, if_pos hbusy, State.triggerCh0, fbBase_and_alignMask]
    rfl
  case pass => rw [State.ch1Step, if_neg (Bool.eq_false_iff.mp hidle)]

/-! ### The frame of a command -/

/-- START and STOP transform the scanout; what else a command does is to the flags and the engine alone. -/
theorem exec_frame (i : Instr) (s : State) :
    (∃ f e b, exec i s = .next { s with flags := f, eng := e, engBase := b } ∧
      ((i = .start ∨ i = .stop) → e = s.eng ∧ b = s.engBase)) ∨
    (i = .start ∧ exec i s = .next s.arm) ∨ (i = .stop ∧ exec i s = .next s.disarm) := by
  rcases exec_cases i s with ⟨-, e⟩ | ⟨c, e⟩ | ⟨build, ops, hb, -, -, e⟩ | ⟨hi, -, e⟩ | ⟨hi, -, e⟩
  · exact .inl ⟨_, _, _, e, fun _ => ⟨rfl, rfl⟩⟩
  · exact .inl ⟨_, _, _, e, fun _ => ⟨rfl, rfl⟩⟩
  · exact .inl ⟨_, _, _, e, fun hi => by rcases hi with rfl | rfl <;> cases hb⟩
  · exact .inr (.inl ⟨hi, e⟩)
  · exact .inr (.inr ⟨hi, e⟩)

/-- Settles O19. -/
theorem commandFrame : Obligations.CommandFrame := by
  unfold Obligations.CommandFrame
  intro i s
  rcases exec_frame i s with ⟨f, eng, b, e, heng⟩ | ⟨rfl, e⟩ | ⟨rfl, e⟩
  case inl =>
    exact ⟨_, e, fun _ => rfl, rfl, rfl, rfl, rfl, rfl, rfl, rfl, rfl, rfl, heng,
      fun _ _ => ⟨rfl, rfl, rfl, rfl, rfl, rfl, rfl, rfl, rfl, rfl, rfl, rfl⟩⟩
  case inr.inl =>
    exact ⟨_, e, fun _ => rfl, rfl, rfl, rfl, rfl, rfl, rfl, rfl, rfl, rfl, fun _ => ⟨rfl, rfl⟩, fun h => absurd rfl h⟩
  case inr.inr =>
    exact ⟨_, e, fun _ => rfl, rfl, rfl, rfl, rfl, rfl, rfl, rfl, rfl, rfl, fun _ => ⟨rfl, rfl⟩, fun _ h => absurd rfl h⟩

end Sys2Proof.Machine
end

section
/-! PROOFS. The host's accesses (spec/10_state.md R31 to R47; spec/20_memory.md R91, R98, R101; spec/30_encoding.md R132): which
register accesses are admitted, what the registers store and read, and what an access to memory does. -/

namespace Sys2Proof.Machine

/-! ### Register accesses -/

section
variable (s : State) {off : BitVec 8} {w : Width}

theorem offset_aligned_iff : off.extractLsb' 0 2 = 0#2 ↔ off.toNat % 4 = 0 := by
  rw [← BitVec.toNat_inj, BitVec.extractLsb'_toNat]
  simp

theorem regAccessOk_iff : regAccessOk w off = true ↔ w = .word ∧ off.toNat % 4 = 0 := by
  rw [regAccessOk, Bool.and_eq_true, beq_iff_eq, beq_iff_eq, offset_aligned_iff]

theorem regAccessOk_eq_false_iff : regAccessOk w off = false ↔ w ≠ .word ∨ off.toNat % 4 ≠ 0 := by
  rw [← Bool.not_eq_true, regAccessOk_iff, Decidable.not_and_iff_or_not]

theorem State.hostRd_reg (h : off.toNat % 4 = 0) :
    s.hostRd .word (.reg off) = .next { s with hostRead := some (s.readReg off.toNat) } :=
  if_pos (regAccessOk_iff.mpr ⟨rfl, h⟩)

theorem State.hostWr_reg (v : Word) (h : off.toNat % 4 = 0) : s.hostWr .word (.reg off) v = s.writeReg off.toNat v :=
  if_pos (regAccessOk_iff.mpr ⟨rfl, h⟩)

theorem State.hostPoll_reg (m v : Word) (h : off.toNat % 4 = 0) :
    s.hostPoll off m v =
      if s.readReg off.toNat &&& m = v then .next { s with hostRead := some (s.readReg off.toNat) }
      else .next { s with hostRead := some (s.readReg off.toNat), program := .poll off m v :: s.program } :=
  if_pos (regAccessOk_iff.mpr ⟨rfl, h⟩)

theorem State.hostReadReg_refused (h : w ≠ .word ∨ off.toNat % 4 ≠ 0) :
    s.hostReadReg w off = .refused .hostRegisterAccess := by
  rw [State.hostReadReg, regAccessOk_eq_false_iff.mpr h, if_neg Bool.false_ne_true]

theorem State.hostWriteReg_refused (v : Word) (h : w ≠ .word ∨ off.toNat % 4 ≠ 0) :
    s.hostWriteReg w off v = .refused .hostRegisterAccess := by
  rw [State.hostWriteReg, regAccessOk_eq_false_iff.mpr h, if_neg Bool.false_ne_true]

theorem State.hostPoll_refused (m v : Word) (h : off.toNat % 4 ≠ 0) :
    s.hostPoll off m v = .refused .hostRegisterAccess := by
  rw [State.hostPoll, regAccessOk_eq_false_iff.mpr (.inr h), if_neg Bool.false_ne_true]

/-- CMD_A and the reserved offsets read 0 (R33, R45). -/
theorem State.readReg_eq_zero {n : Nat} (h : n = 0x14 ∨ 0x24 ≤ n) : s.readReg n = 0 := by
  unfold State.readReg
  split
  case h_9 => rfl
  all_goals omega

/-- The registers from 0x18 on are read-only or reserved (R33, R46 to R48). -/
theorem State.writeReg_ignored {n : Nat} (v : Word) (h : 0x18 ≤ n) : s.writeReg n v = .next s := by
  unfold State.writeReg
  split
  case h_7 => rfl
  all_goals omega

end

/-- Settles O24. -/
theorem badRegisterAccessRefused : Obligations.BadRegisterAccessRefused := by
  unfold Obligations.BadRegisterAccessRefused
  intro s w off m v
  exact ⟨fun h => ⟨s.hostReadReg_refused h, s.hostWriteReg_refused v h⟩, s.hostPoll_refused m v⟩

/-- Settles O23. -/
theorem registerReadsAndIgnoredWrites : Obligations.RegisterReadsAndIgnoredWrites := by
  unfold Obligations.RegisterReadsAndIgnoredWrites
  intro s off m v hoff
  refine ⟨s.hostRd_reg hoff, fun h => s.readReg_eq_zero ?zero, rfl, rfl, fun h => ?ignored, fun h => ?pollEnds,
    fun h => ?pollStays⟩
  case zero => exact h.imp_left fun e => by rw [e]; rfl
  case ignored => rw [s.hostWr_reg v hoff, s.writeReg_ignored v h]
  case pollEnds => rw [s.hostPoll_reg m v hoff, if_pos h]
  case pollStays => rw [s.hostPoll_reg m v hoff, if_neg h]

/-! ### What the registers store -/

section
variable (v : Word)

theorem extract_append_zeros : v.extractLsb' 2 30 ++ 0#2 = v &&& 0xFFFFFFFC := by
  have hsplit : v = v.extractLsb' 2 30 ++ v.extractLsb' 0 2 := by
    simp (disch := rfl) only [BitVec.extractLsb'_append_extractLsb'_eq_extractLsb']
    exact BitVec.extractLsb'_eq_self.symm
  have hand : ∀ (hi : BitVec 30) (lo : BitVec 2), (hi ++ lo) &&& (BitVec.allOnes 30 ++ 0#2) = hi ++ 0#2 := by
    intro hi lo
    rw [BitVec.and_append, BitVec.and_allOnes, BitVec.and_zero]
  exact ((congrArg (· &&& (0xFFFFFFFC : Word)) hsplit).trans (hand _ _)).symm

theorem zeros_append_extract : 0#8 ++ v.extractLsb' 0 24 = v &&& 0x00FFFFFF := by
  have hsplit : v = v.extractLsb' 24 8 ++ v.extractLsb' 0 24 := by
    simp (disch := rfl) only [BitVec.extractLsb'_append_extractLsb'_eq_extractLsb']
    exact BitVec.extractLsb'_eq_self.symm
  have hand : ∀ (hi : BitVec 8) (lo : BitVec 24), (hi ++ lo) &&& (0#8 ++ BitVec.allOnes 24) = 0#8 ++ lo := by
    intro hi lo
    rw [BitVec.and_append, BitVec.and_allOnes, BitVec.and_zero]
  exact ((congrArg (· &&& (0x00FFFFFF : Word)) hsplit).trans (hand _ _)).symm

end

/-- Settles O21. -/
theorem statusWriteOneClears : Obligations.StatusWriteOneClears := by
  unfold Obligations.StatusWriteOneClears
  intro s v
  refine ⟨{ s with flags := s.flags.clearBits v }, rfl, rfl, ?_, ?_, ?_, ?_⟩ <;>
    simp only [ErrFlags.clearBits, Bool.and_eq_true, Bool.not_eq_true']

/-- Settles O22: FB_BASE and CMD_B store the bits that exist and read the others as 0. -/
theorem storedRegistersReadBack : Obligations.StoredRegistersReadBack := by
  unfold Obligations.StoredRegistersReadBack
  intro s v
  exact ⟨⟨_, rfl, extract_append_zeros v, rfl⟩, ⟨_, rfl, rfl, rfl⟩, ⟨_, rfl, rfl, rfl⟩,
    ⟨_, rfl, zeros_append_extract v, rfl⟩⟩

/-! ### Bus addresses in the register file -/

section
variable (pl : Platform) (off : BitVec 8)

/-- BLOCK_BASE is 256-byte aligned, so the offset is the low byte of the address (00_scope R10). -/
theorem blockBase_add (off : BitVec 8) : pl.blockBase + off.setWidth 32 = pl.blockPage ++ off := by
  have hpage := pl.blockPage.isLt
  have hoff := off.isLt
  apply BitVec.eq_of_toNat_eq
  rw [Platform.blockBase, BitVec.toNat_add, BitVec.toNat_append, BitVec.toNat_append, BitVec.toNat_setWidth,
    ← Nat.shiftLeft_add_eq_or_of_lt hoff, ← Nat.shiftLeft_add_eq_or_of_lt (0#8).isLt, Nat.shiftLeft_eq]
  simp only [BitVec.toNat_zero]
  omega

theorem inRegisterFile_blockBase_add : inRegisterFile pl (pl.blockBase + off.setWidth 32) = true := by
  rw [blockBase_add, inRegisterFile, beq_iff_eq]
  exact BitVec.extractLsb'_append_eq_left

theorem extractLsb'_blockBase_add : (pl.blockBase + off.setWidth 32).extractLsb' 0 8 = off := by
  rw [blockBase_add]
  exact BitVec.extractLsb'_append_eq_right

end

/-- Settles O25. -/
theorem busAddressReachesRegister : Obligations.BusAddressReachesRegister := by
  unfold Obligations.BusAddressReachesRegister
  intro s w off v
  simp only [State.hostRd, State.hostWr, inRegisterFile_blockBase_add, extractLsb'_blockBase_add, if_true, and_self]

/-! ### Memory accesses -/

section
variable {s : State} {pl : Platform} {a : Word} {w : Width}

theorem ramWord_iff :
    ramWord pl a = true ↔
      ramByte pl a = true ∧ ramByte pl (a + 1) = true ∧ ramByte pl (a + 2) = true ∧ ramByte pl (a + 3) = true := by
  simp only [ramWord, Bool.and_eq_true, and_assoc]

theorem not_inRegisterFile_of_ramByte (h : ramByte pl a = true) : inRegisterFile pl a = false := by
  rw [ramByte, Bool.and_eq_true, Bool.not_eq_true'] at h
  exact h.2

theorem ramByte_of_ramWord (h : ramWord pl a = true) {i : Nat} (hi : i < 4) :
    ramByte pl (a + BitVec.ofNat 32 i) = true := by
  obtain ⟨h0, h1, h2, h3⟩ := ramWord_iff.mp h
  have hcases : i = 0 ∨ i = 1 ∨ i = 2 ∨ i = 3 := by omega
  rcases hcases with rfl | rfl | rfl | rfl
  · rwa [BitVec.add_zero]
  · exact h1
  · exact h2
  · exact h3

@[simp] theorem hostLane_word (e : Endian) (a : Word) : hostLane e .word a = a := by
  cases e <;> rfl

/-- An aligned word in RAM is read whole. -/
theorem State.hostRd_memWord (h : ramWord s.platform a = true) (ha : a.extractLsb' 0 2 = 0#2) :
    s.hostRd .word (.mem a) = .next { s with hostRead := some (s.mem.readWord a) } := by
  have hreg := not_inRegisterFile_of_ramByte (ramWord_iff.mp h).1
  simp only [State.hostRd, hreg, State.hostReadMem, ramAccess, h, widthAligned, ha, hostLane_word]
  rfl

/-- An aligned word in RAM is written whole. -/
theorem State.hostWr_memWord (v : Word) (h : ramWord s.platform a = true) (ha : a.extractLsb' 0 2 = 0#2) :
    s.hostWr .word (.mem a) v = .next { s with mem := s.mem.writeWord a v } := by
  have hreg := not_inRegisterFile_of_ramByte (ramWord_iff.mp h).1
  simp only [State.hostWr, hreg, State.hostWriteMem, State.subWordOnFramebuffer, ramAccess, h, widthAligned, ha,
    hostLane_word]
  rfl

/-- With MEM_ENDIAN little a byte of RAM is read at its own address. -/
theorem State.hostRd_memByte (hle : s.platform.memEndian = .little) (h : ramByte s.platform a = true) :
    s.hostRd .byte (.mem a) = .next { s with hostRead := some ((s.mem.get a.toNat).setWidth 32) } := by
  have hreg := not_inRegisterFile_of_ramByte h
  simp only [State.hostRd, hreg, State.hostReadMem, ramAccess, h, widthAligned, hle, hostLane]
  rfl

/-- Byte lane i of a word is the byte at its i-th address (R91). -/
theorem Memory.readWord_lane (m : Memory) (a : Word) {i : Nat} (hi : i < 4) :
    (m.readWord a).extractLsb' (8 * i) 8 = m.get (a + BitVec.ofNat 32 i).toNat := by
  have hcases : i = 0 ∨ i = 1 ∨ i = 2 ∨ i = 3 := by omega
  rcases hcases with rfl | rfl | rfl | rfl <;>
    simp (disch := decide) only [Memory.readWord, BitVec.extractLsb'_append_eq_of_add_le, BitVec.extractLsb'_append_eq_of_le]
  · simp
  · simp
  · simp
  · simp

/-- A word write is seen at its four addresses alone. -/
theorem Memory.get_writeWord_other (m : Memory) (a v : Word) {x : Nat} (h0 : x ≠ a.toNat) (h1 : x ≠ (a + 1).toNat)
    (h2 : x ≠ (a + 2).toNat) (h3 : x ≠ (a + 3).toNat) : (m.writeWord a v).get x = m.get x := by
  rw [Memory.get_writeWord, if_neg h3, if_neg h2, if_neg h1, if_neg h0]

end

/-- Settles O27. -/
theorem hostWordWriteReadsBack : Obligations.HostWordWriteReadsBack := by
  unfold Obligations.HostWordWriteReadsBack
  intro s a v hram ha
  refine ⟨_, State.hostWr_memWord v hram ha, rfl, ?read, fun x h0 h1 h2 h3 => Memory.get_writeWord_other _ _ _ h0 h1 h2 h3⟩
  case read => rw [State.hostRd_memWord (by exact hram) ha, Memory.readWord_writeWord_same]

/-- Settles O28. -/
theorem littleEndianByteView : Obligations.LittleEndianByteView := by
  unfold Obligations.LittleEndianByteView
  intro s a i hle ha hi hram
  rw [State.hostRd_memByte hle (ramByte_of_ramWord hram hi), Memory.readWord_lane _ _ hi]

/-! ### Sub-word writes to the framebuffer -/

section
variable {s : State} {w : Width} {a x base : Word} {k i : Nat}

theorem inFramebuffer_of_word (hk : k < 30720) (hi : i < 4) :
    inFramebuffer base (fbaddr base k + BitVec.ofNat 32 i) = true := by
  have hoffset : (fbaddr base k + BitVec.ofNat 32 i - base).toNat = 4 * k + i := by
    have hsub : fbaddr base k + BitVec.ofNat 32 i - base = BitVec.ofNat 32 (4 * k) + BitVec.ofNat 32 i := by
      rw [fbaddr, BitVec.add_assoc, BitVec.add_comm base, BitVec.add_sub_cancel]
    rw [hsub, BitVec.toNat_add, BitVec.toNat_ofNat, BitVec.toNat_ofNat]
    omega
  rw [inFramebuffer, hoffset, decide_eq_true_eq, fbWords]
  omega

/-- A byte of a word of any of the four kinds is a framebuffer byte (log 8). -/
theorem State.isFramebufferByte_of_word (hk : k < 30720) (hi : i < 4)
    (h : x = fbaddr s.fbBase k + BitVec.ofNat 32 i ∨
      (s.ch0.busy = true ∧ x = fbaddr s.frameBase k + BitVec.ofNat 32 i) ∨
      (s.eng.ops ≠ [] ∧ x = fbaddr s.engBase k + BitVec.ofNat 32 i) ∨
      (∃ o ∈ s.eng.ops, x = MicroOp.addr o + BitVec.ofNat 32 i)) : s.isFramebufferByte x = true := by
  simp only [State.isFramebufferByte, Bool.or_eq_true, Bool.and_eq_true, List.any_eq_true, decide_eq_true_eq]
  rcases h with rfl | ⟨hb, rfl⟩ | ⟨hb, rfl⟩ | ⟨o, ho, rfl⟩
  · exact .inl (.inl (.inl (inFramebuffer_of_word hk hi)))
  · exact .inl (.inl (.inr ⟨hb, inFramebuffer_of_word hk hi⟩))
  · exact .inl (.inr ⟨State.busy_eq_true.mpr hb, inFramebuffer_of_word hk hi⟩)
  · refine .inr ⟨o, ho, ?_⟩
    rw [BitVec.add_comm, BitVec.add_sub_cancel, BitVec.toNat_ofNat]
    omega

theorem State.subWordOnFramebuffer_of_byte (hw : w ≠ .word) (hx : s.isFramebufferByte x = true)
    (ha : a = x ∨ (w = .half ∧ a + 1 = x)) : s.subWordOnFramebuffer w a = true := by
  cases w with
  | byte =>
    rcases ha with rfl | ⟨hb, -⟩
    · exact hx
    · cases hb
  | half =>
    rw [State.subWordOnFramebuffer, Bool.or_eq_true]
    rcases ha with rfl | ⟨-, rfl⟩
    · exact .inl hx
    · exact .inr hx
  | word => exact absurd rfl hw

/-- A sub-word write that touches a framebuffer byte is refused, in the register file by the name of a register access. -/
theorem State.hostWr_subWord (v : Word) (hw : w ≠ .word) (h : s.subWordOnFramebuffer w a = true) :
    s.hostWr w (.mem a) v =
      .refused (if inRegisterFile s.platform a then .hostRegisterAccess else .hostSubWordWrite) := by
  rw [State.hostWr]
  cases inRegisterFile s.platform a with
  | true => exact s.hostWriteReg_refused v (.inl hw)
  | false => exact if_pos h

end

/-- Settles O29. -/
theorem subWordFramebufferWriteRefused : Obligations.SubWordFramebufferWriteRefused := by
  unfold Obligations.SubWordFramebufferWriteRefused
  intro s w a x v k i hw hk hi hx ha
  exact State.hostWr_subWord v hw (State.subWordOnFramebuffer_of_byte hw (State.isFramebufferByte_of_word hk hi hx) ha)

end Sys2Proof.Machine
end

section
/-! PROOFS. The block's agents one step at a time, what stays stuck, and what RESET and power-on leave (spec/10_state.md R64;
spec/20_memory.md R93, R97; spec/41_scanout_dma.md R191, R192; spec/43_framebuffer_commands.md R232; spec/60_exceptions.md R272;
spec/70_reset_and_hazards.md R300 to R302, R314). -/

namespace Sys2Proof.Machine

/-! ### One engine access -/

section
variable {s : State} {a m b v : Word} {rest : List MicroOp}

theorem State.engStep_of_head {o : MicroOp} (ho : s.eng.ops = o :: rest) (hram : ramWord s.platform (MicroOp.addr o) = true) :
    s.engStep = s.engAccess := by
  rw [State.engStep, State.engAdmitted, State.engAddr, ho]
  exact if_pos hram

theorem State.engStep_wr (ho : s.eng.ops = .wr a v :: rest) (hram : ramWord s.platform a = true) :
    s.engStep = { s with mem := s.mem.writeWord a v, eng := { s.eng with ops := rest } } := by
  rw [State.engStep_of_head ho hram]
  simp only [State.engAccess, ho]

theorem State.engStep_read (ho : s.eng.ops = .rmw a m b :: rest) (hram : ramWord s.platform a = true)
    (hp : s.eng.phase2 = false) : s.engStep = { s with eng := { s.eng with phase2 := true, tmp := s.mem.readWord a } } := by
  rw [State.engStep_of_head ho hram]
  simp only [State.engAccess, ho, hp, Bool.false_eq_true, if_false]

theorem State.engStep_writeBack (ho : s.eng.ops = .rmw a m b :: rest) (hram : ramWord s.platform a = true)
    (hp : s.eng.phase2 = true) :
    s.engStep = { s with
      mem := s.mem.writeWord a (rmwValue s.eng.tmp m b), eng := { s.eng with ops := rest, phase2 := false } } := by
  rw [State.engStep_of_head ho hram]
  simp only [State.engAccess, ho, hp, if_true]

theorem State.engStep_of_not_admitted (h : s.engAdmitted = false) : s.engStep = s := by
  rw [State.engStep, h, if_neg Bool.false_ne_true]

theorem State.engStep_of_idle (h : s.eng.ops = []) : s.engStep = s := by
  refine State.engStep_of_not_admitted ?_
  rw [State.engAdmitted, State.engAddr, h]
  rfl

end

/-- Settles O30. -/
theorem engineStepAccesses : Obligations.EngineStepAccesses := by
  unfold Obligations.EngineStepAccesses
  intro s a m b rest hram
  exact ⟨fun ho => State.engStep_wr ho hram, fun ho hp => State.engStep_read ho hram hp,
    fun ho hp => State.engStep_writeBack ho hram hp⟩

/-- Settles O31: a step of ENG writes the word of its head micro-op or nothing. -/
theorem engineStepFrame : Obligations.EngineStepFrame := by
  unfold Obligations.EngineStepFrame
  intro s
  refine ⟨s.engStep_eq, fun x hx => ?memory⟩
  case memory =>
    have hword : ∀ {a v : Word}, s.engAddr = some a → (s.mem.writeWord a v).get x = s.mem.get x := fun ha => by
      obtain ⟨h0, h1, h2, h3⟩ := hx _ ha
      exact Memory.get_writeWord_other _ _ _ h0 h1 h2 h3
    rcases s.engStep_cases with e | ⟨a, v, rest, ho, -, e⟩ | ⟨a, m, b, rest, -, -, -, e⟩ | ⟨a, m, b, rest, ho, -, -, e⟩
    · rw [e]
    · rw [e]; exact hword (by rw [State.engAddr, ho]; rfl)
    · rw [e]
    · rw [e]; exact hword (by rw [State.engAddr, ho]; rfl)

/-! ### A stuck engine -/

section
variable {s t : State}

theorem State.engStuck_iff : s.engStuck = true ↔ s.eng.ops ≠ [] ∧ s.engAdmitted = false := by
  rw [State.engStuck, Bool.and_eq_true, State.busy_eq_true, Bool.not_eq_true']

theorem State.engStuck_congr (heng : t.eng = s.eng) (hpl : t.platform = s.platform) : t.engStuck = s.engStuck := by
  simp only [State.engStuck, State.busy, State.engAdmitted, State.engAddr, heng, hpl]

theorem State.engStep_of_engStuck (h : s.engStuck = true) : s.engStep = s :=
  State.engStep_of_not_admitted (State.engStuck_iff.mp h).2

/-- Only a draw command loads the engine, and a stuck engine takes none. -/
theorem HostEffect.engStuck (he : HostEffect s t) (h : s.engStuck = true) : t.engStuck = true := by
  cases he with
  | side | store | arm | disarm => subst t; exact h
  | load _ _ _ _ _ _ _ idle => exact absurd idle (State.engStuck_iff.mp h).1

theorem State.engStuck_blockTurn {u : Turn} (hu : Turn.ofBlock u = true) (h : s.engStuck = true) :
    (s.blockTurn u).engStuck = true := by
  cases u with
  | host | reset => cases hu
  | tick => exact h
  | ch0 => exact (State.engStuck_congr s.ch0Step_eng s.ch0Step_platform).trans h
  | ch1 => exact (State.engStuck_congr s.ch1Step_eng s.ch1Step_platform).trans h
  | eng => rwa [State.blockTurn, State.engStep_of_engStuck h]

/-- A step that is not RESET has a host's effect or is a block agent's. -/
theorem step_effects_of_not_reset (hr : s.nextAgent ≠ .reset) (h : step s = .next t) :
    HostEffect s t ∨ ∃ ts k u, Turn.ofBlock u = true ∧ t = { s.blockTurn u with turns := ts, freeTurns := k } := by
  rcases (canStep_of_step h).effects with ⟨-, he⟩ | ⟨ts, k, hu, e⟩ | ⟨-, -, hu, -⟩
  · exact .inl he
  · exact .inr ⟨ts, k, _, hu, e⟩
  · exact absurd hu hr

end

/-- Settles O32. -/
theorem stuckEngineStaysBusy : Obligations.StuckEngineStaysBusy := by
  unfold Obligations.StuckEngineStaysBusy
  intro s h
  obtain ⟨hbusy, -⟩ := State.engStuck_iff.mp h
  refine ⟨State.engStep_of_engStuck h, State.busy_eq_true.mpr hbusy, fun _ _ _ => exec_draw_of_busy rfl hbusy,
    fun _ => exec_draw_of_busy rfl hbusy, fun _ _ _ _ => exec_draw_of_busy rfl hbusy,
    fun _ _ _ _ => exec_draw_of_busy rfl hbusy, fun t hr hstep => ?stays, rfl⟩
  case stays =>
    rcases step_effects_of_not_reset hr hstep with he | ⟨ts, k, u, hu, rfl⟩
    · exact he.engStuck h
    · exact State.engStuck_blockTurn hu h

/-! ### CH0 -/

section
variable {s t : State}

theorem State.ch0Ready_iff :
    s.ch0Ready = true ↔ s.ch0.busy = true ∧ 1 ≤ s.ch0.count.toNat ∧ s.pq.length < s.platform.fifoDepth := by
  simp only [State.ch0Ready, Bool.and_eq_true, decide_eq_true_eq, and_assoc, Nat.succ_le_iff]

theorem State.ch0Stuck_iff :
    s.ch0Stuck = true ↔ s.ch0StuckLatch = true ∨ (s.ch0Ready = true ∧ ramWord s.platform s.ch0.raddr = false) := by
  simp only [State.ch0Stuck, Bool.or_eq_true, Bool.and_eq_true, Bool.not_eq_true']

theorem State.ch0Step_of_ready (hready : s.ch0Ready = true) (hfree : s.ch0Stuck = false) : s.ch0Step = s.ch0Transfer := by
  rw [State.ch0Step, hready, hfree]
  rfl

theorem State.ch0Step_of_not_ready (h : s.ch0Ready = false) : s.ch0Step = s := by
  rw [State.ch0Step, h]
  rfl

/-- One transfer, its last-of-the-frame test read as a count of 1 (R191, R192). -/
theorem State.ch0Transfer_eq (s : State) :
    s.ch0Transfer = { s with
      pq := s.pq ++ [s.mem.readWord s.ch0.raddr]
      ch0 := { busy := s.ch0.busy && decide (s.ch0.count.toNat ≠ 1), raddr := s.ch0.raddr + 4, count := s.ch0.count - 1 }
      ch1Busy := s.ch1Busy || decide (s.ch0.count.toNat = 1) } := by
  have hlast : (s.ch0.count - 1 == 0) = decide (s.ch0.count.toNat = 1) :=
    Bool.eq_iff_iff.mpr ((count_sub_one_eq_zero_iff _).trans decide_eq_true_iff.symm)
  simp only [State.ch0Transfer, hlast, decide_not]

/-- What CH0's being stuck rests on: it stays while the channel is left alone and PQ only shrinks. -/
theorem State.ch0Stuck_mono (h : s.ch0Stuck = true) (hlatch : t.ch0StuckLatch = s.ch0StuckLatch) (hch0 : t.ch0 = s.ch0)
    (hpl : t.platform = s.platform) (hpq : t.pq.length ≤ s.pq.length) : t.ch0Stuck = true := by
  rw [State.ch0Stuck_iff] at h ⊢
  rw [hlatch, hch0, hpl]
  refine h.imp_right fun ⟨hready, hram⟩ => ⟨?_, hram⟩
  obtain ⟨hb, hc, hroom⟩ := State.ch0Ready_iff.mp hready
  exact State.ch0Ready_iff.mpr ⟨hch0 ▸ hb, hch0 ▸ hc, hpl ▸ hpq.trans_lt hroom⟩

theorem State.ch0Stuck_of_latch (h : s.ch0StuckLatch = true) : s.ch0Stuck = true := State.ch0Stuck_iff.mpr (.inl h)

/-- START and STOP latch that CH0 is stuck; other host steps leave the channel alone (log 26). -/
theorem HostEffect.ch0Stuck (he : HostEffect s t) (h : s.ch0Stuck = true) : t.ch0Stuck = true := by
  cases he with
  | side | store | load => subst t; exact h
  | arm | disarm => subst t; exact State.ch0Stuck_of_latch h

theorem State.ch0Stuck_blockTurn {u : Turn} (hu : Turn.ofBlock u = true) (h : s.ch0Stuck = true) :
    (s.blockTurn u).ch0Stuck = true := by
  cases u with
  | host | reset => cases hu
  | tick => exact State.ch0Stuck_mono h rfl rfl rfl (pixStep_pq s.p s.awf s.pq).1.length_le
  | ch0 => rwa [State.blockTurn, State.ch0Step_of_stuck h]
  | ch1 =>
    rcases s.ch1Step_cases with ⟨-, e⟩ | ⟨-, e⟩
    · rwa [State.blockTurn, e]
    · rw [State.blockTurn, e]
      exact State.ch0Stuck_of_latch h
  | eng => rw [State.blockTurn, s.engStep_eq]; exact h

end

/-- Settles O41. -/
theorem ch0MovesOneWord : Obligations.Ch0MovesOneWord := by
  unfold Obligations.Ch0MovesOneWord
  intro s
  refine ⟨fun hb hc hroom hram hlatch => ?moves, fun h => ?passes, fun hb hc hroom hram => ?stuck,
    fun h t hr hstep => ?stays, rfl⟩
  case moves =>
    have hready := State.ch0Ready_iff.mpr ⟨hb, hc, hroom⟩
    have hfree : s.ch0Stuck = false := by rw [State.ch0Stuck, hlatch, hram, Bool.not_true, Bool.and_false]; rfl
    rw [State.ch0Step_of_ready hready hfree, State.ch0Transfer_eq, hb, Bool.true_and]
  case passes =>
    by_cases hready : s.ch0Ready = true
    · obtain ⟨hb, hc, hroom⟩ := State.ch0Ready_iff.mp hready
      rcases h with h | h | h | h | h
      · simp [h] at hb
      · simp [h] at hc
      · exact absurd hroom (Nat.not_lt.mpr h)
      · exact State.ch0Step_of_stuck (State.ch0Stuck_iff.mpr (.inr ⟨hready, h⟩))
      · exact State.ch0Step_of_stuck (State.ch0Stuck_of_latch h)
    · exact State.ch0Step_of_not_ready (Bool.of_not_eq_true hready)
  case stuck => exact State.ch0Stuck_iff.mpr (.inr ⟨State.ch0Ready_iff.mpr ⟨hb, hc, hroom⟩, hram⟩)
  case stays =>
    have ht : t.ch0Stuck = true := by
      rcases step_effects_of_not_reset hr hstep with he | ⟨ts, k, u, hu, rfl⟩
      · exact he.ch0Stuck h
      · exact State.ch0Stuck_blockTurn hu h
    exact ⟨ht, State.ch0Step_of_stuck ht⟩

/-! ### RESET and power-on -/

/-- Settles O54. -/
theorem resetStepGivesResetState : Obligations.ResetStepGivesResetState := by
  unfold Obligations.ResetStepGivesResetState
  intro s
  have hstatus : s.resetBlock.statusWord = 0 := by simp [State.statusWord, State.busy]
  have hbase : s.resetBlock.fbBase = 0 := by simp [State.fbBase]
  exact ⟨rfl, hstatus, hbase, s.readReg_scanState_resetBlock⟩

/-- Settles O56. -/
theorem powerOnMeetsInvariants : Obligations.PowerOnMeetsInvariants := by
  unfold Obligations.PowerOnMeetsInvariants
  exact fun pl m hm => ⟨hm, State.engInv_of_idle rfl rfl,
    State.scanInv_of_stopped rfl ⟨rfl, rfl, rfl, rfl, rfl, rfl, rfl, rfl, rfl, rfl, rfl⟩ rfl⟩

/-! ### A block at rest -/

section
variable {s : State}

/-- The next step is the next agent's turn, at the state with that turn used up (R6). -/
theorem step_eq_takeTurn (s : State) :
    ∃ k, step s = { s with turns := s.turns.tail, freeTurns := k }.takeTurn s.nextAgent := by
  rcases step_cases s with ⟨u, rest, hu, e⟩ | ⟨hu, e⟩
  · refine ⟨s.freeTurns, ?_⟩
    rw [e, State.nextAgent, hu]
    rfl
  · refine ⟨s.freeTurns + 1, ?_⟩
    rw [e, State.nextAgent, hu]
    congr

theorem State.hostTurn_of_done (h : s.program = []) : s.hostTurn = .next s := by
  simp only [State.hostTurn, h]

/-- A stopped block with an idle engine has nothing to do but tick (R301). -/
theorem State.blockTurn_of_stopped (hs : s.Stopped) (hidle : s.eng.ops = []) {u : Turn} (hu : u ≠ .tick) :
    s.blockTurn u = s := by
  cases u with
  | host | reset => rfl
  | tick => exact absurd rfl hu
  | ch0 => exact State.ch0Step_of_not_ready (by rw [State.ch0Ready, hs.ch0Idle]; rfl)
  | ch1 => rw [State.blockTurn, State.ch1Step, hs.ch1Idle, if_neg Bool.false_ne_true]
  | eng => exact State.engStep_of_idle hidle

end

/-- Settles O55. -/
theorem nothingHappensBeforeTheFirstCommand : Obligations.NothingHappensBeforeTheFirstCommand := by
  unfold Obligations.NothingHappensBeforeTheFirstCommand
  intro s hs hidle hpins hnext
  obtain ⟨k, e⟩ := step_eq_takeTurn s
  rw [e]
  rcases hnext with hu | ⟨hu, hdone⟩
  case inl =>
    rw [State.takeTurn_of_ofBlock hu]
    by_cases htick : s.nextAgent = .tick
    · rw [htick, State.blockTurn, hs.tick_eq, ← hpins]
      exact ⟨_, rfl, rfl, fun h => absurd rfl h⟩
    · rw [State.blockTurn_of_stopped hs hidle htick]
      exact ⟨_, rfl, rfl, fun _ => rfl⟩
  case inr =>
    rw [hu]
    exact ⟨_, State.hostTurn_of_done hdone, rfl, fun _ => rfl⟩

/-! ### What block agents leave alone -/

/-- No block agent touches the host's side of the block; of the agents only ENG writes memory (R97). -/
theorem State.blockTurn_frame (s : State) {u : Turn} (hu : Turn.ofBlock u = true) :
    (s.blockTurn u).regs = s.regs ∧ (s.blockTurn u).flags = s.flags ∧ (s.blockTurn u).run = s.run ∧
    (s.blockTurn u).platform = s.platform ∧ (s.blockTurn u).program = s.program ∧
    (s.blockTurn u).hostRead = s.hostRead ∧ (s.blockTurn u).engBase = s.engBase ∧
    (u ≠ .eng → (s.blockTurn u).mem = s.mem ∧ (s.blockTurn u).eng = s.eng) := by
  cases u with
  | host | reset => cases hu
  | tick => exact ⟨rfl, rfl, rfl, rfl, rfl, rfl, rfl, fun _ => ⟨rfl, rfl⟩⟩
  | ch0 => rw [State.blockTurn, s.ch0Step_eq]; exact ⟨rfl, rfl, rfl, rfl, rfl, rfl, rfl, fun _ => ⟨rfl, rfl⟩⟩
  | ch1 => rw [State.blockTurn, s.ch1Step_eq]; exact ⟨rfl, rfl, rfl, rfl, rfl, rfl, rfl, fun _ => ⟨rfl, rfl⟩⟩
  | eng => rw [State.blockTurn, s.engStep_eq]; exact ⟨rfl, rfl, rfl, rfl, rfl, rfl, rfl, fun h => absurd rfl h⟩

/-- An idle engine's turn leaves memory and the engine alone as the other agents' turns do. -/
theorem State.blockTurn_of_idle {s : State} (hidle : s.eng.ops = []) {u : Turn} (hu : Turn.ofBlock u = true) :
    (s.blockTurn u).mem = s.mem ∧ (s.blockTurn u).eng = s.eng := by
  by_cases he : u = .eng
  · rw [he, State.blockTurn, State.engStep_of_idle hidle]
    exact ⟨rfl, rfl⟩
  · obtain ⟨-, -, -, -, -, -, -, h⟩ := s.blockTurn_frame hu
    exact h he

/-- Settles O60. -/
theorem blockAgentsKeepRegistersAndFlags : Obligations.BlockAgentsKeepRegistersAndFlags := by
  unfold Obligations.BlockAgentsKeepRegistersAndFlags
  refine ⟨fun s t u hu h => ?frame, fun s hs hr => ?ended⟩
  case frame =>
    cases (State.takeTurn_of_ofBlock hu s s.turns s.freeTurns).symm.trans h
    exact s.blockTurn_frame hu
  case ended =>
    obtain ⟨k, e⟩ := step_eq_takeTurn s
    rw [e]
    by_cases hu : Turn.ofBlock s.nextAgent = true
    · obtain ⟨hregs, hflags, hrun, -, hprogram, -, -, -⟩ := s.blockTurn_frame hu
      obtain ⟨hmem, heng⟩ := State.blockTurn_of_idle hs.engineIdle hu
      rw [State.takeTurn_of_ofBlock hu]
      exact ⟨_, rfl, ⟨hprogram.trans hs.programDone, (congrArg Engine.ops heng).trans hs.engineIdle⟩, hmem, hregs, hflags,
        hrun⟩
    · have hhost : s.nextAgent = .host := by
        cases hn : s.nextAgent with
        | host => rfl
        | reset => exact absurd hn hr
        | tick | ch0 | ch1 | eng => exact absurd (congrArg Turn.ofBlock hn) hu
      rw [hhost]
      exact ⟨_, State.hostTurn_of_done hs.programDone, ⟨hs.programDone, hs.engineIdle⟩, rfl, rfl, rfl, rfl⟩

end Sys2Proof.Machine
end

section
/-! PROOFS. What micro-ops do to memory (spec/20_memory.md R84, R90; spec/43_framebuffer_commands.md R231, R240 to R244). All
micro-ops of a draw command of colour c merge the fill word of c under a mask, so what a list of them does to a word is one
merge, under the union of the masks; which bits a command paints is then a matter of arithmetic. -/

namespace Sys2Proof.Machine

/-! ### Access counts -/

section
variable {α : Type}

theorem accessCount_append (l l' : List MicroOp) : accessCount (l ++ l') = accessCount l + accessCount l' := by
  induction l with
  | nil => simp [accessCount]
  | cons o l ih => cases o <;> simp only [List.cons_append, accessCount, ih, Nat.add_assoc]

theorem accessCount_map_of_const {f : α → MicroOp} {n : Nat} (h : ∀ x, accessCount [f x] = n) (l : List α) :
    accessCount (l.map f) = n * l.length := by
  induction l with
  | nil => rfl
  | cons x l ih =>
    rw [List.map_cons, ← List.singleton_append, accessCount_append, h, ih, List.length_cons]
    ring

end

section
variable (base : Word) (c : Color) {lo hi y : Nat}

theorem accessCount_hlineWordOps : accessCount (hlineWordOps base c lo hi y) = 2 * (hi + 1 - lo) := by
  rw [hlineWordOps, accessCount_map_of_const (n := 2), List.length_range]
  exact fun _ => rfl

theorem accessCount_hlineAcrossOps : accessCount (hlineAcrossOps base c lo hi y) = 4 + (hi / 10 - lo / 10 - 1) := by
  rw [hlineAcrossOps, accessCount_append, accessCount, hlineInteriorOps, accessCount_map_of_const (n := 1),
    List.length_range, accessCount, accessCount]
  · omega
  · exact fun _ => rfl

theorem clampX_of_lt {x : Nat} (hx : x < 640) : clampX x = x := by
  unfold clampX
  omega

theorem clampY_of_lt {y : Nat} (hy : y < 480) : clampY y = y := by
  unfold clampY
  omega

/-- In-range endpoints of HLINE are only ordered (R236). -/
theorem buildHline_of_inRange {x1 x2 y : Nat} (hx1 : x1 < 640) (hx2 : x2 < 640) (hy : y < 480) :
    (min x1 x2 / 10 = max x1 x2 / 10 ∧
      buildHline x1 x2 y c base = some (hlineWordOps base c (min x1 x2) (max x1 x2) y)) ∨
    (min x1 x2 / 10 < max x1 x2 / 10 ∧
      buildHline x1 x2 y c base = some (hlineAcrossOps base c (min x1 x2) (max x1 x2) y)) := by
  have h := buildHline_cases base c x1 x2 y
  rwa [clampX_of_lt hx1, clampX_of_lt hx2, clampY_of_lt hy] at h

end

/-- Settles O34. -/
theorem accessCounts : Obligations.AccessCounts := by
  unfold Obligations.AccessCounts
  intro x1 x2 y1 y2 c base ops hx hx2 hy hy2
  refine ⟨fun h => ?pixel, fun h => ?fill, fun h => ?hline, fun h => ?vline⟩
  case pixel =>
    rw [buildPixel_of_inRange base c (by omega) (by omega)] at h
    cases h
    rfl
  case fill =>
    rw [buildFill_eq_map, Option.some_inj] at h
    rw [← h, accessCount_map_of_const (n := 1), List.length_range]
    exact fun _ => rfl
  case hline =>
    have hmin : min x1 x2 = x1 := Nat.min_eq_left hx
    have hmax : max x1 x2 = x2 := Nat.max_eq_right hx
    rcases buildHline_of_inRange base c (show x1 < 640 by omega) hx2 (show y1 < 480 by omega) with ⟨hw, e⟩ | ⟨hw, e⟩ <;>
      rw [hmin, hmax] at hw e <;> cases e.symm.trans h
    · rw [accessCount_hlineWordOps, if_pos hw, Nat.sub_add_comm hx]
    · rw [accessCount_hlineAcrossOps, if_neg (Nat.ne_of_lt hw)]
  case vline =>
    rw [buildVline_of_inRange base c (by omega) (by omega) hy2, Option.some_inj] at h
    rw [← h, accessCount_map_of_const (n := 2), List.length_range, Nat.min_eq_left hy, Nat.max_eq_right hy,
      Nat.sub_add_comm hy]
    exact fun _ => rfl

/-! ### Merging under a mask -/

section
variable {w m f : Word} {i j : Nat}

theorem rmwValue_getLsbD (w m f : Word) (i : Nat) :
    (rmwValue w m f).getLsbD i = if m.getLsbD i then f.getLsbD i else w.getLsbD i := by
  simp only [rmwValue, BitVec.getLsbD_or, BitVec.getLsbD_and, BitVec.getLsbD_not]
  by_cases hi : i < 32
  · cases m.getLsbD i <;> simp [hi]
  · simp [BitVec.getLsbD_of_ge _ _ (Nat.le_of_not_lt hi)]

theorem rmwValue_zero (w f : Word) : rmwValue w 0 f = w := by
  apply BitVec.eq_of_getLsbD_eq
  intro i hi
  rw [rmwValue_getLsbD]
  simp

theorem allOnes_getLsbD (hi : i < 32) : (BitVec.allOnes 32).getLsbD i = true := by
  rw [BitVec.getLsbD_allOnes]
  exact decide_eq_true hi

theorem rmwValue_allOnes (w f : Word) : rmwValue w (BitVec.allOnes 32) f = f := by
  apply BitVec.eq_of_getLsbD_eq
  intro i hi
  rw [rmwValue_getLsbD, if_pos (allOnes_getLsbD hi)]

theorem rmwValue_rmwValue (w m m' f : Word) : rmwValue (rmwValue w m f) m' f = rmwValue w (m ||| m') f := by
  apply BitVec.eq_of_getLsbD_eq
  intro i hi
  simp only [rmwValue_getLsbD, BitVec.getLsbD_or]
  cases m.getLsbD i <;> cases m'.getLsbD i <;> rfl

/-- A merge depends on the new bits under the mask only. -/
theorem rmwValue_congr {b : Word} (h : b &&& m = f &&& m) : rmwValue w m b = rmwValue w m f := by
  rw [rmwValue, rmwValue, h]

/-- Bits that the mask leaves out are the old ones. -/
theorem rmwValue_extract_outside {start len : Nat} (hm : m.extractLsb' start len = 0#len) :
    (rmwValue w m f).extractLsb' start len = w.extractLsb' start len := by
  apply BitVec.eq_of_getLsbD_eq
  intro i hi
  have hbit : m.getLsbD (start + i) = false := by
    have h := congrArg (·.getLsbD i) hm
    simpa only [BitVec.getLsbD_extractLsb', hi, decide_true, Bool.true_and, BitVec.getLsbD_zero] using h
  rw [BitVec.getLsbD_extractLsb', BitVec.getLsbD_extractLsb', rmwValue_getLsbD, hbit, if_neg Bool.false_ne_true]

/-- Bits that the mask covers are the new ones. -/
theorem rmwValue_extract_inside {start len : Nat} (hm : m.extractLsb' start len = BitVec.allOnes len) :
    (rmwValue w m f).extractLsb' start len = f.extractLsb' start len := by
  apply BitVec.eq_of_getLsbD_eq
  intro i hi
  have hbit : m.getLsbD (start + i) = true := by
    have h := congrArg (·.getLsbD i) hm
    simpa only [BitVec.getLsbD_extractLsb', hi, decide_true, Bool.true_and, BitVec.getLsbD_allOnes] using h
  rw [BitVec.getLsbD_extractLsb', BitVec.getLsbD_extractLsb', rmwValue_getLsbD, hbit, if_pos rfl]

theorem fillword_padding (c : Color) : (fillword c).extractLsb' 30 2 = 0#2 := by
  revert c
  decide

theorem fillword_slot (c : Color) (hj : j < 10) : (fillword c).extractLsb' (3 * j) 3 = c := by
  have h : ∀ c : Color, ∀ j < 10, (fillword c).extractLsb' (3 * j) 3 = c := by decide
  exact h c j hj

theorem slotMask_getLsbD (hj : j < 10) (hi : i < 32) : (7#32 <<< (3 * j)).getLsbD i = decide (i / 3 = j) := by
  have h : ∀ j < 10, ∀ i < 32, (7#32 <<< (3 * j)).getLsbD i = decide (i / 3 = j) := by decide
  exact h j hj i hi

theorem maskFrom_getLsbD (hj : j < 10) (hi : i < 32) : (maskFrom (3 * j)).getLsbD i = decide (j ≤ i / 3 ∧ i < 30) := by
  have h : ∀ j < 10, ∀ i < 32, (maskFrom (3 * j)).getLsbD i = decide (j ≤ i / 3 ∧ i < 30) := by decide
  exact h j hj i hi

theorem maskUpTo_getLsbD (hj : j < 10) (hi : i < 32) : (maskUpTo (3 * j)).getLsbD i = decide (i / 3 ≤ j ∧ i < 30) := by
  have h : ∀ j < 10, ∀ i < 32, (maskUpTo (3 * j)).getLsbD i = decide (i / 3 ≤ j ∧ i < 30) := by decide
  exact h j hj i hi

theorem slotBits_and_slotMask (c : Color) (hj : j < 10) :
    (c.setWidth 32 <<< (3 * j)) &&& (7#32 <<< (3 * j)) = fillword c &&& (7#32 <<< (3 * j)) := by
  have h : ∀ c : Color, ∀ j < 10,
      (c.setWidth 32 <<< (3 * j)) &&& (7#32 <<< (3 * j)) = fillword c &&& (7#32 <<< (3 * j)) := by decide
  exact h c j hj

end

/-! ### What a list of micro-ops does to a word -/

/-- The bits of its word a micro-op writes. -/
def MicroOp.mask : MicroOp → Word
  | .rmw _ m _ => m
  | .wr _ _ => BitVec.allOnes 32

/-- A word-aligned micro-op that merges f. -/
def MicroOp.Paints (f : Word) : MicroOp → Prop
  | .rmw a m b => a.extractLsb' 0 2 = 0#2 ∧ b &&& m = f &&& m
  | .wr a v => a.extractLsb' 0 2 = 0#2 ∧ v = f

/-- The bits of the word at a that a list of micro-ops writes. -/
def maskAt (a : Word) : List MicroOp → Word
  | [] => 0
  | o :: rest => (if MicroOp.addr o = a then MicroOp.mask o else 0) ||| maskAt a rest

section
variable {a f : Word} {ops : List MicroOp} {i : Nat}

theorem maskAt_getLsbD :
    (maskAt a ops).getLsbD i = true ↔ ∃ o ∈ ops, MicroOp.addr o = a ∧ (MicroOp.mask o).getLsbD i = true := by
  induction ops with
  | nil => simp [maskAt]
  | cons o rest ih =>
    simp only [maskAt, BitVec.getLsbD_or, Bool.or_eq_true, ih, List.mem_cons, exists_eq_or_imp]
    refine or_congr ?_ Iff.rfl
    split <;> simp [*]

@[simp] theorem runOps_nil (m : Memory) : runOps m [] = m := rfl

theorem runOps_cons (m : Memory) (o : MicroOp) (rest : List MicroOp) :
    runOps m (o :: rest) = runOps (MicroOp.apply m o) rest := rfl

theorem MicroOp.apply_wf {m : Memory} (h : m.wf = true) (o : MicroOp) : (MicroOp.apply m o).wf = true := by
  cases o with
  | rmw a k b => exact Memory.writeWord_wf a _ h
  | wr a v => exact Memory.writeWord_wf a v h

theorem runOps_wf {m : Memory} (h : m.wf = true) (ops : List MicroOp) : (runOps m ops).wf = true := by
  induction ops generalizing m with
  | nil => exact h
  | cons o rest ih => exact ih (MicroOp.apply_wf h o)

theorem Memory.readWord_writeWord (m : Memory) {a b : Word} (v : Word) (ha : a.extractLsb' 0 2 = 0#2)
    (hb : b.extractLsb' 0 2 = 0#2) : (m.writeWord b v).readWord a = if b = a then v else m.readWord a := by
  by_cases h : b = a
  · rw [if_pos h, h, Memory.readWord_writeWord_same]
  · rw [if_neg h, Memory.readWord_writeWord_other m v hb ha (Ne.symm h)]

/-- One micro-op merges f under its mask in its own word and leaves the others alone (R231). -/
theorem MicroOp.readWord_apply (m : Memory) {o : MicroOp} (ha : a.extractLsb' 0 2 = 0#2) (ho : MicroOp.Paints f o) :
    (MicroOp.apply m o).readWord a = rmwValue (m.readWord a) (if MicroOp.addr o = a then MicroOp.mask o else 0) f := by
  cases o with
  | rmw b k v =>
    obtain ⟨hb, hv⟩ := ho
    rw [MicroOp.apply, Memory.readWord_writeWord m _ ha hb, MicroOp.addr, MicroOp.mask]
    split
    · next e => rw [e, rmwValue_congr hv]
    · rw [rmwValue_zero]
  | wr b v =>
    obtain ⟨hb, hv⟩ := ho
    rw [MicroOp.apply, Memory.readWord_writeWord m _ ha hb, MicroOp.addr, MicroOp.mask]
    split
    · rw [rmwValue_allOnes, hv]
    · rw [rmwValue_zero]

/-- What a list of micro-ops that merge f does to a word is one merge of f. -/
theorem readWord_runOps (m : Memory) (ha : a.extractLsb' 0 2 = 0#2) (h : ∀ o ∈ ops, MicroOp.Paints f o) :
    (runOps m ops).readWord a = rmwValue (m.readWord a) (maskAt a ops) f := by
  induction ops generalizing m with
  | nil => exact (rmwValue_zero _ _).symm
  | cons o rest ih =>
    rw [runOps_cons, ih _ fun o ho => h o (.tail _ ho), MicroOp.readWord_apply m ha (h o (.head _)), rmwValue_rmwValue, maskAt]

end

/-! ### The draw commands paint -/

section
variable {base : Word} (hbase : base.extractLsb' 0 2 = 0#2) (c : Color)
include hbase

theorem paints_pixelRmw (k x : Nat) : MicroOp.Paints (fillword c) (pixelRmw base c k (x % 10)) :=
  ⟨aligned_fbaddr hbase k, slotBits_and_slotMask c (Nat.mod_lt _ (by decide))⟩

theorem paints_rmw_fillword (k : Nat) (m : Word) : MicroOp.Paints (fillword c) (.rmw (fbaddr base k) m (fillword c)) :=
  ⟨aligned_fbaddr hbase k, rfl⟩

theorem paints_wr_fillword (k : Nat) : MicroOp.Paints (fillword c) (.wr (fbaddr base k) (fillword c)) :=
  ⟨aligned_fbaddr hbase k, rfl⟩

end

/-- Settles O35: FILL writes every bit of every word. -/
theorem fillReadBack : Obligations.FillReadBack := by
  unfold Obligations.FillReadBack
  intro m base c ops hbase hops
  rw [buildFill_eq_map, Option.some_inj] at hops
  have hwords : ∀ k < 30720, (runOps m ops).readWord (fbaddr base k) = fillword c := by
    intro k hk
    have hpaints : ∀ o ∈ ops, MicroOp.Paints (fillword c) o := by
      intro o ho
      rw [← hops] at ho
      obtain ⟨l, -, rfl⟩ := List.mem_map.mp ho
      exact paints_wr_fillword hbase c l
    have hmask : maskAt (fbaddr base k) ops = BitVec.allOnes 32 := by
      apply BitVec.eq_of_getLsbD_eq
      intro i hi
      have hop : MicroOp.wr (fbaddr base k) (fillword c) ∈ ops :=
        hops ▸ List.mem_map.mpr ⟨k, List.mem_range.mpr hk, rfl⟩
      rw [allOnes_getLsbD hi]
      exact maskAt_getLsbD.mpr ⟨_, hop, rfl, allOnes_getLsbD hi⟩
    rw [readWord_runOps m (aligned_fbaddr hbase k) hpaints, hmask, rmwValue_allOnes]
  refine ⟨fun x y hx hy => ?pixels, hwords⟩
  case pixels =>
    rw [pixelAt, wordIndex_eq hx hy, hwords _ (gridWord_lt x y), bitOffset_eq, fillword_slot c (Nat.mod_lt _ (by decide))]

/-! ### Lines as loops of pixels -/

section
variable (base : Word) (c : Color)

/-- A loop of PIXELs is the list of their RMWs. -/
theorem pixelLoop_eq_map {n : Nat} (px py : Nat → Nat) (hx : ∀ d < n, px d < 640) (hy : ∀ d < n, py d < 480) :
    ((List.range n).flatMap fun d => (buildPixel (px d : Nat) (py d : Nat) c base).getD []) =
      (List.range n).map fun d => pixelRmw base c (gridWord (px d) (py d)) (px d % 10) := by
  rw [List.map_eq_flatMap]
  refine List.flatMap_congr fun d hd => ?_
  have hdn := List.mem_range.mp hd
  rw [buildPixel_of_inRange base c (hx d hdn) (hy d hdn)]
  rfl

end

/-- Settles O37: VLINE builds the very list of the loop. -/
theorem vlineEqualsPixelLoop : Obligations.VlineEqualsPixelLoop := by
  unfold Obligations.VlineEqualsPixelLoop
  intro m base x y1 y2 c ops hx hy1 hy2 hops
  rw [buildVline_of_inRange base c hx hy1 hy2, Option.some_inj] at hops
  rw [pixelLoop_eq_map base c (fun _ => x) (fun d => min y1 y2 + d) (fun _ _ => hx) (fun d hd => by omega), hops]

/-! ### HLINE -/

/-- Pixels lo to hi of row y hold bit i of the word at a. -/
def RowPaints (base : Word) (lo hi y : Nat) (a : Word) (i : Nat) : Prop :=
  ∃ x, lo ≤ x ∧ x ≤ hi ∧ a = fbaddr base (gridWord x y) ∧ i / 3 = x % 10

/-- The word at a is strictly between the words of pixels lo and hi of row y. -/
def RowInterior (base : Word) (lo hi y : Nat) (a : Word) : Prop :=
  ∃ j, lo / 10 < j ∧ j < hi / 10 ∧ a = fbaddr base (gridWord (10 * j) y)

section
variable {base a : Word} {c : Color} {lo hi y i : Nat}

theorem mask_pixelRmw_getLsbD (k x : Nat) (hi : i < 32) :
    (MicroOp.mask (pixelRmw base c k (x % 10))).getLsbD i = true ↔ i / 3 = x % 10 := by
  rw [pixelRmw, MicroOp.mask, slotMask_getLsbD (Nat.mod_lt _ (by decide)) hi, decide_eq_true_eq]

/-- The loop of PIXELs paints the pixels of the row. -/
theorem maskAt_pixelRow (hle : lo ≤ hi) (hi32 : i < 32) :
    (maskAt a ((List.range (hi + 1 - lo)).map fun d => pixelRmw base c (gridWord (lo + d) y) ((lo + d) % 10))).getLsbD i = true ↔
      RowPaints base lo hi y a i := by
  simp only [maskAt_getLsbD, List.mem_map, List.mem_range, exists_exists_and_eq_and, mask_pixelRmw_getLsbD _ _ hi32]
  constructor
  · rintro ⟨d, hd, rfl, hslot⟩
    exact ⟨lo + d, by omega, by omega, rfl, hslot⟩
  · rintro ⟨x, hlo, hhi, rfl, hslot⟩
    obtain ⟨d, rfl⟩ := Nat.exists_eq_add_of_le hlo
    exact ⟨d, by omega, rfl, hslot⟩

/-- Within one word HLINE builds the very list of the loop (R237). -/
theorem hlineWordOps_eq_pixelRow (hhi : hi < 640) (hword : lo / 10 = hi / 10) :
    hlineWordOps base c lo hi y =
      (List.range (hi + 1 - lo)).map fun d => pixelRmw base c (gridWord (lo + d) y) ((lo + d) % 10) := by
  refine List.map_congr_left fun d hd => ?_
  have hd' := List.mem_range.mp hd
  rw [(gridWord_eq_iff (by omega) (by omega)).mpr (show lo / 10 = (lo + d) / 10 by omega)]

/-- Across words HLINE paints the pixels of the row, and the padding of the interior words (R238). -/
theorem maskAt_hlineAcrossOps (hhi : hi < 640) (hwords : lo / 10 < hi / 10) (hi32 : i < 32) :
    (maskAt a (hlineAcrossOps base c lo hi y)).getLsbD i = true ↔
      RowPaints base lo hi y a i ∨ (RowInterior base lo hi y a ∧ 30 ≤ i) := by
  have hslot : ∀ x, x % 10 < 10 := fun x => Nat.mod_lt x (by decide)
  have hinterior : ∀ j < hi / 10 - lo / 10 - 1, (64 * y + lo / 10 + j) % 30720 = gridWord (10 * (lo / 10 + 1 + j)) y := by
    intro j hj
    unfold gridWord
    omega
  have hops : (maskAt a (hlineAcrossOps base c lo hi y)).getLsbD i = true ↔
      (fbaddr base (gridWord lo y) = a ∧ lo % 10 ≤ i / 3 ∧ i < 30) ∨
      (∃ j < hi / 10 - lo / 10 - 1, fbaddr base ((64 * y + lo / 10 + j) % 30720) = a) ∨
      (fbaddr base (gridWord hi y) = a ∧ i / 3 ≤ hi % 10 ∧ i < 30) := by
    rw [maskAt_getLsbD]
    simp only [hlineAcrossOps, hlineInteriorOps, List.cons_append, List.mem_cons, List.mem_append, List.mem_map,
      List.mem_range, List.not_mem_nil, or_false, or_and_right, exists_or, exists_eq_left,
      exists_exists_and_eq_and, MicroOp.addr, MicroOp.mask, maskFrom_getLsbD (hslot lo) hi32,
      maskUpTo_getLsbD (hslot hi) hi32, decide_eq_true_eq, BitVec.getLsbD_allOnes, hi32, and_true]
  rw [hops]
  constructor
  · rintro (⟨rfl, hfrom, hi30⟩ | ⟨j, hj, rfl⟩ | ⟨rfl, hto, hi30⟩)
    · refine .inl ⟨10 * (lo / 10) + i / 3, by omega, by omega, ?_, by omega⟩
      rw [(gridWord_eq_iff (by omega) (by omega)).mpr (show (10 * (lo / 10) + i / 3) / 10 = lo / 10 by omega)]
    · rw [hinterior j hj]
      by_cases hi30 : i < 30
      · refine .inl ⟨10 * (lo / 10 + 1 + j) + i / 3, by omega, by omega, ?_, by omega⟩
        rw [(gridWord_eq_iff (by omega) (by omega)).mpr
          (show (10 * (lo / 10 + 1 + j) + i / 3) / 10 = 10 * (lo / 10 + 1 + j) / 10 by omega)]
      · exact .inr ⟨⟨lo / 10 + 1 + j, by omega, by omega, rfl⟩, by omega⟩
    · refine .inl ⟨10 * (hi / 10) + i / 3, by omega, by omega, ?_, by omega⟩
      rw [(gridWord_eq_iff (by omega) (by omega)).mpr (show (10 * (hi / 10) + i / 3) / 10 = hi / 10 by omega)]
  · rintro (⟨x, hlo, hhi', rfl, hbit⟩ | ⟨⟨j, hjlo, hjhi, rfl⟩, -⟩)
    · have hx : x / 10 = lo / 10 ∨ (lo / 10 < x / 10 ∧ x / 10 < hi / 10) ∨ x / 10 = hi / 10 := by omega
      rcases hx with hfirst | ⟨hgt, hlt⟩ | hlast
      · refine .inl ⟨?_, by omega, by omega⟩
        rw [(gridWord_eq_iff (by omega) (by omega)).mpr hfirst]
      · refine .inr (.inl ⟨x / 10 - lo / 10 - 1, by omega, ?_⟩)
        rw [hinterior _ (by omega), (gridWord_eq_iff (by omega) (by omega)).mpr
          (show 10 * (lo / 10 + 1 + (x / 10 - lo / 10 - 1)) / 10 = x / 10 by omega)]
      · refine .inr (.inr ⟨?_, by omega, by omega⟩)
        rw [(gridWord_eq_iff (by omega) (by omega)).mpr hlast]
    · refine .inr (.inl ⟨j - lo / 10 - 1, by omega, ?_⟩)
      rw [hinterior _ (by omega), show lo / 10 + 1 + (j - lo / 10 - 1) = j by omega]

end

end Sys2Proof.Machine
end

section
/-! PROOFS. HLINE against its loop of PIXELs, one pixel read back, and padding (spec/20_memory.md R84;
spec/43_framebuffer_commands.md R240, R241). -/

namespace Sys2Proof.Machine

/-! ### Memories with the same words -/

theorem Memory.get_of_ge {m : Memory} {a : Nat} (hm : m.wf = true) (ha : 2 ^ 32 ≤ a) : m.get a = unlistedByte := by
  induction m with
  | nil => rfl
  | cons e rest ih =>
    obtain ⟨k, b⟩ := e
    obtain ⟨hk, -, -, hrest⟩ := Memory.wf_cons.mp hm
    rw [Memory.get, if_neg (by omega), ih hrest]

/-- Memories in canonical form with the same aligned words are equal. -/
theorem Memory.ext_of_words {m n : Memory} (hm : m.wf = true) (hn : n.wf = true)
    (h : ∀ a : Word, a.extractLsb' 0 2 = 0#2 → m.readWord a = n.readWord a) : m = n := by
  refine Memory.ext_of_wf hm hn fun a => ?_
  rcases Nat.lt_or_ge a (2 ^ 32) with ha | ha
  · have hlane : a % 4 < 4 := Nat.mod_lt _ (by decide)
    have hword : (BitVec.ofNat 32 (a - a % 4) : Word).extractLsb' 0 2 = 0#2 := by
      rw [aligned_iff, BitVec.toNat_ofNat]
      omega
    have haddr : (BitVec.ofNat 32 (a - a % 4) + BitVec.ofNat 32 (a % 4)).toNat = a := by
      rw [BitVec.toNat_add, BitVec.toNat_ofNat, BitVec.toNat_ofNat]
      omega
    have hread := congrArg (·.extractLsb' (8 * (a % 4)) 8) (h _ hword)
    simpa only [Memory.readWord_lane _ _ hlane, haddr] using hread
  · rw [Memory.get_of_ge hm ha, Memory.get_of_ge hn ha]

/-! ### HLINE and the loop of PIXELs -/

/-- The micro-ops of PIXEL x, y, c for x from lo to hi. -/
def pixelRow (base : Word) (c : Color) (lo hi y : Nat) : List MicroOp :=
  (List.range (hi + 1 - lo)).map fun d => pixelRmw base c (gridWord (lo + d) y) ((lo + d) % 10)

section
variable {base a : Word} (hbase : base.extractLsb' 0 2 = 0#2) (c : Color) (m : Memory) {lo hi y i : Nat}
include hbase

theorem paints_pixelRow : ∀ o ∈ pixelRow base c lo hi y, MicroOp.Paints (fillword c) o := by
  intro o ho
  obtain ⟨d, -, rfl⟩ := List.mem_map.mp ho
  exact paints_pixelRmw hbase c _ _

theorem paints_hlineAcrossOps : ∀ o ∈ hlineAcrossOps base c lo hi y, MicroOp.Paints (fillword c) o := by
  intro o ho
  rw [hlineAcrossOps, List.mem_append, List.mem_cons, List.mem_singleton] at ho
  rcases ho with (rfl | ho) | rfl
  · exact paints_rmw_fillword hbase c _ _
  · obtain ⟨j, -, rfl⟩ := List.mem_map.mp ho
    exact paints_wr_fillword hbase c _
  · exact paints_rmw_fillword hbase c _ _

/-- The loop of PIXELs leaves padding alone. -/
theorem pixelRow_padding (hle : lo ≤ hi) (ha : a.extractLsb' 0 2 = 0#2) :
    ((runOps m (pixelRow base c lo hi y)).readWord a).extractLsb' 30 2 = (m.readWord a).extractLsb' 30 2 := by
  rw [readWord_runOps m ha (paints_pixelRow hbase c)]
  refine rmwValue_extract_outside (BitVec.eq_of_getLsbD_eq fun i hi2 => ?_)
  rw [BitVec.getLsbD_extractLsb', BitVec.getLsbD_zero, Bool.and_eq_false_iff]
  refine .inr (Bool.eq_false_iff.mpr fun hbit => ?_)
  obtain ⟨x, -, -, -, hslot⟩ := (maskAt_pixelRow hle (show 30 + i < 32 by omega)).mp hbit
  omega

/-- HLINE across words is the loop of PIXELs but for the padding of the interior words. -/
theorem hlineAcross_bit (hle : lo ≤ hi) (hhi : hi < 640) (hwords : lo / 10 < hi / 10)
    (ha : a.extractLsb' 0 2 = 0#2) (hi32 : i < 32) (h : RowInterior base lo hi y a → i < 30) :
    ((runOps m (hlineAcrossOps base c lo hi y)).readWord a).getLsbD i =
      ((runOps m (pixelRow base c lo hi y)).readWord a).getLsbD i := by
  have hmask : (maskAt a (hlineAcrossOps base c lo hi y)).getLsbD i = (maskAt a (pixelRow base c lo hi y)).getLsbD i := by
    rw [Bool.eq_iff_iff, maskAt_hlineAcrossOps hhi hwords hi32, pixelRow, maskAt_pixelRow hle hi32]
    exact or_iff_left fun ⟨hint, h30⟩ => Nat.not_lt.mpr h30 (h hint)
  rw [readWord_runOps m ha (paints_hlineAcrossOps hbase c), readWord_runOps m ha (paints_pixelRow hbase c),
    rmwValue_getLsbD, rmwValue_getLsbD, hmask]

/-- HLINE across words clears the padding of the interior words (R238). -/
theorem hlineAcross_interior_padding (hhi : hi < 640) (hwords : lo / 10 < hi / 10)
    (ha : a.extractLsb' 0 2 = 0#2) (hint : RowInterior base lo hi y a) :
    ((runOps m (hlineAcrossOps base c lo hi y)).readWord a).extractLsb' 30 2 = 0#2 := by
  rw [readWord_runOps m ha (paints_hlineAcrossOps hbase c), ← fillword_padding c]
  refine rmwValue_extract_inside (BitVec.eq_of_getLsbD_eq fun i hi2 => ?_)
  rw [BitVec.getLsbD_extractLsb', BitVec.getLsbD_allOnes,
    (maskAt_hlineAcrossOps hhi hwords (show 30 + i < 32 by omega)).mpr (.inr ⟨hint, Nat.le_add_right _ _⟩), Bool.and_true]

/-- A word of HLINE across words is the loop's word, if it is no interior word or both have the same padding. -/
theorem hlineAcross_readWord (hle : lo ≤ hi) (hhi : hi < 640) (hwords : lo / 10 < hi / 10)
    (ha : a.extractLsb' 0 2 = 0#2)
    (hpad : RowInterior base lo hi y a → (m.readWord a).extractLsb' 30 2 = 0#2) :
    (runOps m (hlineAcrossOps base c lo hi y)).readWord a = (runOps m (pixelRow base c lo hi y)).readWord a := by
  apply BitVec.eq_of_getLsbD_eq
  intro i hi32
  by_cases h : RowInterior base lo hi y a → i < 30
  · exact hlineAcross_bit hbase c m hle hhi hwords ha hi32 h
  · obtain ⟨hint, h30⟩ := Classical.not_imp.mp h
    have hsame : ((runOps m (hlineAcrossOps base c lo hi y)).readWord a).extractLsb' 30 2 =
        ((runOps m (pixelRow base c lo hi y)).readWord a).extractLsb' 30 2 := by
      rw [hlineAcross_interior_padding hbase c m hhi hwords ha hint, pixelRow_padding hbase c m hle ha, hpad hint]
    have hbit := congrArg (·.getLsbD (i - 30)) hsame
    simpa only [BitVec.getLsbD_extractLsb', show i - 30 < 2 by omega, decide_true, Bool.true_and,
      show 30 + (i - 30) = i by omega] using hbit

end

/-- Settles O36: within one word HLINE builds the list of the loop; across words the two paint the same bits but for the
interior padding. -/
theorem hlineEqualsPixelLoop : Obligations.HlineEqualsPixelLoop := by
  unfold Obligations.HlineEqualsPixelLoop
  intro m base x1 x2 y c ops hm hbase hx1 hx2 hy hops interior byHline byPixels
  have hle : min x1 x2 ≤ max x1 x2 := min_le_max
  have hhi : max x1 x2 < 640 := max_lt hx1 hx2
  have hrow : byPixels = runOps m (pixelRow base c (min x1 x2) (max x1 x2) y) :=
    congrArg (runOps m) (pixelLoop_eq_map base c (fun d => min x1 x2 + d) (fun _ => y) (fun d hd => by omega) fun _ _ => hy)
  rcases buildHline_of_inRange base c hx1 hx2 hy with ⟨hword, e⟩ | ⟨hwords, e⟩
  case inl =>
    have hnone : ∀ k, ¬ interior k := fun k ⟨j, hlo, hhi, _⟩ => by omega
    have hsame : byHline = byPixels := by
      rw [hrow, pixelRow, ← hlineWordOps_eq_pixelRow hhi hword]
      exact congrArg (runOps m) (Option.some.inj (hops.symm.trans e))
    exact ⟨fun _ => hsame, fun k hk => ⟨by rw [hsame], fun _ => by rw [hsame], fun h => absurd h (hnone k)⟩⟩
  case inr =>
    have hline : byHline = runOps m (hlineAcrossOps base c (min x1 x2) (max x1 x2) y) :=
      congrArg (runOps m) (Option.some.inj (hops.symm.trans e))
    have hinterior : ∀ k < 30720, interior k ↔ RowInterior base (min x1 x2) (max x1 x2) y (fbaddr base k) := fun k hk =>
      exists_congr fun j => and_congr_right fun _ => and_congr_right fun _ => (fbaddr_inj hk (gridWord_lt _ _)).symm
    rw [hline, hrow]
    refine ⟨fun hpad => ?equal, fun k hk => ⟨?bits, fun hk' => ?outside, fun hk' => ⟨?cleared, ?kept⟩⟩⟩
    case equal =>
      refine Memory.ext_of_words (runOps_wf hm _) (runOps_wf hm _) fun a ha =>
        hlineAcross_readWord hbase c m hle hhi hwords ha ?_
      rintro ⟨j, hjlo, hjhi, rfl⟩
      exact hpad _ ⟨j, hjlo, hjhi, rfl⟩
    case bits =>
      apply BitVec.eq_of_getLsbD_eq
      intro i hi30
      rw [BitVec.getLsbD_extractLsb', BitVec.getLsbD_extractLsb', Nat.zero_add,
        hlineAcross_bit hbase c m hle hhi hwords (aligned_fbaddr hbase k) (by omega) fun _ => hi30]
    case outside =>
      exact hlineAcross_readWord hbase c m hle hhi hwords (aligned_fbaddr hbase k) fun h =>
        absurd ((hinterior k hk).mpr h) hk'
    case cleared =>
      exact hlineAcross_interior_padding hbase c m hhi hwords (aligned_fbaddr hbase k) ((hinterior k hk).mp hk')
    case kept => exact pixelRow_padding hbase c m hle (aligned_fbaddr hbase k)

/-! ### One pixel -/

section
variable {base : Word} (hbase : base.extractLsb' 0 2 = 0#2) (c : Color) (m : Memory) {x y x' y' : Nat}

theorem slotMask_extract_same {j : Nat} (hj : j < 10) : (7#32 <<< (3 * j)).extractLsb' (3 * j) 3 = BitVec.allOnes 3 := by
  have h : ∀ j < 10, (7#32 <<< (3 * j)).extractLsb' (3 * j) 3 = BitVec.allOnes 3 := by decide
  exact h j hj

theorem slotMask_extract_other {j l : Nat} (hj : j < 10) (hl : l < 10) (hne : j ≠ l) :
    (7#32 <<< (3 * j)).extractLsb' (3 * l) 3 = 0#3 := by
  have h : ∀ j < 10, ∀ l < 10, j ≠ l → (7#32 <<< (3 * j)).extractLsb' (3 * l) 3 = 0#3 := by decide
  exact h j hj l hl hne

theorem pixelAt_eq (hx : x < 640) (hy : y < 480) :
    pixelAt m base x y = (m.readWord (fbaddr base (gridWord x y))).extractLsb' (3 * (x % 10)) 3 := by
  rw [pixelAt, wordIndex_eq hx hy, bitOffset_eq]

include hbase

/-- PIXEL's RMW changes slot x mod 10 of its word. -/
theorem readWord_pixelRmw {k : Nat} (hk : k < 30720) :
    (runOps m [pixelRmw base c (gridWord x y) (x % 10)]).readWord (fbaddr base k) =
      rmwValue (m.readWord (fbaddr base k)) (if gridWord x y = k then 7#32 <<< (3 * (x % 10)) else 0) (fillword c) := by
  rw [runOps_cons, runOps_nil, MicroOp.readWord_apply m (aligned_fbaddr hbase k) (paints_pixelRmw hbase c _ _)]
  simp only [pixelRmw, MicroOp.addr, MicroOp.mask, fbaddr_inj (gridWord_lt x y) hk]

/-- PIXEL's RMW sets its own pixel (R240). -/
theorem pixelAt_pixelRmw_same (hx : x < 640) (hy : y < 480) :
    pixelAt (runOps m [pixelRmw base c (gridWord x y) (x % 10)]) base x y = c := by
  have hslot : x % 10 < 10 := Nat.mod_lt _ (by decide)
  rw [pixelAt_eq _ hx hy, readWord_pixelRmw hbase c m (gridWord_lt x y), if_pos rfl,
    rmwValue_extract_inside (slotMask_extract_same hslot), fillword_slot c hslot]

/-- PIXEL's RMW leaves the other pixels alone (R240). -/
theorem pixelAt_pixelRmw_other (hx : x < 640) (hy : y < 480) (hx' : x' < 640) (hy' : y' < 480)
    (hne : ¬ (x' = x ∧ y' = y)) :
    pixelAt (runOps m [pixelRmw base c (gridWord x y) (x % 10)]) base x' y' = pixelAt m base x' y' := by
  rw [pixelAt_eq _ hx' hy', pixelAt_eq _ hx' hy', readWord_pixelRmw hbase c m (gridWord_lt x' y')]
  by_cases hword : gridWord x y = gridWord x' y'
  · have hslot : x % 10 ≠ x' % 10 := fun hs => hne (by
      have h := (eq_slotPixel_iff (gridWord_lt x' y') (Nat.mod_lt x' (by decide)) hx hy).mp ⟨hword, hs⟩
      have h' := (eq_slotPixel_iff (gridWord_lt x' y') (Nat.mod_lt x' (by decide)) hx' hy').mp ⟨rfl, rfl⟩
      exact Prod.mk.inj (h'.trans h.symm))
    rw [if_pos hword, rmwValue_extract_outside
      (slotMask_extract_other (Nat.mod_lt _ (by decide)) (Nat.mod_lt _ (by decide)) hslot)]
  · rw [if_neg hword, rmwValue_zero]

/-- PIXEL's RMW leaves padding alone (R240). -/
theorem padding_pixelRmw {k : Nat} (hk : k < 30720) :
    ((runOps m [pixelRmw base c (gridWord x y) (x % 10)]).readWord (fbaddr base k)).extractLsb' 30 2 =
      (m.readWord (fbaddr base k)).extractLsb' 30 2 := by
  rw [readWord_pixelRmw hbase c m hk]
  split
  · exact rmwValue_extract_outside (slotMask_padding (Nat.mod_lt _ (by decide)))
  · rw [rmwValue_zero]

end

/-! ### Padding -/

section
variable {s : State} {a : Word}

/-- ENG writes fill words and merges under masks without padding, so it keeps padding 0 (R84). -/
theorem State.PaddingZeroAt.engStep (hinv : s.EngInv) (ha : a.extractLsb' 0 2 = 0#2) (h : s.PaddingZeroAt a) :
    s.engStep.PaddingZeroAt a := by
  obtain ⟨hmem, htmp⟩ := h
  rcases s.engStep_cases with e | ⟨b, v, rest, ho, -, e⟩ | ⟨b, m, v, rest, ho, -, -, e⟩ | ⟨b, m, v, rest, ho, -, hp, e⟩ <;>
    rw [e]
  case inl => exact ⟨hmem, htmp⟩
  case inr.inl =>
    obtain ⟨hb, c, rfl⟩ : MicroOp.Built (.wr b v) := hinv.opsBuilt _ (by rw [ho]; exact .head _)
    refine ⟨?_, fun _ _ _ _ hp => ?_⟩
    · rw [Memory.readWord_writeWord _ _ ha hb]
      split
      · exact fillword_padding c
      · exact hmem
    · obtain ⟨_, _, _, _, hop⟩ := hinv.phase2Head hp
      simp [ho] at hop
  case inr.inr.inl =>
    refine ⟨hmem, fun m' b' rest' hop _ => ?_⟩
    obtain ⟨hab, -, -⟩ := MicroOp.rmw.inj (List.cons.inj (ho.symm.trans hop)).1
    exact hab ▸ hmem
  case inr.inr.inr =>
    obtain ⟨hb, hm⟩ : MicroOp.Built (.rmw b m v) := hinv.opsBuilt _ (by rw [ho]; exact .head _)
    refine ⟨?_, fun _ _ _ _ hp => by cases hp⟩
    rw [Memory.readWord_writeWord _ _ ha hb]
    split
    · next hab => exact (rmwValue_extract_outside hm).trans (htmp m v rest (hab ▸ ho) hp)
    · exact hmem

theorem State.PaddingZeroAt.congr {t : State} (h : s.PaddingZeroAt a) (hmem : t.mem = s.mem) (heng : t.eng = s.eng) :
    t.PaddingZeroAt a := by
  rw [State.PaddingZeroAt, hmem, heng]
  exact h

end

/-- Settles O39. -/
theorem blockKeepsPaddingZero : Obligations.BlockKeepsPaddingZero := by
  unfold Obligations.BlockKeepsPaddingZero
  intro s t a u ha hinv hpad hu h
  cases (State.takeTurn_of_ofBlock hu s s.turns s.freeTurns).symm.trans h
  by_cases he : u = .eng
  · subst he
    exact (hpad.engStep hinv ha).congr rfl rfl
  · obtain ⟨-, -, -, -, -, -, -, hframe⟩ := s.blockTurn_frame hu
    exact hpad.congr (hframe he).1 (hframe he).2

end Sys2Proof.Machine
end

section
/-! PROOFS. The engine at work among the other agents (spec/43_framebuffer_commands.md R232, R240, R244; spec/20_memory.md R98;
spec/92_eei_decisions.md D32). Between the halves of an RMW the engine still owes the whole of it, so what the pending list
will make of memory does not change while it runs: only the number of accesses it owes goes down. -/

namespace Sys2Proof.Machine

/-! ### Block agents in turn -/

section
variable {s : State}

theorem State.blockTurn_retimed (s : State) (u : Turn) (ts : List Turn) (k : Nat) :
    { s with turns := ts, freeTurns := k }.blockTurn u = { s.blockTurn u with turns := ts, freeTurns := k } := by
  cases u with
  | host | tick | reset => rfl
  | ch0 => exact s.ch0Step_retimed ts k
  | ch1 => exact s.ch1Step_retimed ts k
  | eng => exact s.engStep_retimed ts k

theorem State.blockTurns_retimed (us : List Turn) (s : State) (ts : List Turn) (k : Nat) :
    us.foldl State.blockTurn { s with turns := ts, freeTurns := k } =
      { us.foldl State.blockTurn s with turns := ts, freeTurns := k } := by
  induction us generalizing s with
  | nil => rfl
  | cons u us ih => rw [List.foldl_cons, State.blockTurn_retimed, ih, List.foldl_cons]

/-- A run over the turns of block agents takes them one after the other. -/
theorem run_blockTurns {ts : List Turn} (hts : ∀ u ∈ ts, Turn.ofBlock u = true) (h : s.turns = ts) :
    Host.Core.run core ts.length s = .next { ts.foldl State.blockTurn s with turns := [], freeTurns := s.freeTurns } := by
  induction ts generalizing s with
  | nil =>
    have hsame : s = { s with turns := [], freeTurns := s.freeTurns } := by rw [← h]
    exact congrArg Host.Outcome.next hsame
  | cons u rest ih =>
    have hstep : step s = .next { s.blockTurn u with turns := rest, freeTurns := s.freeTurns } :=
      (step_of_turns h).trans (State.takeTurn_of_ofBlock (hts u (.head _)) s rest s.freeTurns)
    rw [List.length_cons, run_succ_of_step _ hstep, ih (fun v hv => hts v (.tail _ hv)) rfl, State.blockTurns_retimed,
      List.foldl_cons]

end

/-! ### What the engine owes -/

/-- The accesses the engine has still to make: the RMW whose first half is done owes one. -/
def State.engDue (s : State) : Nat := accessCount s.eng.ops - (if s.eng.phase2 then 1 else 0)

/-- The engine is at work on admitted micro-ops that will leave memory as `m`, and the word it holds is the one in memory. -/
structure State.EngRun (m : Memory) (s : State) : Prop where
  due : runOps s.mem s.eng.ops = m
  admitted : ∀ o ∈ s.eng.ops, ramWord s.platform (MicroOp.addr o) = true
  held : s.eng.phase2 = true → ∃ a k b rest, s.eng.ops = .rmw a k b :: rest ∧ s.eng.tmp = s.mem.readWord a

section
variable {s t : State} {m : Memory}

theorem State.EngRun.congr (h : s.EngRun m) (hmem : t.mem = s.mem) (heng : t.eng = s.eng) (hpl : t.platform = s.platform) :
    t.EngRun m :=
  ⟨by rw [hmem, heng]; exact h.due, by rw [heng, hpl]; exact h.admitted, by rw [hmem, heng]; exact h.held⟩

/-- An engine that owes nothing is idle, and memory is what its list was to make of it. -/
theorem State.EngRun.done (h : s.EngRun m) (h0 : s.engDue = 0) : s.mem = m ∧ s.eng.ops = [] ∧ s.eng.phase2 = false := by
  have hphase : s.eng.phase2 = false := by
    by_contra hp
    obtain ⟨a, k, b, rest, ho, -⟩ := h.held (Bool.of_not_eq_false hp)
    rw [State.engDue, ho, accessCount] at h0
    split at h0 <;> omega
  have hops : s.eng.ops = [] := by
    rw [State.engDue, hphase, if_neg Bool.false_ne_true] at h0
    rcases hop : s.eng.ops with _ | ⟨⟨a, k, b⟩ | ⟨a, v⟩, rest⟩ <;> rw [hop] at h0
    · rw [accessCount] at h0; omega
    · rw [accessCount] at h0; omega
  have hdue := h.due
  rw [hops, runOps_nil] at hdue
  exact ⟨hdue, hops, hphase⟩

/-- An ENG turn makes one of the accesses it owes. -/
theorem State.EngRun.engStep (h : s.EngRun m) : s.engStep.EngRun m ∧ s.engStep.engDue = s.engDue - 1 := by
  obtain ⟨hdue, hadm, hheld⟩ := h
  rcases hop : s.eng.ops with _ | ⟨o, rest⟩
  · rw [State.engStep_of_idle hop]
    refine ⟨⟨hdue, hadm, hheld⟩, ?_⟩
    rw [State.engDue, hop, accessCount]
    omega
  · have hhead : ramWord s.platform (MicroOp.addr o) = true := hadm o (by rw [hop]; exact .head _)
    have hrest : ∀ o ∈ rest, ramWord s.platform (MicroOp.addr o) = true := fun o ho => hadm o (by rw [hop]; exact .tail _ ho)
    cases o with
    | wr a v =>
      have hp : s.eng.phase2 = false := by
        by_contra hp
        obtain ⟨_, _, _, _, ho, -⟩ := hheld (Bool.of_not_eq_false hp)
        simp [hop] at ho
      rw [State.engStep_wr hop hhead]
      refine ⟨⟨by rw [← hdue, hop]; rfl, hrest, fun h => by simp [hp] at h⟩, ?_⟩
      simp only [State.engDue, hop, hp, accessCount]
      rw [if_neg Bool.false_ne_true]
      omega
    | rmw a k b =>
      cases hp : s.eng.phase2 with
      | false =>
        rw [State.engStep_read hop hhead hp]
        refine ⟨⟨hdue, hadm, fun _ => ⟨a, k, b, rest, hop, rfl⟩⟩, ?_⟩
        simp only [State.engDue, hop, hp, accessCount, if_true]
        rw [if_neg Bool.false_ne_true]
        omega
      | true =>
        obtain ⟨a', k', b', rest', ho, htmp⟩ := hheld hp
        cases hop.symm.trans ho
        rw [State.engStep_writeBack hop hhead hp]
        refine ⟨⟨by rw [← hdue, hop, htmp]; rfl, hrest, fun h => by cases h⟩, ?_⟩
        simp only [State.engDue, hop, hp, accessCount, if_true]
        rw [if_neg Bool.false_ne_true]
        omega

/-- The turns of other agents leave the engine and its work alone. -/
theorem State.EngRun.blockTurn (h : s.EngRun m) {u : Turn} (hu : Turn.ofBlock u = true) (hne : u ≠ .eng) :
    (s.blockTurn u).EngRun m ∧ (s.blockTurn u).engDue = s.engDue := by
  obtain ⟨-, -, -, hpl, -, -, -, hframe⟩ := s.blockTurn_frame hu
  obtain ⟨hmem, heng⟩ := hframe hne
  exact ⟨h.congr hmem heng hpl, by rw [State.engDue, heng, State.engDue]⟩

/-- After any turns of block agents the engine owes as many accesses less as it had turns. -/
theorem State.EngRun.blockTurns {ts : List Turn} (hts : ∀ u ∈ ts, Turn.ofBlock u = true) (h : s.EngRun m) :
    (ts.foldl State.blockTurn s).EngRun m ∧ (ts.foldl State.blockTurn s).engDue = s.engDue - ts.count .eng := by
  induction ts generalizing s with
  | nil => exact ⟨h, rfl⟩
  | cons u rest ih =>
    have hrest : ∀ v ∈ rest, Turn.ofBlock v = true := fun v hv => hts v (.tail _ hv)
    rw [List.foldl_cons]
    by_cases hu : u = .eng
    · subst hu
      obtain ⟨hrun, hdue⟩ := h.engStep
      obtain ⟨hrun', hdue'⟩ := ih hrest hrun
      exact ⟨hrun', by rw [State.blockTurn, hdue', hdue, List.count_cons_self]; omega⟩
    · obtain ⟨hrun, hdue⟩ := h.blockTurn (hts u (.head _)) hu
      obtain ⟨hrun', hdue'⟩ := ih hrest hrun
      exact ⟨hrun', by rw [hdue', hdue, List.count_cons_of_ne hu]⟩

/-- With turns enough the engine does its whole list, whatever the other agents do between (R232). -/
theorem run_engine {ts : List Turn} (ht : s.turns = ts) (hts : ∀ u ∈ ts, Turn.ofBlock u = true) (hp : s.eng.phase2 = false)
    (hadm : ∀ o ∈ s.eng.ops, ramWord s.platform (MicroOp.addr o) = true) (hcount : accessCount s.eng.ops ≤ ts.count .eng) :
    ∃ t, Host.Core.run core ts.length s = .next t ∧ t.mem = runOps s.mem s.eng.ops ∧ t.eng.ops = [] ∧
      t.eng.phase2 = false := by
  have hstart : s.EngRun (runOps s.mem s.eng.ops) := ⟨rfl, hadm, fun h => by simp [hp] at h⟩
  obtain ⟨hrun, hdue⟩ := hstart.blockTurns hts
  have hdue0 : (ts.foldl State.blockTurn s).engDue = 0 := by
    rw [hdue, State.engDue]
    omega
  exact ⟨_, run_blockTurns hts ht, hrun.done hdue0⟩

end

/-! ### Progress under weak fairness -/

/-- What is left of the engine's list, counted so that every access makes it less, wherever the access falls. -/
def State.engLeft (s : State) : Nat := 2 * s.eng.ops.length + (if s.eng.phase2 then 0 else 1)

/-- All the engine's micro-ops are admitted. -/
def State.OpsAdmitted (s : State) : Prop := ∀ o ∈ s.eng.ops, ramWord s.platform (MicroOp.addr o) = true

section
variable {s t : State} {u : Turn}

theorem State.OpsAdmitted.enabled (h : s.OpsAdmitted) (hbusy : s.eng.ops ≠ []) : s.enabled .eng = true := by
  obtain ⟨o, rest, ho⟩ := List.exists_cons_of_ne_nil hbusy
  rw [State.enabled, State.engAdmitted, State.engAddr, ho]
  exact h o (by rw [ho]; exact .head _)

theorem State.OpsAdmitted.engStep (h : s.OpsAdmitted) (hbusy : s.eng.ops ≠ []) :
    s.engStep.OpsAdmitted ∧ s.engStep.engLeft < s.engLeft := by
  obtain ⟨o, rest, ho⟩ := List.exists_cons_of_ne_nil hbusy
  have hhead : ramWord s.platform (MicroOp.addr o) = true := h o (by rw [ho]; exact .head _)
  have hrest : ∀ o ∈ rest, ramWord s.platform (MicroOp.addr o) = true := fun o hr => h o (by rw [ho]; exact .tail _ hr)
  cases o with
  | wr a v =>
    rw [State.engStep_wr ho hhead]
    refine ⟨hrest, ?_⟩
    simp only [State.engLeft, ho, List.length_cons]
    omega
  | rmw a k b =>
    cases hp : s.eng.phase2 with
    | false =>
      rw [State.engStep_read ho hhead hp]
      refine ⟨h, ?_⟩
      simp only [State.engLeft, hp, if_true]
      rw [if_neg Bool.false_ne_true]
      omega
    | true =>
      rw [State.engStep_writeBack ho hhead hp]
      refine ⟨hrest, ?_⟩
      simp only [State.engLeft, ho, hp, List.length_cons, if_true]
      rw [if_neg Bool.false_ne_true]
      omega

/-- A busy engine is left alone by every step but its own and RESET, which ends its list. -/
theorem CanStep.engine_cases (h : CanStep u s t) (hbusy : s.eng.ops ≠ []) :
    t.eng.ops = [] ∨ (u = .eng ∧ t.eng = s.engStep.eng ∧ t.platform = s.platform) ∨
    (u ≠ .eng ∧ t.eng = s.eng ∧ t.platform = s.platform) := by
  rcases h.effects with ⟨rfl, he⟩ | ⟨ts, k, hu, rfl⟩ | ⟨ts, k, -, rfl⟩
  · refine .inr (.inr ⟨by decide, ?_⟩)
    cases he with
    | side | store | arm | disarm => subst t; exact ⟨rfl, rfl⟩
    | load _ _ _ _ _ _ _ idle => exact absurd idle hbusy
  · obtain ⟨-, -, -, hpl, -, -, -, hframe⟩ := s.blockTurn_frame hu
    by_cases hue : u = .eng
    · subst hue
      exact .inr (.inl ⟨rfl, rfl, hpl⟩)
    · exact .inr (.inr ⟨hue, (hframe hue).2, hpl⟩)
  · exact .inl rfl

theorem State.engLeft_congr (h : t.eng = s.eng) : t.engLeft = s.engLeft := by
  rw [State.engLeft, h, State.engLeft]

theorem State.OpsAdmitted.congr (h : s.OpsAdmitted) (heng : t.eng = s.eng) (hpl : t.platform = s.platform) :
    t.OpsAdmitted := by
  rw [State.OpsAdmitted, heng, hpl]
  exact h

/-- A step of a run on which the engine stays busy leaves it no more to do, and less when the turn is ENG's. -/
theorem CanStep.engLeft_le (h : CanStep u s t) (hadm : s.OpsAdmitted) (hbusy : s.eng.ops ≠ []) (hbusy' : t.eng.ops ≠ []) :
    t.OpsAdmitted ∧ t.engLeft ≤ s.engLeft ∧ (u = .eng → t.engLeft < s.engLeft) := by
  rcases h.engine_cases hbusy with hidle | ⟨-, heng, hpl⟩ | ⟨hne, heng, hpl⟩
  · exact absurd hidle hbusy'
  · obtain ⟨hadm', hlt⟩ := hadm.engStep hbusy
    have hleft : t.engLeft = s.engStep.engLeft := State.engLeft_congr heng
    exact ⟨hadm'.congr heng (hpl.trans s.engStep_platform.symm), hleft ▸ hlt.le, fun _ => hleft ▸ hlt⟩
  · exact ⟨hadm.congr heng hpl, (State.engLeft_congr heng).le, fun he => absurd he hne⟩

end

section
variable {sched : Nat → Turn} {r : Nat → State} {n : Nat}

/-- On a run where the engine stays busy, what it has to do never grows. -/
theorem IsRun.engLeft_antitone (hr : IsRun sched r) (hbusy : ∀ m ≥ n, (r m).eng.ops ≠ []) (hadm : (r n).OpsAdmitted) (d : Nat) :
    (r (n + d)).OpsAdmitted ∧ (r (n + d)).engLeft ≤ (r n).engLeft := by
  induction d with
  | zero => exact ⟨hadm, Nat.le_refl _⟩
  | succ d ih =>
    obtain ⟨hadm', hle, -⟩ :=
      (hr (n + d)).engLeft_le ih.1 (hbusy _ (Nat.le_add_right _ _)) (hbusy (n + d + 1) (by omega))
    exact ⟨hadm', hle.trans ih.2⟩

/-- An engine whose micro-ops are admitted does not stay busy for ever: each of its turns, which weak fairness brings, leaves it
less to do (R232). -/
theorem IsRun.engine_ends (hr : IsRun sched r) (hfair : FairTo .eng sched r) (hadm : (r n).OpsAdmitted) :
    ∃ m ≥ n, (r m).eng.ops = [] := by
  by_contra hnever
  have hbusy : ∀ m ≥ n, (r m).eng.ops ≠ [] := fun m hm h => hnever ⟨m, hm, h⟩
  clear hnever
  induction hleft : (r n).engLeft using Nat.strong_induction_on generalizing n with
  | _ left ih =>
    have henabled : ∀ m ≥ n, (r m).enabled .eng = true := fun m hm => by
      obtain ⟨d, rfl⟩ := Nat.exists_eq_add_of_le hm
      exact (hr.engLeft_antitone hbusy hadm d).1.enabled (hbusy _ hm)
    obtain ⟨m, hm, hturn⟩ := hfair n henabled
    obtain ⟨d, rfl⟩ := Nat.exists_eq_add_of_le hm
    obtain ⟨hadm', hle⟩ := hr.engLeft_antitone hbusy hadm d
    have hlater : ∀ m ≥ n + d + 1, (r m).eng.ops ≠ [] := fun m hm => hbusy m (by omega)
    obtain ⟨hadm'', -, hlt⟩ := (hr (n + d)).engLeft_le hadm' (hbusy _ hm) (hlater _ (Nat.le_refl _))
    exact ih _ (hleft ▸ (hlt hturn).trans_le hle) hadm'' hlater rfl

end

/-- Settles O33: by what the engine owes in the first part, by what it has left in the second. -/
theorem engineRunsItsMicroOps : Obligations.EngineRunsItsMicroOps := by
  unfold Obligations.EngineRunsItsMicroOps
  exact ⟨fun s ts ht hts hp hadm hcount => run_engine ht hts hp hadm hcount,
    fun sched r n hr hfair hadm => hr.engine_ends hfair hadm⟩

/-! ### A PIXEL on the machine -/

/-- Settles O38: the host's write loads PIXEL's one RMW, and two ENG turns do it. -/
theorem pixelReadBackOnTheMachine : Obligations.PixelReadBackOnTheMachine := by
  unfold Obligations.PixelReadBackOnTheMachine
  intro s x y c ts ps hx hy hidle hturns hprogram hts hcount hram
  have hwf : (Instr.pixel x y c).wellFormed = true := by
    simp only [Instr.wellFormed, Bool.and_eq_true, coordFits_iff]
    omega
  have hop := fieldOp_encodeA (.pixel x y c)
  have hdecode : decode (Instr.pixel x y c).encodeA s.cmdBWord = .ok (.pixel x y c) :=
    decode_of_ok_ignoring_cmdB _ (decodeEncodeRoundTrip _ hwf) (by simp [hop, Laws.OpcodeMatches.op])
      (by simp [hop, Laws.OpcodeMatches.op])
  have hissue := (step_of_cmdA hturns hprogram hdecode).trans
    (exec_draw_of_idle rfl hidle (buildPixel_of_inRange s.fbBase c hx hy))
  rw [run_succ_of_step _ hissue]
  obtain ⟨t, hrun, hmem, hops, -⟩ := run_engine
    (s := State.loadEngine { s with turns := ts, program := ps } [pixelRmw s.fbBase c (gridWord x y) (x % 10)])
    rfl hts rfl (by simpa [pixelRmw, MicroOp.addr] using hram) hcount
  have hmem' : t.mem = runOps s.mem [pixelRmw s.fbBase c (gridWord x y) (x % 10)] := hmem
  refine ⟨t, hrun, hops, ?_⟩
  rw [hmem']
  have hbase := aligned_fbBase s
  exact ⟨pixelAt_pixelRmw_same hbase c s.mem hx hy,
    fun x' y' hx' hy' hne => pixelAt_pixelRmw_other hbase c s.mem hx hy hx' hy' hne,
    fun k hk => padding_pixelRmw hbase c s.mem hk⟩

end Sys2Proof.Machine
end

section
/-! PROOFS. The stream (spec/40_timing_programs.md R163, R164; spec/41_scanout_dma.md R190 to R195; spec/70_reset_and_hazards.md
R314). What CH0 reads is a matter of how many words it has moved since START. That the ring never stops comes down to P: as long
as the scanout runs, lines start again and again, so a PQ with a word in it is popped sooner or later. -/

namespace Sys2Proof.Machine

/-! ### Ten slots of a word -/

section
variable {p : PixSeq} {w : Word} {rest pq : List Word} {clearP : Bool}

theorem extract_ushiftRight (w : Word) (k : Nat) : (w >>> k).extractLsb' 0 3 = w.extractLsb' k 3 := by
  apply BitVec.eq_of_getLsbD_eq
  intro i hi
  rw [BitVec.getLsbD_extractLsb', BitVec.getLsbD_extractLsb', BitVec.getLsbD_ushiftRight, Nat.zero_add]

theorem pixShift_pull (hav : p.avail = 0) :
    pixShift p (w :: rest) clearP =
      { p := shiftPixel { p with osr := w, avail := 10 }, pq := rest, clearP := clearP, rgb := w.extractLsb' 0 3,
        underflow := false } := by
  simp only [pixShift, hav, if_true]

theorem pixShift_shift (hav : p.avail ≠ 0) :
    pixShift p pq clearP =
      { p := shiftPixel p, pq := pq, clearP := clearP, rgb := p.osr.extractLsb' 0 3, underflow := false } := by
  simp only [pixShift, if_neg hav]

@[simp] theorem shiftPixel_osr (p : PixSeq) : (shiftPixel p).osr = p.osr >>> 3 := rfl
@[simp] theorem shiftPixel_avail (p : PixSeq) : (shiftPixel p).avail = p.avail - 1 := rfl
@[simp] theorem shiftPixel_par (p : PixSeq) : (shiftPixel p).par = p.par := rfl

end

section
variable {s : State} {w : Word} {rest : List Word}

/-- After j + 1 ticks of a pulled word, j + 1 of its slots are out, and P is still in its line while slots are left (R163). -/
theorem State.word_after_ticks (hrun : s.p.phase = .run) (hav : s.p.avail = 0) (hpq : s.pq = w :: rest)
    (hcnt : 9 ≤ s.p.cnt.toNat) (j : Nat) (hj : j < 10) :
    (State.tick^[j + 1] s).p.osr = w >>> (3 * (j + 1)) ∧ (State.tick^[j + 1] s).p.avail = 9 - j ∧
    (State.tick^[j + 1] s).pq = rest ∧ (State.tick^[j + 1] s).pins.rgb = w.extractLsb' (3 * j) 3 ∧
    (j < 9 → (State.tick^[j + 1] s).p.phase = .run ∧ (State.tick^[j + 1] s).p.cnt.toNat = s.p.cnt.toNat - (j + 1)) := by
  induction j with
  | zero =>
    have e : pixStep s.p s.awf s.pq = _ := (pixStep_run hrun).trans (hpq ▸ pixShift_pull hav)
    have hne : ({ s.p with osr := w, avail := 10 } : PixSeq).cnt ≠ 0 := fun h => by
      simp [show s.p.cnt = 0 from h] at hcnt
    rw [Function.iterate_one, State.tick_p, State.tick_pq, State.tick_pins, e]
    refine ⟨rfl, rfl, rfl, rfl, fun _ => ?_⟩
    rw [shiftPixel_inside hne]
    exact ⟨hrun, BitVec.toNat_sub_of_le (by bv_omega)⟩
  | succ j ih =>
    obtain ⟨hosr, havail, hrest, -, hline⟩ := ih (by omega)
    obtain ⟨hrun', hcnt'⟩ := hline (by omega)
    have e := (pixStep_run (awf := (State.tick^[j + 1] s).awf) hrun').trans
      (pixShift_shift (pq := (State.tick^[j + 1] s).pq) (clearP := false) (by omega))
    rw [Function.iterate_succ_apply', State.tick_p, State.tick_pq, State.tick_pins, e]
    refine ⟨?osr, by rw [shiftPixel_avail, havail]; omega, hrest, by rw [hosr, extract_ushiftRight], fun hj' => ?line⟩
    case osr => rw [shiftPixel_osr, hosr, ← BitVec.shiftRight_add]; rfl
    case line =>
      have hne : (State.tick^[j + 1] s).p.cnt ≠ 0 := fun h => by
        have hzero : (State.tick^[j + 1] s).p.cnt.toNat = 0 := congrArg BitVec.toNat h
        omega
      rw [shiftPixel_inside hne]
      refine ⟨hrun', ?_⟩
      have hdown : ((State.tick^[j + 1] s).p.cnt - 1).toNat = (State.tick^[j + 1] s).p.cnt.toNat - 1 :=
        BitVec.toNat_sub_of_le (by bv_omega)
      rw [hdown, hcnt']
      omega

end

/-- Settles O52. -/
theorem wordShowsItsTenSlots : Obligations.WordShowsItsTenSlots := by
  unfold Obligations.WordShowsItsTenSlots
  intro s w rest hrun hav hpq hcnt
  have h := s.word_after_ticks hrun hav hpq hcnt
  refine ⟨fun j hj => ?slots, ?last⟩
  case slots =>
    obtain ⟨-, -, -, hrgb, -⟩ := h j hj
    exact hrgb
  case last =>
    obtain ⟨-, havail, hrest, -, -⟩ := h 9 (by decide)
    exact ⟨havail, hrest⟩

/-! ### The words CH0 reads -/

/-- CH0 has moved n words since START: it is at word n mod 30720 of its frame, or waits for CH1 at the frame's end (R195). -/
def State.StreamAt (n : Nat) (s : State) : Prop :=
  (s.ch0.busy = true ∧ s.ch1Busy = false ∧ s.ch0.raddr = fbaddr s.fbBase (n % 30720) ∧
    s.ch0.count.toNat = 30720 - n % 30720) ∨
  (s.ch0.busy = false ∧ s.ch1Busy = true ∧ n % 30720 = 0)

section
variable {s t : State} {n : Nat}

theorem fbaddr_zero (base : Word) : fbaddr base 0 = base := BitVec.add_zero base

theorem fbaddr_succ (base : Word) (k : Nat) : fbaddr base k + 4 = fbaddr base (k + 1) := by
  rw [fbaddr, fbaddr, BitVec.add_assoc, Nat.mul_succ, BitVec.ofNat_add]
  rfl

theorem State.StreamAt.congr (h : s.StreamAt n) (hch0 : t.ch0 = s.ch0) (hch1 : t.ch1Busy = s.ch1Busy)
    (hbase : t.fbBase = s.fbBase) : t.StreamAt n := by
  rw [State.StreamAt, hch0, hch1, hbase]
  exact h

theorem State.streamAt_trigger (hch1 : s.ch1Busy = false) (hn : n % 30720 = 0) : (s.triggerCh0 s.fbBase).StreamAt n := by
  refine .inl ⟨rfl, hch1, ?_, ?_⟩
  · rw [hn, fbaddr_zero]
    exact fbBase_and_alignMask s
  · rw [hn]
    rfl

theorem State.ScanInv.streamAt_arm (h : s.ScanInv) (hrun : s.run = false) : s.arm.StreamAt 0 :=
  (State.streamAt_trigger (h.whenStopped hrun).ch1Idle rfl).congr rfl rfl rfl

theorem State.StreamAt.ch0Transfer (h : s.StreamAt n) (hbusy : s.ch0.busy = true) : s.ch0Transfer.StreamAt (n + 1) := by
  have hmod : n % 30720 < 30720 := Nat.mod_lt _ (by decide)
  rcases h with ⟨-, hch1, hraddr, hcount⟩ | ⟨hidle, -, -⟩
  case inr => simp [hbusy] at hidle
  case inl =>
    have hlast := count_sub_one_eq_zero_iff s.ch0.count
    by_cases hend : s.ch0.count.toNat = 1
    · refine .inr ⟨?_, ?_, by omega⟩
      · rw [State.ch0Transfer_ch0, hlast.mpr hend, Bool.not_true, Bool.and_false]
      · rw [State.ch0Transfer_ch1Busy, hlast.mpr hend, Bool.or_true]
    · have hmore := Bool.eq_false_iff.mpr (mt hlast.mp hend)
      have hnext : (n + 1) % 30720 = n % 30720 + 1 := by omega
      refine .inl ⟨?_, ?_, ?_, ?_⟩
      · rw [State.ch0Transfer_ch0, hmore, hbusy]; rfl
      · rw [State.ch0Transfer_ch1Busy, hmore, hch1]; rfl
      · rw [State.ch0Transfer_ch0, hnext, ← fbaddr_succ, hraddr]; rfl
      · have hdown : (s.ch0.count - 1).toNat = s.ch0.count.toNat - 1 := BitVec.toNat_sub_of_le (by bv_omega)
        rw [State.ch0Transfer_ch0, hnext, hdown, hcount]
        omega

theorem State.StreamAt.ch1Step (h : s.StreamAt n) : s.ch1Step.StreamAt n := by
  rcases s.ch1Step_cases with ⟨-, e⟩ | ⟨hch1, e⟩
  · rwa [e]
  · rcases h with ⟨-, hidle, -, -⟩ | ⟨-, -, hn⟩
    · simp [hch1] at hidle
    · rw [e]
      exact State.streamAt_trigger (s := { s with ch1Busy := false }) rfl hn

theorem State.fbBase_blockTurn (s : State) {u : Turn} (hu : Turn.ofBlock u = true) : (s.blockTurn u).fbBase = s.fbBase := by
  obtain ⟨hregs, -⟩ := s.blockTurn_frame hu
  rw [State.fbBase, hregs, State.fbBase]

theorem State.enabled_ch0_iff : s.enabled .ch0 = true ↔ s.ch0Ready = true ∧ s.ch0Stuck = false := by
  rw [State.enabled, Bool.and_eq_true, Bool.not_eq_true']

theorem State.ch0Step_of_enabled (h : s.enabled .ch0 = true) : s.ch0Step = s.ch0Transfer := by
  obtain ⟨hready, hfree⟩ := State.enabled_ch0_iff.mp h
  exact State.ch0Step_of_ready hready hfree

theorem State.ch0Step_of_not_enabled (h : s.enabled .ch0 = false) : s.ch0Step = s := by
  rw [State.enabled] at h
  rw [State.ch0Step, h, if_neg Bool.false_ne_true]

/-- CH0's own steps, and no others, take the stream one word on. -/
theorem State.StreamAt.blockTurn (h : s.StreamAt n) {u : Turn} (hu : Turn.ofBlock u = true) :
    (s.blockTurn u).StreamAt (n + if u = .ch0 ∧ s.enabled .ch0 = true then 1 else 0) := by
  cases u with
  | host | reset => cases hu
  | tick => exact h.congr rfl rfl rfl
  | ch0 =>
    cases henabled : s.enabled .ch0 with
    | true =>
      rw [if_pos ⟨rfl, rfl⟩, State.blockTurn, State.ch0Step_of_enabled henabled]
      exact h.ch0Transfer (State.ch0Ready_iff.mp (State.enabled_ch0_iff.mp henabled).1).1
    | false =>
      rw [if_neg (by simp), State.blockTurn, State.ch0Step_of_not_enabled henabled]
      exact h
  | ch1 => exact h.ch1Step
  | eng => exact h.congr (by rw [State.blockTurn, s.engStep_eq]) (by rw [State.blockTurn, s.engStep_eq]) (s.fbBase_blockTurn hu)

/-- The addresses CH0 reads from n words on. -/
theorem State.StreamAt.streamReads {ts : List Turn} (hts : ∀ u ∈ ts, Turn.ofBlock u = true) (h : s.StreamAt n) {i : Nat}
    {a : Word} (ha : (s.streamReads ts)[i]? = some a) : a = fbaddr s.fbBase ((n + i) % 30720) := by
  induction ts generalizing s n i with
  | nil => simp [State.streamReads] at ha
  | cons u ts ih =>
    have hu := hts u (.head _)
    have hrest := fun {i} => ih (i := i) (fun v hv => hts v (.tail _ hv)) (h.blockTurn hu)
    rw [s.fbBase_blockTurn hu] at hrest
    rw [State.streamReads] at ha
    by_cases hread : u = .ch0 ∧ s.enabled .ch0 = true
    · rw [if_pos hread, List.singleton_append] at ha
      rw [if_pos hread] at hrest
      cases i with
      | zero =>
        obtain rfl : s.ch0.raddr = a := by simpa using ha
        have hbusy := (State.ch0Ready_iff.mp (State.enabled_ch0_iff.mp hread.2).1).1
        rcases h with ⟨-, -, hraddr, -⟩ | ⟨hidle, -, -⟩
        · exact hraddr
        · simp [hbusy] at hidle
      | succ i =>
        rw [hrest (by simpa using ha), Nat.add_assoc, Nat.add_comm 1 i]
    · rw [if_neg hread, List.nil_append] at ha
      rw [if_neg hread, Nat.add_zero] at hrest
      exact hrest ha

end

/-! ### The base of the frame being streamed -/

section
variable {s t : State}

theorem State.frameBase_congr (h : t.ch0 = s.ch0) : t.frameBase = s.frameBase := by
  rw [State.frameBase, h, State.frameBase]

/-- A transfer goes one word on in the same frame. -/
theorem State.frameBase_ch0Transfer (s : State) : s.ch0Transfer.frameBase = s.frameBase := by
  simp only [State.frameBase, State.ch0Transfer_ch0]
  ring

theorem State.frameBase_ch0Step (s : State) : s.ch0Step.frameBase = s.frameBase := by
  rcases s.ch0Step_cases with e | ⟨-, -, -, -, -, e⟩
  · rw [e]
  · rw [e, State.frameBase_ch0Transfer]

theorem State.frameBase_trigger (s : State) : (s.triggerCh0 s.fbBase).frameBase = s.fbBase := by
  simp only [State.frameBase, State.triggerCh0_ch0, fbBase_and_alignMask]
  ring

/-- CH0's next read is the word of its frame that its count says (R191, R194). -/
theorem State.raddr_eq_frameWord (h : s.ch0.count.toNat ≤ 30720) :
    s.ch0.raddr = fbaddr s.frameBase (30720 - s.ch0.count.toNat) := by
  have hwords : BitVec.ofNat 32 (4 * (30720 - s.ch0.count.toNat)) = 4 * (BitVec.ofNat 32 fbWords - s.ch0.count) := by
    apply BitVec.eq_of_toNat_eq
    have hfb : (BitVec.ofNat 32 fbWords).toNat = 30720 := rfl
    have hsub : (BitVec.ofNat 32 fbWords - s.ch0.count).toNat = 30720 - s.ch0.count.toNat :=
      BitVec.toNat_sub_of_le (by rw [BitVec.le_def, hfb]; exact h)
    rw [BitVec.toNat_mul, hsub, BitVec.toNat_ofNat]
    rfl
  rw [fbaddr, hwords, State.frameBase]
  ring

/-- A frame keeps its base through every host step that leaves CH0 busy. -/
theorem HostEffect.frameBase (he : HostEffect s t) (hinv : s.ScanInv) (hbusy : s.ch0.busy = true)
    (hbusy' : t.ch0.busy = true) : t.frameBase = s.frameBase := by
  cases he with
  | side | store | load => subst t; rfl
  | arm _ _ _ stopped => simp [hinv.run_of_ch0Busy hbusy] at stopped
  | disarm => subst t; cases hbusy'

theorem State.ScanInv.frameBase_blockTurn (h : s.ScanInv) (hbusy : s.ch0.busy = true) {u : Turn}
    (hu : Turn.ofBlock u = true) : (s.blockTurn u).frameBase = s.frameBase := by
  cases u with
  | host | reset => cases hu
  | tick => rfl
  | ch0 => exact s.frameBase_ch0Step
  | ch1 =>
    have hch1 : s.ch1Busy = false := by simpa [hbusy] using (h.channels (h.run_of_ch0Busy hbusy)).oneChannel.symm
    rw [State.blockTurn, State.ch1Step, hch1, if_neg Bool.false_ne_true]
  | eng => exact State.frameBase_congr (by rw [State.blockTurn, s.engStep_eq])

theorem State.ScanInv.frameBase_step (h : s.ScanInv) (hbusy : s.ch0.busy = true) (hstep : step s = .next t)
    (hbusy' : t.ch0.busy = true) : t.frameBase = s.frameBase := by
  rcases (canStep_of_step hstep).effects with ⟨-, he⟩ | ⟨ts, k, hu, rfl⟩ | ⟨ts, k, -, rfl⟩
  · exact he.frameBase h hbusy hbusy'
  · exact h.frameBase_blockTurn hbusy hu
  · cases hbusy'

end

/-! ### Lines start again and again -/

section
variable {load : Word → Phase → Word} {q : Seq} {s : State}

/-- A sequencer that counts is at some place of its period. -/
theorem Seq.Within.exists_at (h : q.Within load) (hc : q.phase.counts = true) :
    ∃ r < seqPeriod load q.par, Seq.At load q.par q r := by
  have hle : q.cnt.toNat ≤ (load q.par q.phase).toNat := h (q.phase.counts_iff.mp hc).1 (q.phase.counts_iff.mp hc).2
  have hend := phaseStart_add_phaseLen_le (load := load) (par := q.par) hc
  unfold phaseLen at hend
  exact ⟨phaseStart load q.par q.phase + (load q.par q.phase).toNat - q.cnt.toNat, by omega, hc, rfl, hle, by omega⟩

/-- What ticks keep of a running scanout. -/
structure State.Scanning (s : State) : Prop where
  inv : s.ScanInv
  running : s.run = true

theorem State.Scanning.tick (h : s.Scanning) : s.tick.Scanning := ⟨h.inv.tick, h.running⟩

theorem State.Scanning.ticks (h : s.Scanning) (k : Nat) : (State.tick^[k] s).Scanning := by
  induction k with
  | zero => exact h
  | succ k ih => rw [Function.iterate_succ_apply']; exact ih.tick

theorem State.Scanning.h_counts_tick (h : s.Scanning) : s.tick.h.phase.counts = true := by
  have hruns := h.inv.hRuns h.running
  rw [State.tick_h]
  rcases hStep_cases s.platform s.h s.hq with ⟨hi, -⟩ | ⟨hp, hq, -⟩ | ⟨w, rest, -, -, e⟩ | ⟨hc, e⟩
  · exact absurd hi hruns.busy
  · obtain ⟨w, hw⟩ := hruns.queue_of_param hp
    simp [hq] at hw
  · rw [e]; rfl
  · rw [e]; exact (hruns.within.countStep hc).2

theorem State.Scanning.v_counts_tick (h : s.Scanning) : s.tick.v.phase.counts = true := by
  have hruns := h.inv.vRuns h.running
  rw [State.tick_v]
  rcases vStep_cases s.platform (lineBoundary s.h) s.v s.vq with
    ⟨hi, -⟩ | ⟨hp, hq, -⟩ | ⟨w, rest, -, -, e⟩ | ⟨hc, -, e⟩ | ⟨hc, -, e⟩
  · exact absurd hi hruns.busy
  · obtain ⟨w, hw⟩ := hruns.queue_of_param hp
    simp [hq] at hw
  · rw [e]; rfl
  · rw [e]; exact (hruns.within.countStep hc).2
  · rw [e]; exact hc

/-- Each tick takes an H that counts one place on. -/
theorem State.h_at_more_ticks {par : Word} {r : Nat} (hat : Seq.At (hLoad s.platform) par s.h r)
    (hr : r < linePeriod s.platform par) (k : Nat) :
    Seq.At (hLoad s.platform) par (State.tick^[k] s).h ((r + k) % linePeriod s.platform par) := by
  induction k with
  | zero => rwa [Nat.add_zero, Nat.mod_eq_of_lt hr]
  | succ k ih =>
    have hstep := ih.countStep
    rw [seqPeriod_hLoad, Nat.mod_add_mod] at hstep
    rwa [Function.iterate_succ_apply', State.tick_h, hStep_of_counts _ _ ih.counts, s.platform_ticks]

/-- A running scanout comes to the end of a line. -/
theorem State.Scanning.exists_lineBoundary (h : s.Scanning) : ∃ k, lineBoundary (State.tick^[k] s).h = true := by
  obtain ⟨r, hr, hat⟩ := (h.tick.inv.hRuns h.tick.running).within.exists_at h.h_counts_tick
  rw [seqPeriod_hLoad] at hr
  have hlast := State.h_at_more_ticks hat hr (linePeriod s.tick.platform s.tick.h.par - 1 - r)
  rw [Nat.mod_eq_of_lt (by omega)] at hlast
  refine ⟨linePeriod s.tick.platform s.tick.h.par - 1 - r + 1, ?_⟩
  rw [Function.iterate_succ_apply, lineBoundary_iff, hlast.last_iff, seqPeriod_hLoad]
  omega

/-- Between line ends V holds still. -/
theorem State.v_held {k : Nat} (hc : s.v.phase.counts = true) (h : ∀ i < k, ¬ lineBoundary (State.tick^[i] s).h = true) :
    (State.tick^[k] s).v = s.v := by
  induction k with
  | zero => rfl
  | succ k ih =>
    have hv := ih fun i hi => h i (by omega)
    rw [Function.iterate_succ_apply', State.tick_v_of_not_lineBoundary (h k (by omega)) (hv ▸ hc), hv]

/-- From a V at place ρ of its frame, F − ρ line ends bring it to an active line, and that end sets AWF (R159). -/
theorem State.Scanning.exists_awf_of_at (h : s.Scanning) {par : Word} {left r : Nat}
    (hat : Seq.At (vLoad s.platform) par s.v r) (hleft : r + left + 1 = framePeriod s.platform par) :
    ∃ j, (State.tick^[j] s).awf = true := by
  induction left generalizing s r with
  | zero =>
    obtain ⟨hlb, hbefore⟩ := Nat.find_spec h.exists_lineBoundary, fun i => Nat.find_min (m := i) h.exists_lineBoundary
    have hv := State.v_held hat.counts hbefore
    refine ⟨Nat.find h.exists_lineBoundary + 1, ?_⟩
    have hnext := hat.countStep
    rw [seqPeriod_vLoad, ← hleft, Nat.mod_self] at hnext
    have hactive : (countStep (vLoad s.platform) s.v).phase = .active :=
      (hnext.phase_eq_iff rfl).mpr ⟨Nat.le_refl _, Nat.lt_of_lt_of_le phaseLen_pos (Nat.le_add_left _ _)⟩
    rw [Function.iterate_succ_apply']
    refine State.tick_awf_of_lineBoundary hlb (by rw [hv]; exact hat.counts) ?_
    rw [State.tick_v_of_lineBoundary hlb (by rw [hv]; exact hat.counts), hv, s.platform_ticks]
    exact hactive
  | succ left ih =>
    obtain ⟨hlb, hbefore⟩ := Nat.find_spec h.exists_lineBoundary, fun i => Nat.find_min (m := i) h.exists_lineBoundary
    have hv := State.v_held hat.counts hbefore
    have hnext := hat.countStep
    rw [seqPeriod_vLoad, Nat.mod_eq_of_lt (by omega)] at hnext
    have hpl := s.platform_ticks (Nat.find h.exists_lineBoundary + 1)
    have hv' : (State.tick^[Nat.find h.exists_lineBoundary + 1] s).v = countStep (vLoad s.platform) s.v := by
      rw [Function.iterate_succ_apply', State.tick_v_of_lineBoundary hlb (by rw [hv]; exact hat.counts), hv, s.platform_ticks]
    obtain ⟨j, hj⟩ := ih (h.ticks (Nat.find h.exists_lineBoundary + 1)) (r := r + 1) (by rw [hpl, hv']; exact hnext)
      (by rw [hpl]; omega)
    exact ⟨j + (Nat.find h.exists_lineBoundary + 1), by rw [Function.iterate_add_apply]; exact hj⟩

/-- A running scanout comes to the start of an active line. -/
theorem State.Scanning.exists_awf (h : s.Scanning) : ∃ j, (State.tick^[j] s).awf = true := by
  obtain ⟨r, hr, hat⟩ := (h.tick.inv.vRuns h.tick.running).within.exists_at h.v_counts_tick
  rw [seqPeriod_vLoad] at hr
  obtain ⟨left, hleft⟩ := Nat.exists_eq_add_of_lt hr
  obtain ⟨j, hj⟩ := h.tick.exists_awf_of_at hat hleft.symm
  exact ⟨j + 1, by rw [Function.iterate_succ_apply]; exact hj⟩

end

/-! ### P takes the words of PQ -/

section
variable {s : State}

/-- Ticks alone take a word from PQ at some later time. -/
def State.Pops (s : State) : Prop := ∃ j, (State.tick^[j] s).pq.length < s.pq.length

theorem State.Pops.of_later {k : Nat} (hpq : (State.tick^[k] s).pq = s.pq) (h : (State.tick^[k] s).Pops) : s.Pops := by
  obtain ⟨j, hj⟩ := h
  exact ⟨j + k, by rw [Function.iterate_add_apply, ← hpq]; exact hj⟩

/-- While AWF is 0, P in WAIT waits (R162). -/
theorem State.p_held {k : Nat} (hwait : s.p.phase = .wait) (h : ∀ i < k, ¬ (State.tick^[i] s).awf = true) :
    (State.tick^[k] s).p = s.p ∧ (State.tick^[k] s).pq = s.pq := by
  induction k with
  | zero => exact ⟨rfl, rfl⟩
  | succ k ih =>
    obtain ⟨hp, hpq⟩ := ih fun i hi => h i (by omega)
    rw [Function.iterate_succ_apply', State.tick_p, State.tick_pq, hp, hpq, Bool.of_not_eq_true (h k (by omega)),
      pixStep_wait hwait]
    exact ⟨rfl, rfl⟩

/-- A shift takes the next word from PQ, or leaves one pixel less of the word it has (R163, R164). -/
theorem pixShift_pops {p : PixSeq} {pq : List Word} (clearP : Bool) (hpq : pq ≠ []) :
    (pixShift p pq clearP).pq.length < pq.length ∨
    ((pixShift p pq clearP).pq = pq ∧ (pixShift p pq clearP).p.avail < p.avail) := by
  rcases pixShift_cases p pq clearP with ⟨-, hnil, -⟩ | ⟨hav, e⟩ | ⟨w, rest, -, rfl, e⟩
  · exact absurd hnil hpq
  · rw [e]
    exact .inr ⟨rfl, Nat.sub_lt (Nat.pos_of_ne_zero hav) Nat.one_pos⟩
  · rw [e]
    exact .inl (Nat.lt_succ_self _)

/-- A running scanout takes a word from a PQ that has one: each shift of the word P has leaves it fewer pixels, and lines start
again and again. -/
theorem State.Scanning.pops (h : s.Scanning) (hpq : s.pq ≠ []) : s.Pops := by
  induction hav : s.p.avail using Nat.strong_induction_on generalizing s with
  | _ avail ih =>
    have shift : ∀ {t : State}, t.Scanning → t.pq = s.pq → t.p.avail = s.p.avail → ∀ p clearP,
        pixStep t.p t.awf t.pq = pixShift p t.pq clearP → p.avail = t.p.avail → t.Pops := by
      intro t ht htpq htav p clearP hstep hp
      rcases pixShift_pops (p := p) clearP (htpq.symm ▸ hpq) with hlt | ⟨hsame, hless⟩
      · exact ⟨1, by rwa [Function.iterate_one, State.tick_pq, hstep]⟩
      · have hpq' : t.tick.pq = t.pq := by rw [State.tick_pq, hstep, hsame]
        have hless' : t.tick.p.avail < avail := by
          rw [State.tick_p, hstep]
          omega
        have hlater : t.tick.Pops := ih _ hless' ht.tick (by rw [hpq', htpq]; exact hpq) rfl
        exact State.Pops.of_later (k := 1) hpq' hlater
    cases hphase : s.p.phase with
    | idle => exact absurd hphase (h.inv.pRuns h.running).busy
    | param =>
      obtain ⟨w, rest, hw⟩ := List.exists_cons_of_ne_nil hpq
      refine ⟨1, ?_⟩
      rw [Function.iterate_one, State.tick_pq, hw, pixStep_param_cons hphase]
      exact Nat.lt_succ_self _
    | run => exact shift h rfl rfl s.p false (pixStep_run hphase) rfl
    | wait =>
      have hawf := Nat.find_spec h.exists_awf
      obtain ⟨hp, hpq'⟩ := State.p_held hphase fun i => Nat.find_min (m := i) h.exists_awf
      refine State.Pops.of_later hpq' (shift (h.ticks _) hpq' (congrArg PixSeq.avail hp)
        { s.p with phase := .run, cnt := s.p.par } true ?_ (by rw [hp]))
      rw [hawf, hp, pixStep_line hphase]

end

end Sys2Proof.Machine
end

section
/-! PROOFS. The ring runs for ever (spec/41_scanout_dma.md R190 to R195; spec/70_reset_and_hazards.md R314). If CH0 stopped, PQ
would only be popped, so it would come to have room and CH0 would be enabled for good; if CH1 stopped, CH0's count would have to
go down for ever. -/

namespace Sys2Proof.Machine

/-! ### Scanouts that are the same -/

section
variable {s t v : State}

theorem SameScanout.trans (h : SameScanout s t) (h' : SameScanout t v) : SameScanout s v where
  run := h'.run.trans h.run
  h := h'.h.trans h.h
  v := h'.v.trans h.v
  p := h'.p.trans h.p
  awf := h'.awf.trans h.awf
  hq := h'.hq.trans h.hq
  vq := h'.vq.trans h.vq
  pq := h'.pq.trans h.pq
  ch0 := h'.ch0.trans h.ch0
  ch0StuckLatch := h'.ch0StuckLatch.trans h.ch0StuckLatch
  ch1Busy := h'.ch1Busy.trans h.ch1Busy
  platform := h'.platform.trans h.platform

theorem SameScanout.refl (s : State) : SameScanout s s := ⟨rfl, rfl, rfl, rfl, rfl, rfl, rfl, rfl, rfl, rfl, rfl, rfl⟩

/-- A tick of the scanout depends on the scanout alone (R150). -/
theorem SameScanout.tick (h : SameScanout s t) : SameScanout s.tick t.tick := by
  obtain ⟨h1, h2, h3, h4, h5, h6, h7, h8, h9, h10, h11, h12⟩ := h
  constructor <;> simp only [State.tick_run, State.tick_h, State.tick_v, State.tick_p, State.tick_awf, State.tick_hq,
    State.tick_vq, State.tick_pq, State.tick_ch0, State.tick_ch0StuckLatch, State.tick_ch1Busy, State.tick_platform,
    h1, h2, h3, h4, h5, h6, h7, h8, h9, h10, h11, h12]

theorem CanStep.scanInv {u : Turn} (h : CanStep u s t) (hs : s.ScanInv) : t.ScanInv := by
  obtain ⟨ts, k, hstep⟩ := step_of_canStep h
  exact stepKeepsScanInv _ t (hs.congr (by constructor <;> rfl)) hstep

end

/-! ### Runs on which the scanout runs on -/

/-- From time n on the run is weakly fair, RUN stays 1 and CH0 is not stuck: the premises of R314. -/
structure RunsOn (sched : Nat → Turn) (r : Nat → State) (n : Nat) : Prop where
  isRun : IsRun sched r
  fair : WeaklyFair sched r
  inv : ∀ m ≥ n, (r m).ScanInv
  running : ∀ m ≥ n, (r m).run = true
  free : ∀ m ≥ n, (r m).ch0Stuck = false

/-- Agent u has a step at time m and takes it. -/
def StepsAt (sched : Nat → Turn) (r : Nat → State) (u : Turn) (m : Nat) : Prop := sched m = u ∧ (r m).enabled u = true

section
variable {sched : Nat → Turn} {r : Nat → State} {n k m : Nat} {u : Turn}

theorem IsRun.runsOn (hr : IsRun sched r) (hfair : WeaklyFair sched r) (hinv : (r n).ScanInv)
    (h : ∀ m ≥ n, (r m).run = true ∧ (r m).ch0Stuck = false) : RunsOn sched r n := by
  refine ⟨hr, hfair, fun m hm => ?_, fun m hm => (h m hm).1, fun m hm => (h m hm).2⟩
  induction m, hm using Nat.le_induction with
  | base => exact hinv
  | succ m _ ih => exact (hr m).scanInv ih

theorem RunsOn.mono (h : RunsOn sched r n) (hk : n ≤ k) : RunsOn sched r k :=
  ⟨h.isRun, h.fair, fun m hm => h.inv m (hk.trans hm), fun m hm => h.running m (hk.trans hm),
    fun m hm => h.free m (hk.trans hm)⟩

/-- An agent that never again takes a step is at some later time without one (D32). -/
theorem RunsOn.exists_disabled (h : RunsOn sched r n) (hu : Turn.ofBlock u = true) (hnever : ∀ m ≥ n, ¬ StepsAt sched r u m)
    (hk : n ≤ k) : ∃ m ≥ k, (r m).enabled u = false := by
  by_contra hon
  have henabled : ∀ m ≥ k, (r m).enabled u = true := fun m hm => Bool.of_not_eq_false fun h => hon ⟨m, hm, h⟩
  obtain ⟨m, hm, hturn⟩ := h.fair u hu k henabled
  exact hnever m (hk.trans hm) ⟨hturn, henabled m hm⟩

section
variable (h : RunsOn sched r n) (hm : n ≤ m)
include h hm

theorem RunsOn.after_tick (hs : StepsAt sched r .tick m) : SameScanout (r m).tick (r (m + 1)) := by
  rcases (h.isRun m).running_cases (h.running m hm) (h.running (m + 1) (by omega)) with
    ⟨-, e⟩ | ⟨hu, -⟩ | ⟨hu, -⟩ | ⟨hu, -⟩
  · exact e
  · simp [hs.1] at hu
  · simp [hs.1] at hu
  · simp [hs.1] at hu

theorem RunsOn.after_ch0 (hs : StepsAt sched r .ch0 m) : SameScanout (r m).ch0Transfer (r (m + 1)) := by
  rcases (h.isRun m).running_cases (h.running m hm) (h.running (m + 1) (by omega)) with
    ⟨hu, -⟩ | ⟨-, e⟩ | ⟨hu, -⟩ | ⟨hu, -⟩
  · simp [hs.1] at hu
  · exact State.ch0Step_of_enabled hs.2 ▸ e
  · simp [hs.1] at hu
  · simp [hs.1] at hu

theorem RunsOn.after_ch1 (hs : StepsAt sched r .ch1 m) : SameScanout (r m).ch1Step (r (m + 1)) := by
  rcases (h.isRun m).running_cases (h.running m hm) (h.running (m + 1) (by omega)) with
    ⟨hu, -⟩ | ⟨hu, -⟩ | ⟨-, e⟩ | ⟨hu, -⟩
  · simp [hs.1] at hu
  · simp [hs.1] at hu
  · exact e
  · simp [hs.1] at hu

/-- A turn in which no agent of the scanout takes a step leaves the scanout as it was. -/
theorem RunsOn.after_other (htick : ¬ StepsAt sched r .tick m) (hch0 : ¬ StepsAt sched r .ch0 m)
    (hch1 : ¬ StepsAt sched r .ch1 m) : SameScanout (r m) (r (m + 1)) := by
  rcases (h.isRun m).running_cases (h.running m hm) (h.running (m + 1) (by omega)) with
    ⟨hu, -⟩ | ⟨hu, e⟩ | ⟨hu, e⟩ | ⟨-, e⟩
  · exact absurd ⟨hu, rfl⟩ htick
  · have hoff : (r m).enabled .ch0 = false := Bool.of_not_eq_true fun henabled => hch0 ⟨hu, henabled⟩
    exact State.ch0Step_of_not_enabled hoff ▸ e
  · have hoff : ¬ (r m).ch1Busy = true := fun hbusy => hch1 ⟨hu, hbusy⟩
    rwa [State.ch1Step, if_neg hoff] at e
  · exact e

/-- A step of such a run: TICK's, a transfer of CH0, a reload by CH1, or one that leaves the scanout as it was. -/
theorem RunsOn.step_cases :
    (StepsAt sched r .tick m ∧ SameScanout (r m).tick (r (m + 1))) ∨
    (StepsAt sched r .ch0 m ∧ SameScanout (r m).ch0Transfer (r (m + 1))) ∨
    (StepsAt sched r .ch1 m ∧ SameScanout (r m).ch1Step (r (m + 1))) ∨
    (¬ StepsAt sched r .tick m ∧ SameScanout (r m) (r (m + 1))) := by
  by_cases htick : StepsAt sched r .tick m
  · exact .inl ⟨htick, h.after_tick hm htick⟩
  by_cases hch0 : StepsAt sched r .ch0 m
  · exact .inr (.inl ⟨hch0, h.after_ch0 hm hch0⟩)
  by_cases hch1 : StepsAt sched r .ch1 m
  · exact .inr (.inr (.inl ⟨hch1, h.after_ch1 hm hch1⟩))
  · exact .inr (.inr (.inr ⟨htick, h.after_other hm htick hch0 hch1⟩))

end

/-- TICK always has a step, and its turn comes again and again (R150). -/
theorem RunsOn.exists_tick (h : RunsOn sched r n) (hk : n ≤ k) : ∃ m ≥ k, StepsAt sched r .tick m := by
  obtain ⟨m, hm, hturn⟩ := (h.mono hk).fair .tick rfl k fun _ _ => rfl
  exact ⟨m, hm, hturn, rfl⟩

theorem RunsOn.channels (h : RunsOn sched r n) (hm : n ≤ m) : (r m).Channels := (h.inv m hm).channels (h.running m hm)

theorem RunsOn.ch1_of_ch0 (h : RunsOn sched r n) (hm : n ≤ m) (hb : (r m).ch0.busy = true) : (r m).ch1Busy = false := by
  simpa [hb] using (h.channels hm).oneChannel.symm

theorem RunsOn.ch0_of_ch1 (h : RunsOn sched r n) (hm : n ≤ m) (hb : (r m).ch1Busy = false) : (r m).ch0.busy = true := by
  simpa [hb] using (h.channels hm).oneChannel

/-- A busy CH1 stays busy until it reloads CH0. -/
theorem RunsOn.ch1_stays (h : RunsOn sched r n) (hm : n ≤ m) (hb : (r m).ch1Busy = true) :
    StepsAt sched r .ch1 m ∨ (r (m + 1)).ch1Busy = true := by
  rcases h.step_cases hm with ⟨-, e⟩ | ⟨-, e⟩ | ⟨hstep, -⟩ | ⟨-, e⟩
  · exact .inr (e.ch1Busy.trans hb)
  · exact .inr (e.ch1Busy.trans (by rw [State.ch0Transfer_ch1Busy, hb, Bool.true_or]))
  · exact .inl hstep
  · exact .inr (e.ch1Busy.trans hb)

/-- A busy CH1 reloads CH0 at some later time (R193). -/
theorem RunsOn.exists_ch1_of_busy (h : RunsOn sched r n) (hm : n ≤ m) (hb : (r m).ch1Busy = true) :
    ∃ k ≥ m, StepsAt sched r .ch1 k := by
  by_contra hnever
  have hnever' : ∀ k ≥ m, ¬ StepsAt sched r .ch1 k := fun k hk hs => hnever ⟨k, hk, hs⟩
  have hbusy : ∀ k ≥ m, (r k).ch1Busy = true := by
    intro k hk
    induction k, hk using Nat.le_induction with
    | base => exact hb
    | succ k hk ih => exact (h.ch1_stays (hm.trans hk) ih).resolve_left (hnever' k hk)
  obtain ⟨k, hk, hoff⟩ := (h.mono hm).exists_disabled rfl hnever' (Nat.le_refl m)
  simp [State.enabled, hbusy k hk] at hoff

/-- CH0 is busy at some later time: it is now, or CH1 makes it so. -/
theorem RunsOn.exists_ch0_busy (h : RunsOn sched r n) : ∃ m ≥ n, (r m).ch0.busy = true := by
  cases hb : (r n).ch1Busy with
  | false => exact ⟨n, Nat.le_refl n, h.ch0_of_ch1 (Nat.le_refl n) hb⟩
  | true =>
    obtain ⟨k, hk, hstep⟩ := h.exists_ch1_of_busy (Nat.le_refl n) hb
    refine ⟨k + 1, by omega, ?_⟩
    rw [(h.after_ch1 hk hstep).ch0, State.ch1Step, if_pos (show (r k).ch1Busy = true from hstep.2)]
    rfl

/-- A busy CH0 that takes no step stays busy, and PQ does not grow. -/
theorem RunsOn.ch0_idles (h : RunsOn sched r n) (hnever : ∀ m ≥ n, ¬ StepsAt sched r .ch0 m)
    (hb : (r n).ch0.busy = true) (hm : n ≤ m) :
    (r m).ch0.busy = true ∧ (r (m + 1)).pq.length ≤ (r m).pq.length ∧
    (¬ StepsAt sched r .tick m → SameScanout (r m) (r (m + 1))) := by
  have hbusy : (r m).ch0.busy = true := by
    induction m, hm using Nat.le_induction with
    | base => exact hb
    | succ m hm ih =>
      rcases h.step_cases hm with ⟨-, e⟩ | ⟨hstep, -⟩ | ⟨hstep, -⟩ | ⟨-, e⟩
      · exact (congrArg StreamChannel.busy e.ch0).trans ih
      · exact absurd hstep (hnever m hm)
      · have hoff := h.ch1_of_ch0 hm ih
        exact absurd (hoff.symm.trans hstep.2) Bool.false_ne_true
      · exact (congrArg StreamChannel.busy e.ch0).trans ih
  have hoff : ¬ StepsAt sched r .ch1 m := fun hs => by
    have hidle := h.ch1_of_ch0 hm hbusy
    exact Bool.false_ne_true (hidle.symm.trans hs.2)
  refine ⟨hbusy, ?_, fun htick => h.after_other hm htick (hnever m hm) hoff⟩
  by_cases htick : StepsAt sched r .tick m
  · rw [(h.after_tick hm htick).pq, State.tick_pq]
    exact (pixStep_pq _ _ _).1.length_le
  · rw [(h.after_other hm htick (hnever m hm) hoff).pq]

/-- While CH0 takes no step, ticks alone move the scanout on, as many as one likes. -/
theorem RunsOn.reaches_ticks (h : RunsOn sched r n) (hnever : ∀ m ≥ n, ¬ StepsAt sched r .ch0 m)
    (hb : (r n).ch0.busy = true) (j : Nat) : ∃ m ≥ n, SameScanout (State.tick^[j] (r n)) (r m) := by
  classical
  induction j with
  | zero => exact ⟨n, Nat.le_refl n, SameScanout.refl _⟩
  | succ j ih =>
    obtain ⟨m, hm, hsame⟩ := ih
    obtain ⟨m', hm', htick⟩ := h.exists_tick hm
    obtain ⟨d, rfl⟩ := Nat.exists_eq_add_of_le hm'
    have hnext : ∃ d, StepsAt sched r .tick (m + d) := ⟨d, htick⟩
    have hbefore : ∀ i ≤ Nat.find hnext, SameScanout (r m) (r (m + i)) := by
      intro i hi
      induction i with
      | zero => exact SameScanout.refl _
      | succ i ihi =>
        obtain ⟨-, -, hpass⟩ := h.ch0_idles hnever hb (m := m + i) (by omega)
        exact (ihi (by omega)).trans (hpass (Nat.find_min hnext (by omega)))
    refine ⟨m + Nat.find hnext + 1, by omega, ?_⟩
    rw [Function.iterate_succ_apply']
    exact (hsame.trans (hbefore _ (Nat.le_refl _))).tick.trans
      (h.after_tick (m := m + Nat.find hnext) (by omega) (Nat.find_spec hnext))

/-- CH0 takes a step at some later time: else P would make room in PQ for good. -/
theorem RunsOn.exists_ch0 (h : RunsOn sched r n) : ∃ m ≥ n, StepsAt sched r .ch0 m := by
  by_contra hno
  have hnever : ∀ m ≥ n, ¬ StepsAt sched r .ch0 m := fun m hm hs => hno ⟨m, hm, hs⟩
  obtain ⟨m, hm, hbusy⟩ := h.exists_ch0_busy
  have h' := h.mono hm
  have hnever' : ∀ k ≥ m, ¬ StepsAt sched r .ch0 k := fun k hk => hnever k (hm.trans hk)
  have henabled : ∀ k ≥ m, (r k).pq.length < (r k).platform.fifoDepth → (r k).enabled .ch0 = true := fun k hk hroom => by
    have hb := (h'.ch0_idles hnever' hbusy hk).1
    exact State.enabled_ch0_iff.mpr
      ⟨State.ch0Ready_iff.mpr ⟨hb, ((h'.channels hk).ch0Count hb).1, hroom⟩, h'.free k hk⟩
  have hroomLater : ∃ k ≥ m, (r k).pq.length < (r k).platform.fifoDepth := by
    have hfits := (h'.inv m (Nat.le_refl m)).pqFits
    by_cases hpq : (r m).pq = []
    · refine ⟨m, Nat.le_refl m, ?_⟩
      rw [hpq]
      exact Nat.lt_of_lt_of_le (by decide) (two_le_fifoDepth _)
    · obtain ⟨j, hj⟩ := State.Scanning.pops ⟨h'.inv m (Nat.le_refl m), h'.running m (Nat.le_refl m)⟩ hpq
      obtain ⟨k, hk, hsame⟩ := h'.reaches_ticks hnever' hbusy j
      refine ⟨k, hk, ?_⟩
      rw [hsame.pq, hsame.platform, State.platform_ticks]
      exact hj.trans_le hfits
  obtain ⟨k, hk, hroom⟩ := hroomLater
  have hstays : ∀ l ≥ k, (r l).pq.length < (r l).platform.fifoDepth := by
    intro l hl
    induction l, hl using Nat.le_induction with
    | base => exact hroom
    | succ l hl ih =>
      obtain ⟨-, hle, hpass⟩ := h'.ch0_idles hnever' hbusy (hk.trans hl)
      have hpl : (r (l + 1)).platform = (r l).platform := by
        by_cases htick : StepsAt sched r .tick l
        · exact (h'.after_tick (hk.trans hl) htick).platform
        · exact (hpass htick).platform
      rw [hpl]
      exact hle.trans_lt ih
  obtain ⟨l, hl, hoff⟩ := h'.exists_disabled rfl hnever' hk
  simp [henabled l (hk.trans hl) (hstays l hl)] at hoff

/-- While CH1 takes no step, CH0's count does not grow, and a step of CH0 makes it less. -/
theorem RunsOn.count_le (h : RunsOn sched r n) (hnever : ∀ m ≥ n, ¬ StepsAt sched r .ch1 m) (hm : n ≤ m) :
    (r (m + 1)).ch0.count.toNat ≤ (r m).ch0.count.toNat ∧
    (StepsAt sched r .ch0 m → (r (m + 1)).ch0.count.toNat < (r m).ch0.count.toNat) := by
  have hless : ∀ hs : StepsAt sched r .ch0 m, (r (m + 1)).ch0.count.toNat < (r m).ch0.count.toNat := fun hs => by
    obtain ⟨-, hpos, -⟩ := State.ch0Ready_iff.mp (State.enabled_ch0_iff.mp hs.2).1
    rw [(h.after_ch0 hm hs).ch0, State.ch0Transfer_ch0]
    have hdown : ((r m).ch0.count - 1).toNat = (r m).ch0.count.toNat - 1 := BitVec.toNat_sub_of_le (by bv_omega)
    simp only [hdown]
    omega
  refine ⟨?_, hless⟩
  rcases h.step_cases hm with ⟨-, e⟩ | ⟨hs, -⟩ | ⟨hs, -⟩ | ⟨-, e⟩
  · rw [e.ch0, State.tick_ch0]
  · exact (hless hs).le
  · exact absurd hs (hnever m hm)
  · rw [e.ch0]

/-- CH1 takes a step at some later time: else CH0's count would go down for ever. -/
theorem RunsOn.exists_ch1 (h : RunsOn sched r n) : ∃ m ≥ n, StepsAt sched r .ch1 m := by
  by_contra hno
  have hnever : ∀ m ≥ n, ¬ StepsAt sched r .ch1 m := fun m hm hs => hno ⟨m, hm, hs⟩
  clear hno
  induction hcount : (r n).ch0.count.toNat using Nat.strong_induction_on generalizing n with
  | _ count ih =>
    obtain ⟨m, hm, hs⟩ := h.exists_ch0
    have hle : (r m).ch0.count.toNat ≤ count := by
      clear hs
      induction m, hm using Nat.le_induction with
      | base => exact hcount.le
      | succ m hm ihm => exact (h.count_le hnever hm).1.trans ihm
    have hlt := (h.count_le hnever hm).2 hs
    exact ih _ (hlt.trans_le hle) (h.mono (k := m + 1) (by omega)) (fun k hk => hnever k (by omega)) rfl

end

/-- Settles O43. -/
theorem ringStreamsTheFramebuffer : Obligations.RingStreamsTheFramebuffer := by
  unfold Obligations.RingStreamsTheFramebuffer
  refine ⟨fun s ts hinv hrun hts i a ha => ?reads, fun s t hinv hbusy hstep hbusy' => hinv.frameBase_step hbusy hstep hbusy',
    fun s hinv hbusy => ?next, fun s hbusy => ?reload, fun s => ⟨s.frameBase_trigger, rfl⟩,
    fun sched r n hr hfair hinv hon u hu k hk => ?forEver⟩
  case reads =>
    have h := (hinv.streamAt_arm hrun).streamReads hts ha
    rwa [Nat.zero_add] at h
  case next => exact State.raddr_eq_frameWord ((hinv.channels (hinv.run_of_ch0Busy hbusy)).ch0Count hbusy).2
  case reload =>
    rw [State.ch1Step, if_pos hbusy]
    exact ⟨State.frameBase_trigger { s with ch1Busy := false }, rfl⟩
  case forEver =>
    have h := (hr.runsOn hfair hinv hon).mono hk
    simp only [List.mem_cons, List.not_mem_nil, or_false] at hu
    rcases hu with rfl | rfl | rfl
    · exact h.exists_tick (Nat.le_refl k)
    · exact h.exists_ch0
    · exact h.exists_ch1

end Sys2Proof.Machine
end

section
/-! PROOFS. What the screen shows (spec/40_timing_programs.md R162 to R166, R171, R172). However the agents interleave, the
state after START is a function of the tick number k and of the number c of words CH0 has moved: H and V are where k ticks take
them, P is at place (k − 1) mod L of line (k − 1) div L, it has shown the pixels of the active places before, and PQ holds the
words between P and CH0. -/

namespace Sys2Proof.Machine

/-! ### The stream P shows -/

/-- P has shown n pixels of the words W, of which CH0 has moved c: P holds what is left of the word it is at, PQ the words after
it (R163, R164). -/
def Shown (W : Nat → Word) (c n : Nat) (p : PixSeq) (pq : List Word) : Prop :=
  ∃ pulled len, c = pulled + len ∧ n + p.avail = 10 * pulled ∧ p.avail ≤ 10 ∧
    (p.avail ≠ 0 → p.osr = W (pulled - 1) >>> (3 * (10 - p.avail))) ∧ pq = (List.range' pulled len).map W

/-- The n-th pixel of the words W: slot n mod 10 of word n div 10. -/
def wordsPixel (W : Nat → Word) (n : Nat) : Color := (W (n / 10)).extractLsb' (3 * (n % 10)) 3

section
variable {W : Nat → Word} {c n : Nat} {p : PixSeq} {pq : List Word} {clearP : Bool}

theorem shown_start (hav : p.avail = 0) : Shown W c 0 p ((List.range' 0 c).map W) :=
  ⟨0, c, (Nat.zero_add c).symm, by omega, by omega, fun h => absurd hav h, rfl⟩

/-- CH0 puts the next word at the end of PQ. -/
theorem Shown.push (h : Shown W c n p pq) : Shown W (c + 1) n p (pq ++ [W c]) := by
  obtain ⟨pulled, len, rfl, hn, hav, hosr, rfl⟩ := h
  exact ⟨pulled, len + 1, by omega, hn, hav, hosr, by rw [List.range'_1_concat, List.map_append, List.map_singleton]⟩

/-- A shift without a stall shows the next pixel (R163, R164). -/
theorem Shown.shift (h : Shown W c n p pq) (hflow : (pixShift p pq clearP).underflow = false) :
    (pixShift p pq clearP).rgb = wordsPixel W n ∧
    Shown W c (n + 1) (pixShift p pq clearP).p (pixShift p pq clearP).pq := by
  obtain ⟨pulled, len, rfl, hn, hav, hosr, rfl⟩ := h
  by_cases hav0 : p.avail = 0
  · cases len with
    | zero =>
      rw [List.range'_zero, List.map_nil, pixShift_stall _ hav0] at hflow
      cases hflow
    | succ len =>
      rw [List.range'_succ, List.map_cons, pixShift_pull hav0]
      have hword : n / 10 = pulled := by omega
      have hslot : n % 10 = 0 := by omega
      refine ⟨by rw [wordsPixel, hword, hslot], pulled + 1, len, by omega, ?_, ?_, fun _ => rfl, rfl⟩
      · simp only [shiftPixel_avail]
        omega
      · simp only [shiftPixel_avail]
        omega
  · rw [pixShift_shift hav0]
    have hword : n / 10 = pulled - 1 := by omega
    have hslot : n % 10 = 10 - p.avail := by omega
    refine ⟨by rw [wordsPixel, hword, hslot, hosr hav0, extract_ushiftRight], pulled, len, rfl, ?_, ?_, fun hleft => ?_, rfl⟩
    · simp only [shiftPixel_avail]
      omega
    · simp only [shiftPixel_avail]
      omega
    · rw [shiftPixel_avail] at hleft ⊢
      rw [shiftPixel_osr, hosr hav0, ← BitVec.shiftRight_add, show 3 * (10 - p.avail) + 3 = 3 * (10 - (p.avail - 1)) by omega]

end

/-! ### Lines and pixels since START -/

/-- Line m is active: the r-th line of its frame, r ≤ VP; the start-up line 0 is not (R170). -/
abbrev LineActive (F vp m : Nat) : Prop := 1 ≤ m ∧ (m - 1) % F ≤ vp

/-- The active lines before line m. -/
def linesBefore (F vp : Nat) : Nat → Nat
  | 0 => 0
  | m + 1 => linesBefore F vp m + if LineActive F vp m then 1 else 0

/-- The pixels shown before place x of line m. -/
def pixelsBefore (F vp hp m x : Nat) : Nat :=
  linesBefore F vp m * (hp + 1) + if LineActive F vp m then min x (hp + 1) else 0

section
variable {F vp hp m x : Nat}

theorem lineActive_of_frame {f Y : Nat} (hF : vp < F) (hY : Y ≤ vp) : LineActive F vp (f * F + Y + 1) := by
  refine ⟨Nat.le_add_left _ _, ?_⟩
  rw [Nat.add_sub_cancel, Nat.mul_add_mod_self_right, Nat.mod_eq_of_lt (by omega)]
  exact hY

theorem linesBefore_frame_add (f j : Nat) (hj : j ≤ F) :
    linesBefore F vp (f * F + j + 1) = linesBefore F vp (f * F + 1) + min j (vp + 1) := by
  induction j with
  | zero => rfl
  | succ j ih =>
    have hactive : LineActive F vp (f * F + j + 1) ↔ j ≤ vp := by
      rw [LineActive, Nat.add_sub_cancel, Nat.mul_add_mod_self_right, Nat.mod_eq_of_lt (show j < F by omega)]
      exact and_iff_right (Nat.le_add_left _ _)
    rw [← Nat.add_assoc, linesBefore, ih (by omega)]
    by_cases hle : j ≤ vp
    · rw [if_pos (hactive.mpr hle)]
      omega
    · rw [if_neg (mt hactive.mp hle)]
      omega

theorem linesBefore_frame (hF : vp < F) (f : Nat) : linesBefore F vp (f * F + 1) = f * (vp + 1) := by
  induction f with
  | zero =>
    have hstartup : ¬ LineActive F vp 0 := fun h => absurd h.1 (by decide)
    rw [Nat.zero_mul, Nat.zero_mul, linesBefore, linesBefore, if_neg hstartup]
  | succ f ih =>
    rw [Nat.succ_mul, linesBefore_frame_add f F (Nat.le_refl F), ih, Nat.min_eq_right hF, Nat.succ_mul]

/-- The pixels before pixel X of active line Y of frame f (R171). -/
theorem pixelsBefore_of_frame {f X Y : Nat} (hF : vp < F) (hX : X ≤ hp) (hY : Y ≤ vp) :
    pixelsBefore F vp hp (f * F + Y + 1) X = (f * (vp + 1) + Y) * (hp + 1) + X := by
  rw [pixelsBefore, if_pos (lineActive_of_frame hF hY), linesBefore_frame_add f Y (by omega), linesBefore_frame hF f,
    Nat.min_eq_left (by omega), Nat.min_eq_left (by omega)]

theorem pixelsBefore_succ_of_active (ha : LineActive F vp m) (hx : x ≤ hp) :
    pixelsBefore F vp hp m (x + 1) = pixelsBefore F vp hp m x + 1 := by
  rw [pixelsBefore, pixelsBefore, if_pos ha, if_pos ha]
  omega

theorem pixelsBefore_succ_of_blank (h : LineActive F vp m → hp < x) :
    pixelsBefore F vp hp m (x + 1) = pixelsBefore F vp hp m x := by
  rw [pixelsBefore, pixelsBefore]
  split
  · next ha =>
    have := h ha
    omega
  · rfl

theorem pixelsBefore_nextLine (h : LineActive F vp m → hp < x) :
    pixelsBefore F vp hp (m + 1) 0 = pixelsBefore F vp hp m x := by
  rw [pixelsBefore, pixelsBefore, linesBefore]
  by_cases ha : LineActive F vp m
  · have := h ha
    rw [if_pos ha, if_pos ha, Nat.zero_min, ite_self, Nat.min_eq_right (by omega)]
    ring
  · simp only [if_neg ha, Nat.zero_min, ite_self, Nat.add_zero]

end

/-! ### P in its line -/

/-- P at place x of a line: in an active line it waits with AWF set at place 0 and is in the line up to place HP; it waits
everywhere else (R162, R166). -/
def LineAt (hp : Nat) (active : Prop) (x : Nat) (p : PixSeq) (awf : Bool) : Prop :=
  (active ∧ x = 0 ∧ p.phase = .wait ∧ awf = true) ∨
  (active ∧ 1 ≤ x ∧ x ≤ hp ∧ p.phase = .run ∧ p.cnt.toNat = hp - x ∧ awf = false) ∨
  ((active → hp < x) ∧ p.phase = .wait ∧ awf = false)

section
variable {hp x : Nat} {active : Prop} {p : PixSeq} {awf clearP : Bool} {pq : List Word}

/-- One shift in a line: P goes to the next place, or to WAIT after the last (R163, R166). -/
theorem lineAt_pixShift (ha : active) (hx : x ≤ hp) (hrun : p.phase = .run) (hcnt : p.cnt.toNat = hp - x)
    (hflow : (pixShift p pq clearP).underflow = false) : LineAt hp active (x + 1) (pixShift p pq clearP).p false := by
  have hshift : ∀ q : PixSeq, q.phase = .run → q.cnt.toNat = hp - x → LineAt hp active (x + 1) (shiftPixel q) false := by
    intro q hrun hcnt
    by_cases h0 : q.cnt = 0
    · have hzero : q.cnt.toNat = 0 := congrArg BitVec.toNat h0
      rw [shiftPixel_last h0]
      exact .inr (.inr ⟨fun _ => by omega, rfl, rfl⟩)
    · have hpos : q.cnt.toNat ≠ 0 := fun h => h0 (BitVec.eq_of_toNat_eq h)
      have hdown : (q.cnt - 1).toNat = q.cnt.toNat - 1 := BitVec.toNat_sub_of_le (by bv_omega)
      rw [shiftPixel_inside h0]
      exact .inr (.inl ⟨ha, Nat.le_add_left _ _, by omega, hrun, by rw [hdown]; omega, rfl⟩)
  rcases pixShift_cases p pq clearP with ⟨-, -, e⟩ | ⟨-, e⟩ | ⟨w, rest, -, -, e⟩
  · rw [e] at hflow
    cases hflow
  · rw [e]
    exact hshift p hrun hcnt
  · rw [e]
    exact hshift _ hrun hcnt

theorem pixShift_par (p : PixSeq) (pq : List Word) (clearP : Bool) : (pixShift p pq clearP).p.par = p.par := by
  rcases pixShift_cases p pq clearP with ⟨-, -, e⟩ | ⟨-, e⟩ | ⟨w, rest, -, -, e⟩ <;> rw [e] <;> rfl

/-- AWF is 1 only while P waits, so a tick keeps it for no one. -/
theorem LineAt.awf_wait (h : LineAt hp active x p awf) : ¬ (awf = true ∧ p.phase ≠ .wait) := by
  rintro ⟨hawf, hne⟩
  rcases h with ⟨-, -, hw, -⟩ | ⟨-, -, -, -, -, hf⟩ | ⟨-, hw, -⟩
  · exact hne hw
  · exact Bool.false_ne_true (hf.symm.trans hawf)
  · exact hne hw

/-- P in one tick of a line, if it does not stall: in the active places it shows a pixel and goes to the next place; at the others
it waits. -/
theorem LineAt.pixStep {W : Nat → Word} {c n : Nat} (h : LineAt hp active x p awf) (hpar : p.par.toNat = hp)
    (hshown : Shown W c n p pq) (hflow : (pixStep p awf pq).underflow = false) :
    (active ∧ x ≤ hp ∧ (pixStep p awf pq).rgb = wordsPixel W n ∧
      LineAt hp active (x + 1) (pixStep p awf pq).p false ∧ (pixStep p awf pq).p.par = p.par ∧
      Shown W c (n + 1) (pixStep p awf pq).p (pixStep p awf pq).pq) ∨
    ((active → hp < x) ∧ (pixStep p awf pq).p.phase = .wait ∧ (pixStep p awf pq).p.par = p.par ∧
      Shown W c n (pixStep p awf pq).p (pixStep p awf pq).pq) := by
  rcases h with ⟨ha, rfl, hwait, rfl⟩ | ⟨ha, hlo, hhi, hrun, hcnt, -⟩ | ⟨hblank, hwait, rfl⟩
  case inl =>
    rw [pixStep_line hwait] at hflow ⊢
    have hstart : Shown W c n { p with phase := .run, cnt := p.par } pq := hshown
    obtain ⟨hrgb, hnext⟩ := hstart.shift hflow
    exact .inl ⟨ha, Nat.zero_le _, hrgb, lineAt_pixShift ha (Nat.zero_le _) rfl hpar hflow, pixShift_par _ _ _, hnext⟩
  case inr.inl =>
    rw [pixStep_run hrun] at hflow ⊢
    obtain ⟨hrgb, hnext⟩ := hshown.shift hflow
    exact .inl ⟨ha, hhi, hrgb, lineAt_pixShift ha hhi hrun hcnt hflow, pixShift_par _ _ _, hnext⟩
  case inr.inr =>
    rw [pixStep_wait hwait]
    exact .inr ⟨hblank, hwait, rfl, hshown⟩

end

/-! ### The invariant after START -/

section
variable (s : State)

/-- The i-th word of the stream that START at s begins (R195). -/
def streamWord (i : Nat) : Word := s.mem.readWord (fbaddr s.fbBase (i % 30720))

/-- H and V are where `t.tickNo` ticks take them. -/
def TimedAs (t : State) : Prop :=
  t.h = (State.tick^[t.tickNo] s.arm).h ∧ t.hq = (State.tick^[t.tickNo] s.arm).hq ∧
  t.v = (State.tick^[t.tickNo] s.arm).v ∧ t.vq = (State.tick^[t.tickNo] s.arm).vq

/-- What no agent changes while the engine is idle. -/
def SameSource (t : State) : Prop :=
  t.fbBase = s.fbBase ∧ t.mem = s.mem ∧ t.platform = s.platform ∧ t.eng.ops = []

/-- P before tick k, when CH0 has moved c words: before tick 0 its parameter is first in PQ; before tick j + 1 it is at place
j mod L of line j div L. -/
def PixelsAt (c k : Nat) (p : PixSeq) (awf : Bool) (pq : List Word) : Prop :=
  let L := linePeriod s.platform s.regs.hActiveM1
  let F := framePeriod s.platform s.regs.vActiveM1
  let hp := s.regs.hActiveM1.toNat
  let vp := s.regs.vActiveM1.toNat
  match k with
  | 0 => p.phase = .param ∧ p.avail = 0 ∧ awf = false ∧ pq = s.regs.hActiveM1 :: (List.range' 0 c).map (streamWord s)
  | j + 1 => p.par = s.regs.hActiveM1 ∧ LineAt hp (LineActive F vp (j / L)) (j % L) p awf ∧
      Shown (streamWord s) c (pixelsBefore F vp hp (j / L) (j % L)) p pq

/-- The state t after START at s, when CH0 has moved c words. -/
def OnScreen (c : Nat) (t : State) : Prop :=
  TimedAs s t ∧ SameSource s t ∧ t.StreamAt c ∧ PixelsAt s c t.tickNo t.p t.awf t.pq

end

section
variable {s t : State} {c : Nat}

theorem onScreen_arm (hinv : s.ScanInv) (hrun : s.run = false) (hidle : s.eng.ops = []) : OnScreen s 0 s.arm := by
  have hst := hinv.whenStopped hrun
  exact ⟨⟨rfl, rfl, rfl, rfl⟩, ⟨rfl, rfl, rfl, hidle⟩, hinv.streamAt_arm hrun, rfl, hst.availZero, hst.awfClear,
    congrArg (· ++ [s.regs.hActiveM1]) hst.pqEmpty⟩

/-- A tick moves H and V as it would without the other agents' turns before it. -/
theorem TimedAs.tick (h : TimedAs s t) (hpl : t.platform = s.platform) : TimedAs s t.tick := by
  obtain ⟨hh, hhq, hv, hvq⟩ := h
  have hpl' : (State.tick^[t.tickNo] s.arm).platform = s.platform := State.platform_ticks _ _
  refine ⟨?_, ?_, ?_, ?_⟩ <;> rw [State.tick_tickNo, Function.iterate_succ_apply']
  · rw [State.tick_h, State.tick_h, hh, hhq, hpl, hpl']
  · rw [State.tick_hq, State.tick_hq, hh, hhq, hpl, hpl']
  · rw [State.tick_v, State.tick_v, hh, hv, hvq, hpl, hpl']
  · rw [State.tick_vq, State.tick_vq, hh, hv, hvq, hpl, hpl']

/-- Before tick 0 P waits for its parameter, and tick 0 gives it (R161). -/
theorem OnScreen.pixels_tick_zero (h : OnScreen s c t) (h0 : t.tickNo = 0) :
    PixelsAt s c 1 t.tick.p t.tick.awf t.tick.pq := by
  obtain ⟨⟨hh, -, -, -⟩, -, -, hpix⟩ := h
  rw [h0] at hh hpix
  obtain ⟨hparam, -, hawf, hpq⟩ := hpix
  have hpull := pixStep_param_cons (awf := t.awf) (w := s.regs.hActiveM1) (pq := (List.range' 0 c).map (streamWord s)) hparam
  have hawf' : t.tick.awf = false := by
    refine Bool.eq_false_iff.mpr fun hset => ?_
    rcases t.tick_awf_iff.mp hset with ⟨⟨hbp, -⟩, -⟩ | ⟨hset, -⟩
    · rw [hh] at hbp
      cases hbp
    · exact Bool.false_ne_true (hawf.symm.trans hset)
  have hstartup : ¬ LineActive (framePeriod s.platform s.regs.vActiveM1) s.regs.vActiveM1.toNat
      (0 / linePeriod s.platform s.regs.hActiveM1) := fun ha => by
    have hline := ha.1
    rw [Nat.zero_div] at hline
    exact absurd hline (by decide)
  rw [hawf', State.tick_p, State.tick_pq, hpq, hpull]
  refine ⟨rfl, .inr (.inr ⟨fun ha => absurd ha hstartup, rfl, rfl⟩), ?_⟩
  have hnone : pixelsBefore (framePeriod s.platform s.regs.vActiveM1) s.regs.vActiveM1.toNat s.regs.hActiveM1.toNat
      (0 / linePeriod s.platform s.regs.hActiveM1) (0 % linePeriod s.platform s.regs.hActiveM1) = 0 := by
    rw [pixelsBefore, if_neg hstartup, Nat.zero_div, linesBefore, Nat.zero_mul]
  rw [hnone]
  exact shown_start rfl

/-- CH0 moves the next word of the stream to the end of PQ, the rest of the screen being as it was. -/
theorem OnScreen.ch0Transfer (h : OnScreen s c t) (hbusy : t.ch0.busy = true) : OnScreen s (c + 1) t.ch0Transfer := by
  obtain ⟨htimed, ⟨hbase, hmem, hpl, hidle⟩, hstream, hpix⟩ := h
  have hword : t.mem.readWord t.ch0.raddr = streamWord s c := by
    rcases hstream with ⟨-, -, hraddr, -⟩ | ⟨hoff, -, -⟩
    · rw [hraddr, hmem, hbase, streamWord]
    · exact absurd (hoff.symm.trans hbusy) Bool.false_ne_true
  refine ⟨htimed, ⟨hbase, hmem, hpl, hidle⟩, hstream.ch0Transfer hbusy, ?_⟩
  rw [State.ch0Transfer_tickNo, State.ch0Transfer_pq, State.ch0Transfer_p, State.ch0Transfer_awf, hword]
  cases hk : t.tickNo with
  | zero =>
    rw [hk] at hpix
    obtain ⟨hparam, hav, hawf, hpq⟩ := hpix
    refine ⟨hparam, hav, hawf, ?_⟩
    rw [hpq, List.range'_1_concat, List.map_append, List.map_singleton, Nat.zero_add, List.cons_append]
  | succ j =>
    rw [hk] at hpix
    obtain ⟨hpar, hline, hshown⟩ := hpix
    exact ⟨hpar, hline, hshown.push⟩

theorem place_succ {L : Nat} (hL : 0 < L) (j : Nat) :
    (L ∣ j + 1 ∧ (j + 1) / L = j / L + 1 ∧ (j + 1) % L = 0 ∧ j % L + 1 = L) ∨
    (¬ L ∣ j + 1 ∧ (j + 1) / L = j / L ∧ (j + 1) % L = j % L + 1) := by
  have hlast := mod_add_one_eq_iff_dvd hL j
  have hmod := Nat.mod_lt j hL
  by_cases hdvd : L ∣ j + 1
  · exact .inl ⟨hdvd, Nat.succ_div_of_dvd hdvd, Nat.mod_eq_zero_of_dvd hdvd, hlast.mpr hdvd⟩
  · have hne := mt hlast.mp hdvd
    refine .inr ⟨hdvd, Nat.succ_div_of_not_dvd hdvd, ?_⟩
    rw [← Nat.mod_add_mod, Nat.mod_eq_of_lt (by omega)]

theorem activePart_lt_linePeriod (pl : Platform) (hp : Word) : hp.toNat + 1 < linePeriod pl hp := by
  unfold linePeriod
  omega

section
variable (hinv : s.ScanInv) (hrun : s.run = false)
include hinv hrun

theorem arm_hq_eq : s.arm.hq = [s.regs.hActiveM1] := congrArg (· ++ [s.regs.hActiveM1]) (hinv.whenStopped hrun).hqEmpty

theorem arm_vq_eq : s.arm.vq = [s.regs.vActiveM1] := congrArg (· ++ [s.regs.vActiveM1]) (hinv.whenStopped hrun).vqEmpty

/-- The tick that ends line m sets AWF exactly when line m + 1 is active (R159, R170). -/
theorem TimedAs.setsAwf_iff (h : TimedAs s t) (hpl : t.platform = s.platform) {j : Nat} (hj : t.tickNo = j + 1) :
    ((t.h.phase = .bp ∧ t.h.cnt = 0) ∧ t.tick.v.phase = .active) ↔
      linePeriod s.platform s.regs.hActiveM1 ∣ j + 1 ∧
      LineActive (framePeriod s.platform s.regs.vActiveM1) s.regs.vActiveM1.toNat
        ((j + 1) / linePeriod s.platform s.regs.hActiveM1) := by
  obtain ⟨-, -, hv', -⟩ := h.tick hpl
  obtain ⟨hh, -, -, -⟩ := h
  have hL := linePeriod_pos s.platform s.regs.hActiveM1
  have hlb : (t.h.phase = .bp ∧ t.h.cnt = 0) ↔ linePeriod s.platform s.regs.hActiveM1 ∣ j + 1 := by
    rw [← lineBoundary_iff, hh, hj]
    exact State.lineBoundary_ticks_iff (s := s.arm) rfl (arm_hq_eq hinv hrun) j
  rw [hlb]
  refine and_congr_right fun ⟨m, hm⟩ => ?_
  have hm1 : 1 ≤ m := Nat.pos_of_ne_zero fun h0 => by simp [h0] at hm
  have hfrom : m * linePeriod s.platform s.regs.hActiveM1 + 1 ≤ j + 2 := by rw [Nat.mul_comm, ← hm]
  have hto : j + 2 ≤ (m + 1) * linePeriod s.platform s.regs.hActiveM1 := by
    rw [Nat.succ_mul, Nat.mul_comm, ← hm]
    omega
  have hline : Seq.At (vLoad s.platform) s.regs.vActiveM1 (State.tick^[j + 2] s.arm).v
      ((m - 1) % framePeriod s.platform s.regs.vActiveM1) :=
    State.v_at_line (s := s.arm) rfl (arm_hq_eq hinv hrun) rfl (arm_vq_eq hinv hrun) hm1 hfrom hto
  rw [hv', State.tick_tickNo, hj, hline.vPhase_eq, hm, Nat.mul_div_cancel_left m hL, LineActive]
  constructor
  · intro hactive
    refine ⟨hm1, ?_⟩
    by_contra hle
    rw [if_neg hle] at hactive
    split at hactive
    · cases hactive
    · split at hactive <;> cases hactive
  · rintro ⟨-, hle⟩
    exact if_pos hle

/-- A tick without a stall takes P to the next place, of this line or of the next. -/
theorem OnScreen.pixels_tick_succ (h : OnScreen s c t) {j : Nat} (hj : t.tickNo = j + 1)
    (hflow : (pixStep t.p t.awf t.pq).underflow = false) : PixelsAt s c (j + 2) t.tick.p t.tick.awf t.tick.pq := by
  obtain ⟨htimed, ⟨-, -, hpl, -⟩, -, hpix⟩ := h
  have hsets := htimed.setsAwf_iff hinv hrun hpl hj
  rw [hj] at hpix
  obtain ⟨hpar, hline, hshown⟩ := hpix
  have hL := linePeriod_pos s.platform s.regs.hActiveM1
  have hshort := activePart_lt_linePeriod s.platform s.regs.hActiveM1
  have hawf := t.tick_awf_iff.trans (or_iff_left hline.awf_wait)
  rw [hsets] at hawf
  have hstep := hline.pixStep (congrArg BitVec.toNat hpar) hshown hflow
  rw [← State.tick_p, ← State.tick_pq] at hstep
  rcases place_succ hL j with ⟨hdvd, hdiv, hmod, hlast⟩ | ⟨hdvd, hdiv, hmod⟩
  case inl =>
    rw [hdiv] at hawf
    rcases hstep with ⟨-, hx, -⟩ | ⟨hblank, hwait, hpar', hshown'⟩
    · omega
    · refine ⟨hpar'.trans hpar, ?_, ?_⟩
      · rw [hdiv, hmod]
        by_cases ha : LineActive (framePeriod s.platform s.regs.vActiveM1) s.regs.vActiveM1.toNat
            (j / linePeriod s.platform s.regs.hActiveM1 + 1)
        · exact .inl ⟨ha, rfl, hwait, hawf.mpr ⟨hdvd, ha⟩⟩
        · exact .inr (.inr ⟨fun h => absurd h ha, hwait, Bool.eq_false_iff.mpr fun h => ha (hawf.mp h).2⟩)
      · rw [hdiv, hmod, pixelsBefore_nextLine hblank]
        exact hshown'
  case inr =>
    have hawf' : t.tick.awf = false := Bool.eq_false_iff.mpr fun h => hdvd (hawf.mp h).1
    rw [PixelsAt, hawf', hdiv, hmod]
    rcases hstep with ⟨ha, hx, -, hline', hpar', hshown'⟩ | ⟨hblank, hwait, hpar', hshown'⟩
    · exact ⟨hpar'.trans hpar, hline', by rw [pixelsBefore_succ_of_active ha hx]; exact hshown'⟩
    · exact ⟨hpar'.trans hpar, .inr (.inr ⟨fun ha => Nat.lt_succ_of_lt (hblank ha), hwait, rfl⟩),
        by rw [pixelsBefore_succ_of_blank hblank]; exact hshown'⟩

theorem OnScreen.tick (h : OnScreen s c t) (hflow : (pixStep t.p t.awf t.pq).underflow = false) : OnScreen s c t.tick := by
  obtain ⟨htimed, hsource, hstream, -⟩ := id h
  obtain ⟨-, -, hpl, -⟩ := id hsource
  refine ⟨htimed.tick hpl, hsource, hstream.congr rfl rfl rfl, ?_⟩
  rw [State.tick_tickNo]
  cases hk : t.tickNo with
  | zero => exact h.pixels_tick_zero hk
  | succ j => exact h.pixels_tick_succ hinv hrun hk hflow

/-- Every turn of a block agent that records no UNDERFLOW keeps the picture. -/
theorem OnScreen.blockTurn (h : OnScreen s c t) {u : Turn} (hu : Turn.ofBlock u = true)
    (hflow : (t.blockTurn u).history = t.history) : ∃ c', OnScreen s c' (t.blockTurn u) := by
  cases u with
  | host | reset => cases hu
  | tick =>
    refine ⟨c, h.tick hinv hrun (Bool.of_not_eq_true fun hstall => ?_)⟩
    rw [State.blockTurn, State.tick_history, if_pos hstall] at hflow
    simp at hflow
  | ch0 =>
    cases henabled : t.enabled .ch0 with
    | true =>
      rw [State.blockTurn, State.ch0Step_of_enabled henabled]
      exact ⟨c + 1, h.ch0Transfer (State.ch0Ready_iff.mp (State.enabled_ch0_iff.mp henabled).1).1⟩
    | false =>
      rw [State.blockTurn, State.ch0Step_of_not_enabled henabled]
      exact ⟨c, h⟩
  | ch1 =>
    obtain ⟨htimed, hsource, hstream, hpix⟩ := h
    have hstream' := hstream.ch1Step
    rw [State.blockTurn, t.ch1Step_eq]
    rw [t.ch1Step_eq] at hstream'
    exact ⟨c, htimed, hsource, hstream', hpix⟩
  | eng =>
    obtain ⟨-, ⟨-, -, -, hidle⟩, -⟩ := id h
    rw [State.blockTurn, State.engStep_of_idle hidle]
    exact ⟨c, h⟩

end

/-- The ghost history only grows (log 14). -/
theorem State.history_prefix_blockTurn (t : State) (u : Turn) (hu : Turn.ofBlock u = true) :
    t.history <+: (t.blockTurn u).history := by
  cases u with
  | host | reset => cases hu
  | tick =>
    rw [State.blockTurn, State.tick_history]
    split
    · exact List.prefix_append _ _
    · exact List.prefix_rfl
  | ch0 => rw [State.blockTurn, t.ch0Step_eq]
  | ch1 => rw [State.blockTurn, t.ch1Step_eq]
  | eng => rw [State.blockTurn, t.engStep_eq]

theorem State.history_prefix_blockTurns (t : State) {ts : List Turn} (hts : ∀ u ∈ ts, Turn.ofBlock u = true) :
    t.history <+: (ts.foldl State.blockTurn t).history := by
  induction ts generalizing t with
  | nil => exact List.prefix_rfl
  | cons u ts ih =>
    exact (t.history_prefix_blockTurn u (hts u (.head _))).trans (ih (t.blockTurn u) fun v hv => hts v (.tail _ hv))

/-- However the block's agents interleave after START, without an UNDERFLOW the picture holds. -/
theorem onScreen_blockTurns (hinv : s.ScanInv) (hrun : s.run = false) (hidle : s.eng.ops = []) {ts : List Turn}
    (hts : ∀ u ∈ ts, Turn.ofBlock u = true) (hflow : (ts.foldl State.blockTurn s.arm).history = s.history) :
    ∃ c, OnScreen s c (ts.foldl State.blockTurn s.arm) := by
  induction ts using List.reverseRecOn with
  | nil => exact ⟨0, onScreen_arm hinv hrun hidle⟩
  | append_singleton ts u ih =>
    have hts' : ∀ v ∈ ts, Turn.ofBlock v = true := fun v hv => hts v (List.mem_append_left _ hv)
    have hu := hts u (List.mem_append_right _ (List.mem_singleton_self u))
    rw [List.foldl_concat] at hflow ⊢
    have hbefore : (ts.foldl State.blockTurn s.arm).history = s.history :=
      List.IsPrefix.eq_of_length_le (hflow ▸ State.history_prefix_blockTurn _ u hu)
        (s.arm.history_prefix_blockTurns hts').length_le
    obtain ⟨c, h⟩ := ih hts' hbefore
    exact h.blockTurn hinv hrun hu (hflow.trans hbefore.symm)

/-- The pixel that comes out in an active place of a line (R171). -/
theorem OnScreen.rgb (h : OnScreen s c t) {f X Y : Nat} (hX : X ≤ s.regs.hActiveM1.toNat) (hY : Y ≤ s.regs.vActiveM1.toNat)
    (hk : t.tickNo = (f * framePeriod s.platform s.regs.vActiveM1 + Y + 1) * linePeriod s.platform s.regs.hActiveM1 + 1 + X)
    (hflow : (pixStep t.p t.awf t.pq).underflow = false) :
    t.tick.pins.rgb =
      wordsPixel (streamWord s) ((f * (s.regs.vActiveM1.toNat + 1) + Y) * (s.regs.hActiveM1.toNat + 1) + X) := by
  obtain ⟨-, -, -, hpix⟩ := h
  have hshort := activePart_lt_linePeriod s.platform s.regs.hActiveM1
  have hF : s.regs.vActiveM1.toNat < framePeriod s.platform s.regs.vActiveM1 := by unfold framePeriod; omega
  rw [hk, Nat.add_right_comm] at hpix
  obtain ⟨hpar, hline, hshown⟩ := hpix
  have hplace : X < linePeriod s.platform s.regs.hActiveM1 := by omega
  rw [Nat.mul_add_mod_self_right, Nat.mod_eq_of_lt hplace] at hline hshown
  rw [Nat.add_comm (_ * _) X, Nat.add_mul_div_right _ _ (by omega), Nat.div_eq_of_lt hplace, Nat.zero_add] at hline hshown
  rw [pixelsBefore_of_frame hF hX hY] at hshown
  rcases hline.pixStep (congrArg BitVec.toNat hpar) hshown hflow with ⟨-, -, hrgb, -⟩ | ⟨hblank, -⟩
  · exact hrgb
  · exact absurd (hblank (lineActive_of_frame hF hY)) (Nat.not_lt.mpr hX)

/-- With 640 by 480 places a frame's stream is the framebuffer, one word early: each pixel is the one drawn 10 places to the
right (R172). -/
theorem wordsPixel_eq_pixelAt {f X Y : Nat} (hX : X < 640) (hY : Y < 480) :
    wordsPixel (streamWord s) ((f * 480 + Y) * 640 + X) =
      pixelAt s.mem s.fbBase ((X + 10) % 640) (if X < 630 then Y else (Y + 1) % 480) := by
  have hslot : ((f * 480 + Y) * 640 + X) % 10 = (X + 10) % 640 % 10 := by omega
  have hword : ((f * 480 + Y) * 640 + X) / 10 % 30720 = gridWord ((X + 10) % 640) (if X < 630 then Y else (Y + 1) % 480) := by
    unfold gridWord
    split <;> omega
  have hrow : (if X < 630 then Y else (Y + 1) % 480) < 480 := by split <;> omega
  rw [wordsPixel, streamWord, hword, hslot, pixelAt_eq _ (Nat.mod_lt _ (by decide)) hrow]

end

/-- Settles O51: the run keeps `OnScreen`, whose P shows the pixel of its place in the tick that follows. -/
theorem screenShowsTheFramebuffer : Obligations.ScreenShowsTheFramebuffer := by
  unfold Obligations.ScreenShowsTheFramebuffer
  intro s ts f X Y hinv hrun hidle hts hX hY t L F n hk hflow
  have hbefore : t.history = s.history :=
    List.IsPrefix.eq_of_length_le (hflow ▸ t.history_prefix_blockTurn .tick rfl) (s.arm.history_prefix_blockTurns hts).length_le
  obtain ⟨c, h⟩ := onScreen_blockTurns hinv hrun hidle hts hbefore
  have hnoStall : (pixStep t.p t.awf t.pq).underflow = false := Bool.of_not_eq_true fun hstall => by
    rw [State.tick_history, if_pos hstall, hbefore] at hflow
    simp at hflow
  have hrgb := h.rgb hX hY hk hnoStall
  refine ⟨hrgb, fun hhp hvp => hrgb.trans ?_⟩
  rw [hhp] at hX ⊢
  rw [hvp] at hY ⊢
  exact wordsPixel_eq_pixelAt (Nat.lt_succ_of_le hX) (Nat.lt_succ_of_le hY)

end Sys2Proof.Machine
end
